-- ==== Sys2Proof/Word.lean ====
section
/-! DEFINITION. The value types of FSYNC: bytes, the unsigned wire integers and the f32 patterns
(spec/00_scope.md R10, R14). -/

namespace Sys2Proof

/-- A byte, an unsigned 8-bit value (R10). -/
abbrev Byte := BitVec 8

/-- A `u16` wire field (R10). -/
abbrev U16 := BitVec 16

/-- A `u32` wire field (R10). -/
abbrev U32 := BitVec 32

/-- An `f32`: a 32-bit pattern, carried bit for bit and never rounded or converted (R14). -/
abbrev F32 := BitVec 32

end Sys2Proof
end

