-- ==== Sys2Proof/Config.lean ====
section
/-! DEFINITION. What an implementation fixes: the constants of spec/00_scope.md R8 and R9, the
parameters R9 leaves to the model's caller, and the one free value the spec leaves open. -/

namespace Sys2Proof.Config

/-- `CAP`: buffer capacity in bytes (R8). -/
def cap : Nat := 32768

/-- `MARKER`: the sync marker in stream order (R8, R61). -/
def marker : List Byte := [0x02, 0x01, 0x04, 0x03, 0x06, 0x05, 0x08, 0x07]

/-- `MARKER_LEN` (R8). -/
def markerLen : Nat := 8

/-- `HDR_LEN`: frame header length, marker included (R8). -/
def hdrLen : Nat := 52

/-- `TLV_HDR_LEN`: TLV sub-header length (R8). -/
def tlvHdrLen : Nat := 8

/-- `TYPE_POINT_CLOUD` (R8). -/
def typePointCloud : U32 := 6

/-- `TYPE_TARGET_LIST` (R8). -/
def typeTargetList : U32 := 7

/-- `TYPE_TARGET_INDEX` (R8). -/
def typeTargetIndex : U32 := 8

/-- `POINT_SIZE` (R8). -/
def pointSize : Nat := 16

/-- `TARGET_SIZE` (R8). -/
def targetSize : Nat := 68

/-- `WINDOW`: the occupancy window in frame numbers (R8). -/
def window : Nat := 20

/-- `BAND`: the magnitude pattern of 0.5, the half-width of the central band (R8, R151). -/
def band : Nat := 0x3F000000

/-- `TRIM_KEEP`: bytes kept when no marker is found (R9, D6). -/
def trimKeep : Nat := 7

/-- The value a counter takes when it is incremented past `2^32 - 1`: a free value (R28,
93_implementation_defined.md I2). The argument numbers the draws, so two draws need not agree.
DESIGN CHOICE (log 5), safe: nothing can be proved of the value. -/
opaque counterPastMax (draw : Nat) : U32

/-- The parameters a model takes as arguments (R9): no instruction writes them, and every statement
about a state holds for every value of them. `none` is unbounded. DESIGN CHOICE (log 3): they ride
in the state because the step takes nothing else. -/
structure Params where
  /-- `MAX_IDS`: the largest number of target ids holding samples at once (R9, R152). -/
  maxIds : Option Nat
  /-- `HIST_DEPTH`: the largest number of samples held for one id (R9, R152). -/
  histDepth : Option Nat
  /-- `MAX_CHUNK`: the largest chunk a host may present in one INGEST (R9, D3). -/
  maxChunk : Option Nat
  /-- `ACCEPT_TRAILING`: whether a frame may end with bytes no TLV covers (R9, R138). -/
  acceptTrailing : Bool
deriving DecidableEq, Repr

/-- The defaults of R9: every bound unbounded, trailing bytes not accepted. -/
def defaults : Params :=
  { maxIds := none, histDepth := none, maxChunk := none, acceptTrailing := false }

end Sys2Proof.Config
end

