-- ==== Sys2Proof/Syntax.lean ====
section
/-! DEFINITION. The instructions: one constructor per row of spec/opcode_table.json. The two host
transactions are INGEST and RESET; the other six are the wire formats an INGEST decodes, each an
internal operation of FSYNC (spec/00_scope.md R3, spec/30_encoding.md R74). -/

namespace Sys2Proof

/-- The frame header: the 13 fields of R63, in wire order. -/
structure Header where
  /-- 8 bytes at offset 0; equal to `MARKER` in every header that is decoded (R63, R120). -/
  magic : List Byte
  version : U32
  platform : U32
  timestamp : U32
  /-- `T`, the declared frame length (R17). -/
  totalPacketLength : U32
  frameNumber : U32
  subFrameNumber : U32
  chirpMargin : U32
  frameMargin : U32
  uartSentTime : U32
  trackProcessTime : U32
  numTlvs : U16
  /-- Decoded and passed through without being checked (R64, D15). -/
  checksum : U16
deriving DecidableEq, Repr

/-- One instruction. A TLV instruction is a record's sub-header (R65); its payload lies in the
buffer behind it and is read by the meaning (log 20). -/
inductive Instr where
  /-- SYNC_MARKER: the marker found in the buffer (R61). -/
  | syncMarker
  /-- FRAME_HEADER: a complete header with the marker in bytes 0..7 (R63, R120). -/
  | frameHeader (h : Header)
  /-- TLV_POINT_CLOUD: type 6 (R66, R134). -/
  | tlvPointCloud (length : U32)
  /-- TLV_TARGET_LIST: type 7 (R66, R135). -/
  | tlvTargetList (length : U32)
  /-- TLV_TARGET_INDEX: type 8 (R66, R136). -/
  | tlvTargetIndex (length : U32)
  /-- TLV_UNKNOWN: any type other than 6, 7, 8 (R66, R137). -/
  | tlvUnknown (type length : U32)
  /-- INGEST: op 0 with its chunk (R73, R170). -/
  | ingest (chunk : List Byte)
  /-- RESET: op 1; the chunk field is there and ignored (R73, R176; log 17). -/
  | reset (chunk : List Byte)
deriving DecidableEq, Repr

end Sys2Proof
end

