-- ==== Sys2Proof/WellFormed.lean ====
section
/-! DEFINITION. Which terms of `Instr` are instructions the wire can carry. A TLV length is not
checked here: a length below 8, or one that runs past the frame, is an encoding FSYNC decodes and
answers with an outcome (spec/30_encoding.md R67), so every length is encodable. -/

namespace Sys2Proof

/-- A header is the one R63 describes when its magic is the marker. -/
def Header.wellFormed (h : Header) : Bool := h.magic == Config.marker

/-- The types that have a payload rule of their own (R66). -/
def knownType (type : U32) : Bool :=
  type == Config.typePointCloud || type == Config.typeTargetList || type == Config.typeTargetIndex

/-- A term is an instruction when its words decode to it: a header carries the marker (R63, R120)
and a record of unknown type has none of the types 6, 7, 8 (R66, R137). -/
def Instr.wellFormed : Instr → Bool
  | .syncMarker => true
  | .frameHeader h => h.wellFormed
  | .tlvPointCloud _ => true
  | .tlvTargetList _ => true
  | .tlvTargetIndex _ => true
  | .tlvUnknown type _ => !knownType type
  | .ingest _ => true
  | .reset _ => true

end Sys2Proof
end

