-- ==== Sys2Proof/Decode.lean ====
section
/-! DEFINITION. The decoder of the wire formats and of the host transaction, total on any bytes and
rejecting by name, and after it the encoder, both from the layouts of spec/30_encoding.md R61, R63,
R65, R66, R69, R70, R71, R73. -/

namespace Sys2Proof

/-! ## Byte order -/

/-- The little-endian value of a byte sequence, its first byte the least significant
(20_memory.md R44; the value `MemRead` of R12 gives on these bytes). -/
def leNat : List Byte → Nat
  | [] => 0
  | b :: bs => b.toNat + 256 * leNat bs

/-- The `n` bytes of `v`, least significant first (R44; `U16`, `U32`, `F32` of R85). -/
def leBytes : Nat → Nat → List Byte
  | 0, _ => []
  | n + 1, v => BitVec.ofNat 8 v :: leBytes n (v / 256)

/-- The `n` bytes at offset `o` of a byte sequence. -/
def slice (bs : List Byte) (o n : Nat) : List Byte := (bs.drop o).take n

/-- The little-endian u32 at offset `o` of a byte sequence (R44, R64). -/
def leU32 (bs : List Byte) (o : Nat) : U32 := BitVec.ofNat 32 (leNat (slice bs o 4))

/-- The little-endian u16 at offset `o` of a byte sequence (R44, R64). -/
def leU16 (bs : List Byte) (o : Nat) : U16 := BitVec.ofNat 16 (leNat (slice bs o 2))

/-! ## Decoder -/

/-- The four formats an instruction's bytes can be in. The place in the INGEST sequence selects the
format (R73, R104, R120, R130): the bytes alone do not, as the marker opens both a SYNC_MARKER and a
FRAME_HEADER (log 6). -/
inductive Format where
  /-- The 8-byte sync marker (R61). -/
  | marker
  /-- The 52-byte frame header (R63). -/
  | header
  /-- A TLV record, of which the 8-byte sub-header is the instruction (R65). -/
  | record
  /-- A host transaction (R73). -/
  | host
deriving DecidableEq, Repr

/-- Why bytes are no instruction of a format. -/
inductive DecodeError where
  /-- Fewer bytes than the format has (R60). -/
  | short (needed got : Nat)
  /-- The first 8 bytes are not the marker (R61). -/
  | notMarker
deriving DecidableEq, Repr

/-- The payload rule a TLV type selects (R66). -/
inductive TlvKind where
  | pointCloud
  | targetList
  | targetIndex
  | unknown
deriving DecidableEq, Repr

/-- Type dispatch: all 32 bits of `type` are compared (R66). -/
def tlvKind (type : U32) : TlvKind :=
  if type = Config.typePointCloud then .pointCloud
  else if type = Config.typeTargetList then .targetList
  else if type = Config.typeTargetIndex then .targetIndex
  else .unknown

/-- The instruction a record's sub-header stands for (R65, R66). -/
def recordInstr (type length : U32) : Instr :=
  match tlvKind type with
  | .pointCloud => .tlvPointCloud length
  | .targetList => .tlvTargetList length
  | .targetIndex => .tlvTargetIndex length
  | .unknown => .tlvUnknown type length

/-- The 13 header fields at their offsets in the header's bytes (R63, R64). -/
def headerOfBytes (bs : List Byte) : Header :=
  { magic := slice bs 0 8
    version := leU32 bs 8
    platform := leU32 bs 12
    timestamp := leU32 bs 16
    totalPacketLength := leU32 bs 20
    frameNumber := leU32 bs 24
    subFrameNumber := leU32 bs 28
    chirpMargin := leU32 bs 32
    frameMargin := leU32 bs 36
    uartSentTime := leU32 bs 40
    trackProcessTime := leU32 bs 44
    numTlvs := leU16 bs 48
    checksum := leU16 bs 50 }

/-- The bytes at the head of the sequence are the marker (R61). -/
def isMarker (bs : List Byte) : Bool := slice bs 0 8 == Config.marker

/-- A marker in the first 8 bytes (R61). -/
def decodeMarker (bs : List Byte) : Except DecodeError Instr :=
  if bs.length < Config.markerLen then .error (.short Config.markerLen bs.length)
  else if isMarker bs then .ok .syncMarker
  else .error .notMarker

/-- A header in the first 52 bytes (R63, R120). -/
def decodeHeader (bs : List Byte) : Except DecodeError Instr :=
  if bs.length < Config.hdrLen then .error (.short Config.hdrLen bs.length)
  else if isMarker bs then .ok (.frameHeader (headerOfBytes bs))
  else .error .notMarker

/-- A record's sub-header in the first 8 bytes: no type and no length is refused (R65, R67). -/
def decodeRecord (bs : List Byte) : Except DecodeError Instr :=
  if bs.length < Config.tlvHdrLen then .error (.short Config.tlvHdrLen bs.length)
  else .ok (recordInstr (leU32 bs 0) (leU32 bs 4))

/-- One transaction at the host interface: a 1-bit op and a chunk (R73). -/
structure Transaction where
  op : BitVec 1
  chunk : List Byte
deriving DecidableEq, Repr

/-- The instruction a transaction is: op 0 INGEST, op 1 RESET (R73). -/
def decodeTransaction (t : Transaction) : Instr :=
  if t.op = 0 then .ingest t.chunk else .reset t.chunk

/-- A transaction written as bytes: the op is bit 0 of the first byte, the chunk follows. The op
field is 1 bit wide, so the byte's other bits are no part of it. DESIGN CHOICE (log 7). -/
def transactionOfBytes (b : Byte) (chunk : List Byte) : Transaction :=
  { op := b.extractLsb' 0 1, chunk := chunk }

/-- A host transaction written as bytes (R73; log 7). -/
def decodeHost : List Byte → Except DecodeError Instr
  | [] => .error (.short 1 0)
  | b :: chunk => .ok (decodeTransaction (transactionOfBytes b chunk))

/-- The decoder: the instruction the bytes hold when they are read in a format. -/
def decode : Format → List Byte → Except DecodeError Instr
  | .marker, bs => decodeMarker bs
  | .header, bs => decodeHeader bs
  | .record, bs => decodeRecord bs
  | .host, bs => decodeHost bs

/-! ## Encoder -/

/-- The format an instruction is written in. -/
def Instr.format : Instr → Format
  | .syncMarker => .marker
  | .frameHeader _ => .header
  | .tlvPointCloud _ => .record
  | .tlvTargetList _ => .record
  | .tlvTargetIndex _ => .record
  | .tlvUnknown _ _ => .record
  | .ingest _ => .host
  | .reset _ => .host

/-- A u32 in the stream (R85 `U32(v)`, R44). -/
def u32Bytes (v : U32) : List Byte := leBytes 4 v.toNat

/-- A u16 in the stream (R85 `U16(v)`, R44). -/
def u16Bytes (v : U16) : List Byte := leBytes 2 v.toNat

/-- The header's fields in the order of R63. -/
def encodeHeader (h : Header) : List Byte :=
  h.magic ++ u32Bytes h.version ++ u32Bytes h.platform ++ u32Bytes h.timestamp ++
  u32Bytes h.totalPacketLength ++ u32Bytes h.frameNumber ++ u32Bytes h.subFrameNumber ++
  u32Bytes h.chirpMargin ++ u32Bytes h.frameMargin ++ u32Bytes h.uartSentTime ++
  u32Bytes h.trackProcessTime ++ u16Bytes h.numTlvs ++ u16Bytes h.checksum

/-- A record's sub-header (R65). -/
def encodeSubHeader (type length : U32) : List Byte := u32Bytes type ++ u32Bytes length

/-- A transaction as bytes, the op in bit 0 of the first byte (R73; log 7). -/
def Transaction.bytes (t : Transaction) : List Byte := t.op.setWidth 8 :: t.chunk

/-- The bytes of an instruction in its format. -/
def encode : Instr → List Byte
  | .syncMarker => Config.marker
  | .frameHeader h => encodeHeader h
  | .tlvPointCloud length => encodeSubHeader Config.typePointCloud length
  | .tlvTargetList length => encodeSubHeader Config.typeTargetList length
  | .tlvTargetIndex length => encodeSubHeader Config.typeTargetIndex length
  | .tlvUnknown type length => encodeSubHeader type length
  | .ingest chunk => Transaction.bytes { op := 0, chunk := chunk }
  | .reset chunk => Transaction.bytes { op := 1, chunk := chunk }

/-! ## The opcode table's words -/

/-- Exactly `n` bytes: the sequence cut to `n`, or filled up with zero bytes. -/
def padTo (n : Nat) (bs : List Byte) : List Byte := (bs ++ List.replicate n 0).take n

/-- The bytes of a table word and the format they are read in, every bit above `nbits` 0. A word of 1
to 8 bits is a host transaction (rows INGEST, RESET: one op bit and no chunk). Any other word is
bytes of the stream: a sub-header, but for a word that opens with the marker, which is a SYNC_MARKER
when it has 64 bits and a FRAME_HEADER when it has more. DESIGN CHOICE (log 6). -/
def tableBytes (nbits w : Nat) : Format × List Byte :=
  let n := (nbits + 7) / 8
  let bs := leBytes n (w % 2 ^ nbits)
  if n = 1 then (.host, bs)
  else if isMarker bs then
    if n = Config.markerLen then (.marker, bs) else (.header, padTo (max Config.hdrLen n) bs)
  else (.record, padTo (max Config.tlvHdrLen n) bs)

/-- The instruction the decoder reads from a table word (spec/opcode_table.json). -/
def decodeTableWord (nbits w : Nat) : Option Instr :=
  match decode (tableBytes nbits w).1 (tableBytes nbits w).2 with
  | .ok i => some i
  | .error _ => none

end Sys2Proof
end

