-- ==== Sys2Proof/Machine/State.lean ====
section
/-! DEFINITION. FSYNC's state (spec/10_state.md), the outcome record (spec/30_encoding.md R80, R81,
R82), the reasons a step can stop, and the state right after reset (R32). -/

namespace Sys2Proof.Machine

/-! ## The frame buffer -/

/-- The buffer's bytes, as the list of the bytes that differ from what an unlisted index reads as,
by strictly rising index (R20, R40; log 15). -/
abbrev Memory := List Host.Cell

/-- What an index nothing has written reads as: the reset contents of every byte (R32, R23). -/
def unlistedByte : Byte := 0

/-- The canonical form: indices strictly rising and within the buffer, no entry equal to what an
unlisted index reads as (R20, R40). -/
abbrev Memory.wf (m : Memory) : Prop :=
  m.Pairwise (fun a b => a.1 < b.1) ∧ ∀ c ∈ m, c.2 ≠ unlistedByte ∧ c.1 < Config.cap

/-- The FrameBuffer (R2): its bytes `buf` and its logical length `len`. -/
structure FrameBuffer where
  /-- `buf` (R20). -/
  cells : Memory
  /-- `len`, a natural number with `0 ≤ len ≤ CAP` (R21, R22). -/
  len : Nat
deriving DecidableEq, Repr

/-! ## The occupancy tracker -/

/-- `hist`: the target ids that hold samples, strictly rising, each with its samples, oldest first;
an id that is not listed has none (R25, R26; log 14). -/
abbrev Hist := List (U32 × List F32)

/-- The canonical form of `hist`: ids strictly rising, no id listed without samples (R25). -/
abbrev Hist.wf (h : Hist) : Prop :=
  h.Pairwise (fun a b => a.1 < b.1) ∧ ∀ e ∈ h, e.2 ≠ []

/-- The OccupancyTracker (R2, R25–R29). -/
structure Tracker where
  /-- `hist` (R25). -/
  hist : Hist
  /-- `entered`, a 32-bit counter (R28). -/
  entered : U32
  /-- `exited`, a 32-bit counter (R28). -/
  exited : U32
  /-- `trackFault`, 1 bit, sticky (R29). -/
  trackFault : Bool
  /-- The model's own field: how many free values have been drawn (log 5). -/
  freeCount : Nat
deriving DecidableEq, Repr

/-! ## Decoded records and the outcome record -/

/-- A point record (R69; log 19). -/
structure Point where
  range : F32
  azimuth : F32
  doppler : F32
  snr : F32
deriving DecidableEq, Repr

/-- The 3x3 error covariance matrix, row-major: `e12` is row 1, column 2 (R70;
log 19). -/
structure Covariance where
  e00 : F32
  e01 : F32
  e02 : F32
  e10 : F32
  e11 : F32
  e12 : F32
  e20 : F32
  e21 : F32
  e22 : F32
deriving DecidableEq, Repr

/-- A target record (R70). -/
structure Target where
  id : U32
  posX : F32
  posY : F32
  velX : F32
  velY : F32
  accX : F32
  accY : F32
  ec : Covariance
  gain : F32
deriving DecidableEq, Repr

/-- The frame an outcome of kind Frame carries (R82). An absent slot is `none`; a present list may
be empty. -/
structure FrameRecord where
  header : Header
  points : Option (List Point)
  targets : Option (List Target)
  indices : Option (List Byte)
  pcMalformed : Bool
  tlMalformed : Bool
  unknownTlvs : U16
deriving DecidableEq, Repr

/-- The reasons of kind NoData (R81). -/
inductive NoDataReason where
  /-- No valid sync offset in the buffer (R105). -/
  | noSync
  /-- Marker at 0 but `len < 52` (R122). -/
  | incompleteHeader
  /-- Header complete but `len < T` (R107). -/
  | incompleteFrame
  /-- The outcome of a RESET (R176). -/
  | resetDone
deriving DecidableEq, Repr

/-- The reasons of kind Truncated (R81). -/
inductive TruncReason where
  /-- Fewer than 8 bytes between `cur` and `T` (R131). -/
  | subheader
  /-- A record's length runs past `T` (R133). -/
  | payload
  /-- A record's `length < 8` (R132). -/
  | badTlvLength
  /-- `T < 52` or `T > CAP` (R121). -/
  | badTotalLength
  /-- After `numTlvs` records, `cur ≠ T` (R138). -/
  | lengthMismatch
deriving DecidableEq, Repr

/-- Kind and reason of an outcome, with the frame exactly when the kind is Frame (R80, R81, R82). -/
inductive Result where
  | noData (reason : NoDataReason)
  | frame (f : FrameRecord)
  | truncated (reason : TruncReason)
deriving DecidableEq, Repr

/-- The status view (R30, R82): the values at the end of the transaction. -/
structure Status where
  /-- `LEN` (16 bits; log 16). -/
  len : BitVec 16
  /-- `ENTERED`. -/
  entered : U32
  /-- `EXITED`. -/
  exited : U32
  /-- `TRACK_FAULT`. -/
  trackFault : Bool
deriving DecidableEq, Repr

/-- The outcome record every transaction returns (R82). -/
structure OutcomeRecord where
  result : Result
  /-- The chunk of this INGEST was dropped (R101). -/
  overflow : Bool
  status : Status
deriving DecidableEq, Repr

/-! ## A transaction in progress -/

/-- The transient values of a frame decode (R27, R31, R130). -/
structure FrameDecode where
  /-- The decoded header; its `totalPacketLength` is `T` (R120, R17). -/
  hdr : Header
  /-- `cur`, the read cursor (R27). -/
  cur : Nat
  /-- How many of the `numTlvs` iterations are still to run (R130). -/
  left : Nat
  points : Option (List Point)
  targets : Option (List Target)
  indices : Option (List Byte)
  pcMalformed : Bool
  tlMalformed : Bool
  unknownTlvs : U16
deriving DecidableEq, Repr

/-- How far the INGEST sequence of R171 has come. -/
inductive Stage where
  /-- Step 2 is next: the sync search. -/
  | seek
  /-- Step 3 is next: the marker is at index 0. -/
  | header
  /-- Step 4 runs: the record loop. -/
  | records (d : FrameDecode)
deriving DecidableEq, Repr

/-- The transient values of an INGEST between two of its internal operations (R31; log 2). -/
structure Txn where
  /-- The overflow flag step 1 set or cleared (R100, R207). -/
  overflow : Bool
  stage : Stage
deriving DecidableEq, Repr

/-! ## The state -/

/-- The state: the spec's record `S` (`fb` and `tracker`), the transient values while an INGEST is in
progress (`txn`, absent between transactions), and the machine's ports and parameters. -/
structure State where
  /-- `buf` and `len` (R20, R21). -/
  fb : FrameBuffer
  /-- `hist`, `entered`, `exited`, `trackFault` (R25, R28, R29). -/
  tracker : Tracker
  /-- The INGEST in progress; absent between transactions (R31, R49; log 2). -/
  txn : Option Txn
  /-- The parameters of R9, which no instruction writes (log 3). -/
  params : Config.Params
  /-- The transactions the host issues, in order (R51, R73; log 1). -/
  pending : List Transaction
  /-- The outcome record of the last transaction (R82; log 4). -/
  outcome : Option OutcomeRecord
deriving DecidableEq, Repr

/-- Why a step stops with a fault. FSYNC itself has no trap (R200): every irregularity the spec names
is an outcome record, not one of these. -/
inductive Fault where
  /-- Raised by the internal operations and by INGEST when they would access an index that the buffer
  does not have (R40, R50), which takes `len > CAP` or a frame end past `CAP` (R21, R27: never in a
  state of the spec). Safe: the machine stops where the spec has no state at all (log 8). -/
  | outsideBuffer
deriving DecidableEq, Repr

/-- Why an instruction is refused. -/
inductive Refusal where
  /-- The instruction of this mnemonic has no meaning yet. Raised by `exec` only. Safe. -/
  | notModelled (mnemonic : String)
  /-- A transaction issued while another is in progress: raised by INGEST and RESET; the spec's
  treatment is "refuse" (R240, 93_implementation_defined.md I8; log 9). Safe. -/
  | overlappingTransaction
  /-- An internal operation where no INGEST has reached it: raised by the six wire-format
  instructions; the host cannot issue them and they run only inside INGEST (R74; log 9). Safe. -/
  | notInStage
  /-- A header fetch without the marker at index 0: raised by the fetch, in states no run reaches
  (R106, R120; log 21). Safe. -/
  | noMarkerAtZero
deriving DecidableEq, Repr

/-- The reset values of the spec's record `S` (R32), with the model's own free-value counter at 0
(DESIGN CHOICE, log 5). -/
def Tracker.reset : Tracker :=
  { hist := [], entered := 0, exited := 0, trackFault := false, freeCount := 0 }

/-- The machine right after reset, before its first transaction (R32, R230): `S` at its reset values,
no transaction in progress, the parameters at R9's defaults (log 3), no transaction pending (DESIGN
CHOICE, log 1) and no outcome returned (DESIGN CHOICE, log 4). -/
def State.reset : State :=
  { fb := { cells := [], len := 0 }
    tracker := Tracker.reset
    txn := none
    params := Config.defaults
    pending := []
    outcome := none }

end Sys2Proof.Machine
end

