-- ==== Sys2Proof/Machine/Ops.lean ====
section
/-! DEFINITION. The shared operations: the buffer primitives of spec/00_scope.md R12, the FrameBuffer
operations of spec/40_framebuffer.md, the end of a transaction (`out` of spec/44_ingest.md R171), and
recovery, which is what FSYNC has in place of taking an exception (spec/60_exceptions.md R206). -/

namespace Sys2Proof.Machine

/-! ## Buffer primitives -/

/-- `buf[i]` (R12). -/
def Memory.read : Memory → Nat → Byte
  | [], _ => unlistedByte
  | (a, b) :: m, i => if a = i then b else Memory.read m i

/-- `MemReadBytes(a, n)` (R12). -/
def Memory.readBytes (m : Memory) (a n : Nat) : List Byte :=
  (List.range n).map fun k => m.read (a + k)

/-- `MemRead(a, n)`, little-endian (R12, R44). -/
def Memory.memRead (m : Memory) (a n : Nat) : Nat := leNat (m.readBytes a n)

/-- The u32 or f32 pattern at index `a` (R44, R45); the index needs no alignment (R47). -/
def Memory.u32At (m : Memory) (a : Nat) : U32 := BitVec.ofNat 32 (m.memRead a 4)

/-- The entries that hold `bs` at the indices from `a` up: one for each byte an unlisted index does
not read as. -/
def Memory.cellsOf : Nat → List Byte → Memory
  | _, [] => []
  | a, b :: bs =>
    if b = unlistedByte then Memory.cellsOf (a + 1) bs else (a, b) :: Memory.cellsOf (a + 1) bs

/-- `buf[a + k] <- bs[k]` for every byte of `bs` (R41). -/
def Memory.writeBytes (m : Memory) (a : Nat) (bs : List Byte) : Memory :=
  m.filter (fun c => c.1 < a) ++ Memory.cellsOf a bs ++ m.filter (fun c => a + bs.length ≤ c.1)

/-- `buf[a] <- v` (R12): a write of one byte. -/
def Memory.write (m : Memory) (a : Nat) (v : Byte) : Memory := m.writeBytes a [v]

/-- Where a byte of a buffer of length `len` lies after the first `k` bytes are dropped: indices
below `k` are gone, indices below `len` move down by `k`, indices from `len` up stay (R42). -/
def Memory.compactCell (k len : Nat) (c : Host.Cell) : Option Host.Cell :=
  if c.1 < len then (if c.1 < k then none else some (c.1 - k, c.2)) else some c

/-- The moves and the zero fill of R42: `buf[i] <- old[i + k]` below `len - k`, 0 from there up to
`len`. -/
def Memory.compact (m : Memory) (k len : Nat) : Memory := m.filterMap (Memory.compactCell k len)

/-! ## FrameBuffer -/

/-- `len + |c| > CAP`: the test of R100 and R101. -/
def FrameBuffer.overflows (fb : FrameBuffer) (c : List Byte) : Bool :=
  decide (Config.cap < fb.len + c.length)

/-- `append(c)`: a chunk that does not fit is dropped whole, another goes in after the bytes held
(R100, R101). The overflow flag is `overflows`. -/
def FrameBuffer.append (fb : FrameBuffer) (c : List Byte) : FrameBuffer :=
  if fb.overflows c then fb
  else { cells := fb.cells.writeBytes fb.len c, len := fb.len + c.length }

/-- `discardBefore(k)` (R103). -/
def FrameBuffer.discardBefore (fb : FrameBuffer) (k : Nat) : FrameBuffer :=
  { cells := fb.cells.compact k fb.len, len := fb.len - k }

/-- `p` is a valid sync offset: the first-byte prefilter, then all 8 bytes, within `len` (R61,
R104). -/
def FrameBuffer.syncAt (fb : FrameBuffer) (p : Nat) : Bool :=
  decide (p + Config.markerLen ≤ fb.len) && (fb.cells.read p == 0x02 &&
    fb.cells.readBytes p Config.markerLen == Config.marker)

/-- `findSync()`: the valid sync offsets in ascending order (R104). -/
def FrameBuffer.findSync (fb : FrameBuffer) : List Nat :=
  (List.range fb.len).filter fb.syncAt

/-- The true sync offset `min V`, absent when `V = ∅` (R17, R106). -/
def FrameBuffer.trueSync (fb : FrameBuffer) : Option Nat := fb.findSync.head?

/-- The no-sync trim: the last 7 bytes stay (R105). -/
def FrameBuffer.trim (fb : FrameBuffer) : FrameBuffer :=
  if Config.trimKeep < fb.len then fb.discardBefore (fb.len - Config.trimKeep) else fb

/-- `readyForDecode(T)` (R107). -/
def FrameBuffer.readyForDecode (fb : FrameBuffer) (T : Nat) : Bool :=
  decide (T ≤ fb.len) && decide (0 < T)

/-- `consume(n)` (R108). -/
def FrameBuffer.consume (fb : FrameBuffer) (n : Nat) : FrameBuffer := fb.discardBefore n

/-- `recover()`: everything buffered is dropped (R206). -/
def FrameBuffer.recover (fb : FrameBuffer) : FrameBuffer := fb.discardBefore fb.len

/-! ## The end of a transaction -/

/-- The status view of a state (R30, R82). -/
def State.status (s : State) : Status :=
  { len := BitVec.ofNat 16 s.fb.len
    entered := s.tracker.entered
    exited := s.tracker.exited
    trackFault := s.tracker.trackFault }

/-- `out(kind, reason, frame?)`: the transaction ends and returns its record, with the status read
after every write (R171). -/
def State.finish (overflow : Bool) (r : Result) (s : State) : State :=
  { s with
    txn := none
    outcome := some { result := r, overflow := overflow, status := s.status } }

/-- `raise NoData(reason)` (R13). -/
def State.noData (overflow : Bool) (r : NoDataReason) (s : State) : State :=
  s.finish overflow (.noData r)

/-- `raise Truncated(reason)`: recovery, then the outcome (R13, R206). This is the one operation that
takes an error; nothing is saved, there is no mode to change and no return (R206, R212). -/
def State.truncate (overflow : Bool) (r : TruncReason) (s : State) : State :=
  State.finish overflow (.truncated r) { s with fb := s.fb.recover }

/-- An operation on a buffer whose length is past its capacity would access indices it does not have
(R21, R40): a fault (log 8). -/
def State.inBuffer (s : State) (k : Host.Outcome State Fault Refusal) :
    Host.Outcome State Fault Refusal :=
  if Config.cap < s.fb.len then .fault .outsideBuffer else k

end Sys2Proof.Machine
end

