-- ==== Sys2Proof/Machine/Flags.lean ====
section
/-! DEFINITION. The flags and predicates FSYNC computes: the malformed test (spec/42_tlv.md R139), the
band test, the sign and the crossing of spec/43_occupancy.md R151, R153, R154, and the outcome codes of
spec/30_encoding.md R80, R81. -/

namespace Sys2Proof.Machine

/-- A payload of `m` bytes is not a whole number of elements of `size` bytes (R139). -/
def malformed (m size : Nat) : Bool := m % size != 0

/-- The magnitude bits `x & 0x7FFFFFFF` of a pattern (R14, R151). -/
def magnitude (x : F32) : F32 := x &&& 0x7FFFFFFF

/-- The band test: `|x| ≤ 0.5` on the pattern, both ends included, NaN and infinities out (R151). -/
def inBand (x : F32) : Bool := decide ((magnitude x).toNat ≤ Config.band)

/-- The sign of a banded sample (R153). -/
inductive Sign where
  | neg
  | zero
  | pos
deriving DecidableEq, Repr

/-- `sgn(x)`: by the sign bit, and no sign for either zero (R153). -/
def sgn (x : F32) : Sign :=
  if magnitude x = 0 then .zero else if x.getLsbD 31 then .neg else .pos

/-- What a crossing detection returns (R154). -/
inductive Crossing where
  | negToPos
  | posToNeg
  | none
deriving DecidableEq, Repr

/-- The classification of one consecutive pair: a pair with a ZERO member is never a crossing
(R154). -/
def pairCrossing (a b : F32) : Crossing :=
  match sgn a, sgn b with
  | .neg, .pos => .negToPos
  | .pos, .neg => .posToNeg
  | _, _ => .none

/-- `firstCrossing(h)`: the first consecutive pair with opposite signs decides (R154). -/
def firstCrossing : List F32 → Crossing
  | [] => .none
  | [_] => .none
  | a :: b :: rest =>
    match pairCrossing a b with
    | .negToPos => .negToPos
    | .posToNeg => .posToNeg
    | .none => firstCrossing (b :: rest)

/-- A decoded frame is a window boundary iff its frame number is a multiple of 20 (R157). -/
def isBoundary (frameNumber : U32) : Bool := frameNumber.toNat % Config.window == 0

/-- The 2-bit kind code of an outcome (R80). -/
def Result.kindCode : Result → BitVec 2
  | .noData _ => 0
  | .frame _ => 1
  | .truncated _ => 2

/-- The 3-bit reason code of an outcome (R81). -/
def Result.reasonCode : Result → BitVec 3
  | .noData .noSync => 0
  | .noData .incompleteHeader => 1
  | .noData .incompleteFrame => 2
  | .noData .resetDone => 3
  | .frame _ => 0
  | .truncated .subheader => 0
  | .truncated .payload => 1
  | .truncated .badTlvLength => 2
  | .truncated .badTotalLength => 3
  | .truncated .lengthMismatch => 4

end Sys2Proof.Machine
end

