-- ==== Sys2Proof/Machine/Operands.lean ====
section
/-! DEFINITION. The operand forms: what a header and each kind of payload hold, read from the buffer
(spec/30_encoding.md R63, R69, R70, R71; spec/41_header.md R120; spec/42_tlv.md R134, R135, R136), and
how a stream holds them (the layouts read the other way, for R85). -/

namespace Sys2Proof.Machine

/-- The header of the frame at index 0 (R64, R120). -/
def Memory.headerAt (m : Memory) : Header := headerOfBytes (m.readBytes 0 Config.hdrLen)

/-- The point record at index `a` (R69). -/
def Memory.pointAt (m : Memory) (a : Nat) : Point :=
  { range := m.u32At a
    azimuth := m.u32At (a + 4)
    doppler := m.u32At (a + 8)
    snr := m.u32At (a + 12) }

/-- The `n` points from index `a`, one record of 16 bytes after another (R69, R134). -/
def Memory.pointsAt (m : Memory) (a n : Nat) : List Point :=
  (List.range n).map fun i => m.pointAt (a + Config.pointSize * i)

/-- The covariance matrix at index `a`, `ec[r][c]` at `a + 4·(3r + c)` (R70). -/
def Memory.covarianceAt (m : Memory) (a : Nat) : Covariance :=
  { e00 := m.u32At a
    e01 := m.u32At (a + 4)
    e02 := m.u32At (a + 8)
    e10 := m.u32At (a + 12)
    e11 := m.u32At (a + 16)
    e12 := m.u32At (a + 20)
    e20 := m.u32At (a + 24)
    e21 := m.u32At (a + 28)
    e22 := m.u32At (a + 32) }

/-- The target record at index `b`: `tgt(b)` of R135 (R70). -/
def Memory.targetAt (m : Memory) (b : Nat) : Target :=
  { id := m.u32At b
    posX := m.u32At (b + 4)
    posY := m.u32At (b + 8)
    velX := m.u32At (b + 12)
    velY := m.u32At (b + 16)
    accX := m.u32At (b + 20)
    accY := m.u32At (b + 24)
    ec := m.covarianceAt (b + 28)
    gain := m.u32At (b + 64) }

/-- The `n` targets from index `a`, one record of 68 bytes after another (R70, R135). -/
def Memory.targetsAt (m : Memory) (a n : Nat) : List Target :=
  (List.range n).map fun j => m.targetAt (a + Config.targetSize * j)

/-- The `n` target-index bytes from index `a` (R71, R136). -/
def Memory.indicesAt (m : Memory) (a n : Nat) : List Byte := m.readBytes a n

/-- A point record in the stream (R69, R85 `PC`). -/
def Point.bytes (p : Point) : List Byte :=
  u32Bytes p.range ++ u32Bytes p.azimuth ++ u32Bytes p.doppler ++ u32Bytes p.snr

/-- A covariance matrix in the stream, row-major (R70). -/
def Covariance.bytes (e : Covariance) : List Byte :=
  u32Bytes e.e00 ++ u32Bytes e.e01 ++ u32Bytes e.e02 ++
  u32Bytes e.e10 ++ u32Bytes e.e11 ++ u32Bytes e.e12 ++
  u32Bytes e.e20 ++ u32Bytes e.e21 ++ u32Bytes e.e22

/-- A target record in the stream (R70, R85 `TL`). -/
def Target.bytes (t : Target) : List Byte :=
  u32Bytes t.id ++ u32Bytes t.posX ++ u32Bytes t.posY ++ u32Bytes t.velX ++ u32Bytes t.velY ++
  u32Bytes t.accX ++ u32Bytes t.accY ++ t.ec.bytes ++ u32Bytes t.gain

end Sys2Proof.Machine
end

