-- ==== Sys2Proof/Machine/Tracker.lean ====
section
/-! DEFINITION. The OccupancyTracker (spec/43_occupancy.md). -/

namespace Sys2Proof.Machine

/-! ## The history store -/

/-- `hist[id]`; an id that is not listed reads as `[]` (R25). -/
def Hist.get : Hist → U32 → List F32
  | [], _ => []
  | (k, xs) :: h, id => if k = id then xs else Hist.get h id

/-- `hist[id] <- hist[id] ++ [x]`, ids kept in rising order (R152). -/
def Hist.push : Hist → U32 → F32 → Hist
  | [], id, x => [(id, [x])]
  | (k, xs) :: h, id, x =>
    if id < k then (id, [x]) :: (k, xs) :: h
    else if id = k then (k, xs ++ [x]) :: h
    else (k, xs) :: Hist.push h id x

/-- `hist[id] <- []` (R155). -/
def Hist.clear (h : Hist) (id : U32) : Hist := h.filter fun e => e.1 ≠ id

/-- The ids with samples, ascending (R156). -/
def Hist.ids (h : Hist) : List U32 := h.map Prod.fst

/-- `|{ id | hist[id] ≠ [] }|` (R152): the canonical form lists exactly the ids with samples (log 14). -/
def Hist.idCount (h : Hist) : Nat := h.length

/-! ## Sampling -/

/-- The sample would take a new id past `MAX_IDS` or its history past `HIST_DEPTH` (R152). -/
def Tracker.full (p : Config.Params) (tr : Tracker) (id : U32) : Bool :=
  (tr.hist.get id == [] && p.maxIds == some tr.hist.idCount) ||
    p.histDepth == some (tr.hist.get id).length

/-- `sample(t)`: a banded `posX` is appended to its target's history; where the store is full the
sample is dropped and `trackFault` is set (R152). -/
def Tracker.sample (p : Config.Params) (tr : Tracker) (t : Target) : Tracker :=
  if inBand t.posX then
    if tr.full p t.id then { tr with trackFault := true }
    else { tr with hist := tr.hist.push t.id t.posX }
  else tr

/-! ## Evaluation -/

/-- `counter + 1`, and a free value past `2^32 - 1` (R28, 93_implementation_defined.md I2; log 5). -/
def bump (c : U32) (draw : Nat) : U32 :=
  if c = BitVec.allOnes 32 then Config.counterPastMax draw else c + 1

/-- How many free values an increment of `c` draws (log 5). -/
def bumpDraws (c : U32) : Nat := if c = BitVec.allOnes 32 then 1 else 0

/-- `evaluate(id)`: count the first crossing of the id's history, then clear it (R155). -/
def Tracker.evaluate (tr : Tracker) (id : U32) : Tracker :=
  match firstCrossing (tr.hist.get id) with
  | .negToPos =>
    { tr with
      hist := tr.hist.clear id
      entered := bump tr.entered tr.freeCount
      freeCount := tr.freeCount + bumpDraws tr.entered }
  | .posToNeg =>
    { tr with
      hist := tr.hist.clear id
      exited := bump tr.exited tr.freeCount
      freeCount := tr.freeCount + bumpDraws tr.exited }
  | .none => { tr with hist := tr.hist.clear id }

/-- Every id with samples is evaluated, in ascending order (R156). -/
def Tracker.evaluateAll (tr : Tracker) : Tracker := tr.hist.ids.foldl Tracker.evaluate tr

/-- Every target of the list is sampled, in record order (R158). -/
def Tracker.sampleAll (p : Config.Params) (tr : Tracker) (tl : List Target) : Tracker :=
  tl.foldl (Tracker.sample p) tr

/-- `trackerCommit(fn, tl)`: the samples first, then the evaluation if the frame is a boundary
(R158). -/
def Tracker.commit (p : Config.Params) (tr : Tracker) (fn : U32) (tl : List Target) : Tracker :=
  if isBoundary fn then (tr.sampleAll p tl).evaluateAll else tr.sampleAll p tl

end Sys2Proof.Machine
end

