-- ==== Sys2Proof/Machine/Records.lean ====
section
/-! DEFINITION. The TLV family: TLV_POINT_CLOUD, TLV_TARGET_LIST, TLV_TARGET_INDEX, TLV_UNKNOWN and the
record loop they make up (spec/42_tlv.md). -/

namespace Sys2Proof.Machine

/-! ## Decoding one record -/

/-- `T`, the frame end, as a natural number (R17, R121). -/
def FrameDecode.frameEnd (d : FrameDecode) : Nat := d.hdr.totalPacketLength.toNat

/-- The start of the record loop: cursor at 52, slots absent, flags and count 0 (R130). -/
def FrameDecode.start (h : Header) : FrameDecode :=
  { hdr := h
    cur := Config.hdrLen
    left := h.numTlvs.toNat
    points := none
    targets := none
    indices := none
    pcMalformed := false
    tlMalformed := false
    unknownTlvs := 0 }

/-- `decodePointCloud(P, m)`: the slot is replaced, or left as it was with the flag set (R134, R139,
R140). -/
def decodePointCloud (mem : Memory) (P m : Nat) (d : FrameDecode) : FrameDecode :=
  if malformed m Config.pointSize then { d with pcMalformed := true }
  else { d with points := some (mem.pointsAt P (m / Config.pointSize)) }

/-- `decodeTargetList(P, m)` (R135, R139, R140). -/
def decodeTargetList (mem : Memory) (P m : Nat) (d : FrameDecode) : FrameDecode :=
  if malformed m Config.targetSize then { d with tlMalformed := true }
  else { d with targets := some (mem.targetsAt P (m / Config.targetSize)) }

/-- `decodeTargetIndex(P, m)` (R136, R140). -/
def decodeTargetIndex (mem : Memory) (P m : Nat) (d : FrameDecode) : FrameDecode :=
  { d with indices := some (mem.indicesAt P m) }

/-- An unknown type is counted and its payload is not read (R137). -/
def skipUnknown (d : FrameDecode) : FrameDecode := { d with unknownTlvs := d.unknownTlvs + 1 }

/-- One iteration of the record loop on a record of length `L`: the checks of R131, R132, R133 in this
order, the record's own effect from its payload start and payload length, and the cursor past the
record, malformed or not (R130). -/
def FrameDecode.record (d : FrameDecode) (L : U32) (effect : Nat → Nat → FrameDecode → FrameDecode) :
    Except TruncReason FrameDecode :=
  if d.frameEnd < d.cur + Config.tlvHdrLen then .error .subheader
  else if L.toNat < Config.tlvHdrLen then .error .badTlvLength
  else if d.frameEnd < d.cur + L.toNat then .error .payload
  else .ok { effect (d.cur + Config.tlvHdrLen) (L.toNat - Config.tlvHdrLen) d with
    cur := d.cur + L.toNat
    left := d.left - 1 }

/-- A PointCloud record of length `L` (R134). -/
def pointCloudRecord (mem : Memory) (L : U32) (d : FrameDecode) : Except TruncReason FrameDecode :=
  d.record L (decodePointCloud mem)

/-- A TargetList record of length `L` (R135). -/
def targetListRecord (mem : Memory) (L : U32) (d : FrameDecode) : Except TruncReason FrameDecode :=
  d.record L (decodeTargetList mem)

/-- A TargetIndex record of length `L` (R136). -/
def targetIndexRecord (mem : Memory) (L : U32) (d : FrameDecode) : Except TruncReason FrameDecode :=
  d.record L (decodeTargetIndex mem)

/-- A record of unknown type and length `L` (R137). -/
def unknownRecord (L : U32) (d : FrameDecode) : Except TruncReason FrameDecode :=
  d.record L (fun _ _ => skipUnknown)

/-! ## The loop inside an INGEST -/

/-- One iteration on the record at the cursor: sub-header availability, type dispatch, the record
(R130, R131, R66). -/
def recordAtCursor (mem : Memory) (d : FrameDecode) : Except TruncReason FrameDecode :=
  if d.frameEnd < d.cur + Config.tlvHdrLen then .error .subheader
  else
    match tlvKind (mem.u32At d.cur) with
    | .pointCloud => pointCloudRecord mem (mem.u32At (d.cur + 4)) d
    | .targetList => targetListRecord mem (mem.u32At (d.cur + 4)) d
    | .targetIndex => targetIndexRecord mem (mem.u32At (d.cur + 4)) d
    | .unknown => unknownRecord (mem.u32At (d.cur + 4)) d

/-- `repeat n times`: the first raise ends the loop (R130). -/
def recordLoop (mem : Memory) : Nat → FrameDecode → Except TruncReason FrameDecode
  | 0, d => .ok d
  | n + 1, d =>
    match recordAtCursor mem d with
    | .error r => .error r
    | .ok d' => recordLoop mem n d'

/-! ## The end of a frame -/

/-- The frame of a Frame outcome (R82, R171 step 5). -/
def FrameDecode.frameRecord (d : FrameDecode) : FrameRecord :=
  { header := d.hdr
    points := d.points
    targets := d.targets
    indices := d.indices
    pcMalformed := d.pcMalformed
    tlMalformed := d.tlMalformed
    unknownTlvs := d.unknownTlvs }

/-- The tracker after a frame: committed when the `targets` slot is present, untouched otherwise
(R159, R174). -/
def Tracker.afterFrame (p : Config.Params) (tr : Tracker) (d : FrameDecode) : Tracker :=
  match d.targets with
  | some tl => tr.commit p d.hdr.frameNumber tl
  | none => tr

/-- The commit of a decoded frame: tracker, consume, outcome, in this order (R174). -/
def State.commitFrame (overflow : Bool) (d : FrameDecode) (s : State) : State :=
  State.finish overflow (.frame d.frameRecord)
    { s with
      tracker := s.tracker.afterFrame s.params d
      fb := s.fb.consume d.frameEnd }

/-- What follows the last record: the frame-length check, then the commit (R138, R174). -/
def State.closeFrame (overflow : Bool) (d : FrameDecode) (s : State) : State :=
  if d.cur < d.frameEnd ∧ s.params.acceptTrailing = false then
    s.truncate overflow .lengthMismatch
  else s.commitFrame overflow d

/-! ## The four record instructions -/

/-- A record instruction run on the frame decode in progress. It takes one of the `numTlvs` iterations,
so it needs one that is left (R130); a raise abandons the frame (R206); the payload it reads must lie
in the buffer (R40; log 8). Anywhere else it is refused (R74; log 9). -/
def State.runRecord (s : State) (run : FrameDecode → Except TruncReason FrameDecode) :
    Host.Outcome State Fault Refusal :=
  match s.txn with
  | some { overflow := ov, stage := .records d } =>
    if d.left = 0 then .refused .notInStage
    else s.inBuffer (
      match run d with
      | .error r => .next (s.truncate ov r)
      | .ok d' =>
        if Config.cap < d'.cur then .fault .outsideBuffer
        else .next { s with txn := some { overflow := ov, stage := .records d' } })
  | _ => .refused .notInStage

/-- TLV_POINT_CLOUD (R131–R134, R139, R140). -/
def execTlvPointCloud (length : U32) (s : State) : Host.Outcome State Fault Refusal :=
  s.runRecord (pointCloudRecord s.fb.cells length)

/-- TLV_TARGET_LIST (R131–R133, R135, R139, R140). -/
def execTlvTargetList (length : U32) (s : State) : Host.Outcome State Fault Refusal :=
  s.runRecord (targetListRecord s.fb.cells length)

/-- TLV_TARGET_INDEX (R131–R133, R136, R140). -/
def execTlvTargetIndex (length : U32) (s : State) : Host.Outcome State Fault Refusal :=
  s.runRecord (targetIndexRecord s.fb.cells length)

/-- TLV_UNKNOWN (R131–R133, R137): the type says only that the record is skipped. -/
def execTlvUnknown (_type length : U32) (s : State) : Host.Outcome State Fault Refusal :=
  s.runRecord (unknownRecord length)

end Sys2Proof.Machine
end

