-- ==== Sys2Proof/Machine/Sync.lean ====
section
/-! DEFINITION. The SYNC_MARKER and FRAME_HEADER operations: steps 2 and 3 of the INGEST sequence
(spec/40_framebuffer.md R104–R107, spec/41_header.md, spec/44_ingest.md R171). -/

namespace Sys2Proof.Machine

/-- No valid sync offset: trim and end with NO_SYNC (R105). -/
def State.noSync (overflow : Bool) (s : State) : State :=
  State.noData overflow .noSync { s with fb := s.fb.trim }

/-- The checks a header passes before it is the frame's header, in the order of R171 step 3 and R207:
completeness (R122), the declared length (R121), readiness (R107). `none` when it passes. -/
def FrameBuffer.headerCheck (fb : FrameBuffer) (T : Nat) : Option Result :=
  if fb.len < Config.hdrLen then some (.noData .incompleteHeader)
  else if T < Config.hdrLen ∨ Config.cap < T then some (.truncated .badTotalLength)
  else if fb.readyForDecode T then none
  else some (.noData .incompleteFrame)

/-- A header that fails a check ends the INGEST: a Truncated with recovery, a NoData without (R13,
R206). -/
def State.endWith (overflow : Bool) (r : Result) (s : State) : State :=
  match r with
  | .truncated t => s.truncate overflow t
  | r => s.finish overflow r

/-- SYNC_MARKER: the sync search. The true sync offset moves to index 0 and the header is next (R104,
R106); with no valid offset the buffer is trimmed and the INGEST ends (R105). -/
def execSyncMarker (s : State) : Host.Outcome State Fault Refusal :=
  match s.txn with
  | some { overflow := ov, stage := .seek } =>
    s.inBuffer (
      match s.fb.trueSync with
      | none => .next (s.noSync ov)
      | some p =>
        .next { s with
          fb := s.fb.discardBefore p
          txn := some { overflow := ov, stage := .header } })
  | _ => .refused .notInStage

/-- FRAME_HEADER: the checks of R122, R121, R107 and then the record loop's start with this header
(R120, R130). -/
def execFrameHeader (h : Header) (s : State) : Host.Outcome State Fault Refusal :=
  match s.txn with
  | some { overflow := ov, stage := .header } =>
    s.inBuffer (
      match s.fb.headerCheck h.totalPacketLength.toNat with
      | some r => .next (s.endWith ov r)
      | none => .next { s with txn := some { overflow := ov, stage := .records (.start h) } })
  | _ => .refused .notInStage

end Sys2Proof.Machine
end

