-- ==== Sys2Proof/Machine/Transactions.lean ====
section
/-! DEFINITION. The two host transactions, INGEST and RESET (spec/44_ingest.md). Each is one indivisible
step of the state (spec/20_memory.md R49). -/

namespace Sys2Proof.Machine

/-- Step 1 of R171: the chunk goes in, or is dropped. -/
def State.appendChunk (c : List Byte) (s : State) : State := { s with fb := s.fb.append c }

/-- Steps 4 and 5 of R171 on the frame at index 0: the record loop, the length check, the commit. -/
def State.decodeFrame (overflow : Bool) (h : Header) (s : State) : State :=
  match recordLoop s.fb.cells h.numTlvs.toNat (.start h) with
  | .error r => s.truncate overflow r
  | .ok d => s.closeFrame overflow d

/-- Steps 3 to 5 of R171, the marker at index 0. -/
def State.decodeAligned (overflow : Bool) (s : State) : State :=
  match s.fb.headerCheck (s.fb.cells.memRead 20 4) with
  | some r => s.endWith overflow r
  | none => s.decodeFrame overflow s.fb.cells.headerAt

/-- Steps 2 to 5 of R171: synchronise, then decode. -/
def State.syncAndDecode (overflow : Bool) (s : State) : State :=
  match s.fb.trueSync with
  | none => s.noSync overflow
  | some p => State.decodeAligned overflow { s with fb := s.fb.discardBefore p }

/-- The INGEST sequence (R171): every step sees the writes of the steps before it, and exactly one
outcome record comes back (R175). -/
def State.ingest (c : List Byte) (s : State) : State :=
  (s.appendChunk c).syncAndDecode (s.fb.overflows c)

/-- INGEST (R170, R171). A transaction issued while another is in progress is refused (R240; log 9). -/
def execIngest (chunk : List Byte) (s : State) : Host.Outcome State Fault Refusal :=
  match s.txn with
  | some _ => .refused .overlappingTransaction
  | none => s.inBuffer (.next (s.ingest chunk))

/-- The state a RESET leaves (R176): `S` at its reset values. The parameters are arguments of the model,
the host's queue is the host's, and the free-value counter is the model's own, so they stay (log 22). -/
def State.resetS (s : State) : State :=
  { s with
    fb := { cells := [], len := 0 }
    tracker := { Tracker.reset with freeCount := s.tracker.freeCount } }

/-- RESET (R176): the chunk is ignored; the outcome is NoData(RESET_DONE) with `overflow = 0`. A
transaction issued while another is in progress is refused (R240; log 9). -/
def execReset (_chunk : List Byte) (s : State) : Host.Outcome State Fault Refusal :=
  match s.txn with
  | some _ => .refused .overlappingTransaction
  | none => .next (s.resetS.noData false .resetDone)

end Sys2Proof.Machine
end

