-- ==== Sys2Proof/Machine/Dispatch.lean ====
section
/-! DEFINITION. The dispatch: one arm per constructor of `Instr`. -/

namespace Sys2Proof.Machine

def exec (i : Instr) (s : State) : Host.Outcome State Fault Refusal :=
  match i with
  | .syncMarker => Sys2Proof.Machine.execSyncMarker s
  | .frameHeader h => Sys2Proof.Machine.execFrameHeader h s
  | .tlvPointCloud length => Sys2Proof.Machine.execTlvPointCloud length s
  | .tlvTargetList length => Sys2Proof.Machine.execTlvTargetList length s
  | .tlvTargetIndex length => Sys2Proof.Machine.execTlvTargetIndex length s
  | .tlvUnknown type length => Sys2Proof.Machine.execTlvUnknown type length s
  | .ingest chunk => Sys2Proof.Machine.execIngest chunk s
  | .reset chunk => Sys2Proof.Machine.execReset chunk s

end Sys2Proof.Machine
end

