-- ==== Sys2Proof/Machine/Fetch.lean ====
section
/-! DEFINITION. Where the machine's next instruction comes from: between transactions, the host's first
pending transaction; inside an INGEST, the bytes at the place the sequence of spec/44_ingest.md R171 has
reached. -/

namespace Sys2Proof.Machine

/-- What the machine does next. -/
inductive Fetched where
  /-- Run this instruction on this state. -/
  | run (i : Instr) (s : State)
  /-- No instruction is due: the sequence itself ends the transaction, or nothing is pending. -/
  | settle (s : State)
  | fault (r : Fault)
  | refuse (r : Refusal)

/-- The instruction decoded from bytes of the buffer (log 21 for bytes that hold none). -/
def fetchDecoded (format : Format) (bytes : List Byte) (s : State) : Fetched :=
  match decode format bytes with
  | .ok i => .run i s
  | .error _ => .refuse .noMarkerAtZero

/-- Between transactions: the host's next transaction, which leaves its queue (R51, R73). With none
pending FSYNC is idle and keeps all of its state (R218; log 10). -/
def fetchTransaction (s : State) : Fetched :=
  match s.pending with
  | [] => .settle s
  | t :: rest => .run (decodeTransaction t) { s with pending := rest }

/-- Step 2 of R171: the marker at the true sync offset, or the no-sync end (R104, R105). -/
def fetchMarker (ov : Bool) (s : State) : Fetched :=
  match s.fb.trueSync with
  | none => .settle (s.noSync ov)
  | some p => fetchDecoded .marker (s.fb.cells.readBytes p Config.markerLen) s

/-- Step 3 of R171: the header at index 0, or the incomplete-header end (R122). -/
def fetchHeader (ov : Bool) (s : State) : Fetched :=
  if s.fb.len < Config.hdrLen then .settle (s.noData ov .incompleteHeader)
  else fetchDecoded .header (s.fb.cells.readBytes 0 Config.hdrLen) s

/-- Step 4 of R171: the record at the cursor; after the last record the frame's end, and a truncation
where no sub-header is left before `T` (R130, R131, R138). -/
def fetchRecord (ov : Bool) (d : FrameDecode) (s : State) : Fetched :=
  if d.left = 0 then .settle (s.closeFrame ov d)
  else if d.frameEnd < d.cur + Config.tlvHdrLen then .settle (s.truncate ov .subheader)
  else if Config.cap < d.cur + Config.tlvHdrLen then .fault .outsideBuffer
  else fetchDecoded .record (s.fb.cells.readBytes d.cur Config.tlvHdrLen) s

/-- The next instruction inside an INGEST, by the stage its sequence has reached (R171). -/
def fetchStage (ov : Bool) (stage : Stage) (s : State) : Fetched :=
  match stage with
  | .seek => fetchMarker ov s
  | .header => fetchHeader ov s
  | .records d => fetchRecord ov d s

/-- The machine's next instruction. -/
def fetch (s : State) : Fetched :=
  match s.txn with
  | none => fetchTransaction s
  | some x => if Config.cap < s.fb.len then .fault .outsideBuffer else fetchStage x.overflow x.stage s

/-- The first state of an INGEST whose internal operations are run one at a time: step 1 of R171 is
done and the sync search is next (log 2). -/
def State.beginIngest (c : List Byte) (s : State) : State :=
  { s.appendChunk c with txn := some { overflow := s.fb.overflows c, stage := .seek } }

/-! ## Placing an instruction where the fetch finds it -/

/-- A buffer that holds exactly these bytes, and `len` as given. -/
def bufferOf (bs : List Byte) (len : Nat) : FrameBuffer :=
  { cells := Memory.cellsOf 0 (bs.take len), len := len }

/-- The header of a frame with one record, of the given total length. -/
def oneRecordHeader (T : Nat) : Header :=
  { magic := Config.marker, version := 0, platform := 0, timestamp := 0
    totalPacketLength := BitVec.ofNat 32 T, frameNumber := 0, subFrameNumber := 0, chirpMargin := 0
    frameMargin := 0, uartSentTime := 0, trackProcessTime := 0, numTlvs := 1, checksum := 0 }

/-- The length of a frame whose one record starts with these bytes: the record's declared length, no
less than a sub-header and no more than the buffer takes. -/
def oneRecordLength (bs : List Byte) : Nat :=
  min Config.cap (Config.hdrLen + max Config.tlvHdrLen (leU32 bs 4).toNat)

/-- An instruction's bytes placed where the fetch finds them (log 2): a transaction at the head of the
host's queue; a marker or a header at index 0 of the buffer, the INGEST at its seek or header stage; a
record behind the header of a frame with one record, at the cursor. -/
def State.place (s : State) : Format → List Byte → State
  | .host, [] => { s with txn := none, pending := { op := 0, chunk := [] } :: s.pending }
  | .host, b :: chunk => { s with txn := none, pending := transactionOfBytes b chunk :: s.pending }
  | .marker, bs =>
    { s with
      fb := bufferOf bs bs.length
      txn := some { overflow := false, stage := .seek } }
  | .header, bs =>
    { s with
      fb := bufferOf bs bs.length
      txn := some { overflow := false, stage := .header } }
  | .record, bs =>
    { s with
      fb := bufferOf (encodeHeader (oneRecordHeader (oneRecordLength bs)) ++ bs) (oneRecordLength bs)
      txn := some
        { overflow := false
          stage := .records (.start (oneRecordHeader (oneRecordLength bs))) } }

end Sys2Proof.Machine
end

