-- ==== Sys2Proof/Machine/Step.lean ====
section
/-! DEFINITION. The step. Between transactions a step is one whole transaction of the host
(spec/92_eei_decisions.md D1, spec/20_memory.md R49). In a state with an INGEST in progress, which no
step from reset leaves behind, it is one internal operation of that INGEST (log 2). -/

namespace Sys2Proof.Machine

/-- One step: fetch, then run what was fetched. -/
def step (s : State) : Host.Outcome State Fault Refusal :=
  match fetch s with
  | .run i s' => exec i s'
  | .settle s' => .next s'
  | .fault r => .fault r
  | .refuse r => .refused r

/-- The state with the instruction of a table word where the next step fetches it (logs 2, 6, 18). -/
def State.withFetchWord (s : State) (nbits w : Nat) : State :=
  s.place (tableBytes nbits w).1 (tableBytes nbits w).2

end Sys2Proof.Machine
end

