-- ==== Sys2Proof/Machine/Outputs.lean ====
section
/-! DEFINITION. What the external collaborators receive, as functions of the outcome record
(spec/30_encoding.md R83, R84). Writing rows and drawing plots is outside FSYNC (spec/00_scope.md
R5). -/

namespace Sys2Proof.Machine

/-- One persistence row (R83). `D` is the type of the model parameter `DEVICE_ID`, which FSYNC does not
produce (R9, D28; log 13). -/
structure PersistenceRow (D : Type) where
  frameNumber : U32
  timestamp : U32
  deviceId : D
  targetId : U32
  posX : F32
  posY : F32
  velX : F32
  velY : F32
  targetCount : Nat
  enteredCount : U32
  exitedCount : U32
deriving DecidableEq, Repr

/-- The row of one target of a frame (R83). -/
def persistenceRow {D : Type} (deviceId : D) (f : FrameRecord) (tl : List Target) (st : Status)
    (t : Target) : PersistenceRow D :=
  { frameNumber := f.header.frameNumber
    timestamp := f.header.timestamp
    deviceId := deviceId
    targetId := t.id
    posX := t.posX
    posY := t.posY
    velX := t.velX
    velY := t.velY
    targetCount := tl.length
    enteredCount := st.entered
    exitedCount := st.exited }

/-- The rows of an outcome: one per target, in record order, for a Frame outcome with `targets`
present, and none otherwise (R83). -/
def OutcomeRecord.persistenceRows {D : Type} (deviceId : D) (o : OutcomeRecord) :
    List (PersistenceRow D) :=
  match o.result with
  | .frame f =>
    match f.targets with
    | some tl => tl.map (persistenceRow deviceId f tl o.status)
    | none => []
  | .noData _ => []
  | .truncated _ => []

/-- What the visualisation receives: the points and targets of a Frame outcome, unchanged (R84). -/
def OutcomeRecord.visualisation (o : OutcomeRecord) :
    Option (Option (List Point) × Option (List Target)) :=
  match o.result with
  | .frame f => some (f.points, f.targets)
  | .noData _ => none
  | .truncated _ => none

end Sys2Proof.Machine
end

