-- ==== Sys2Proof/Machine/Stream.lean ====
section
/-! DEFINITION. The stream notation of spec/30_encoding.md R85: functions that make the bytes of test
streams. Each item expands to bytes and a stream is their concatenation. -/

namespace Sys2Proof.Machine

/-- One record of the notation: `PC(...)`, `TL(...)`, `TI(...)`, or `TLV(type=t, length=L, ...)` with the
length written out, which need not match the payload (R85). -/
inductive StreamRecord where
  | pc (points : List Point)
  | tl (targets : List Target)
  | ti (indices : List Byte)
  | tlv (type length : U32) (payload : List Byte)
deriving DecidableEq, Repr

/-- `TLV(type=t, length=L, payload)` (R85). -/
def streamTlv (type length : U32) (payload : List Byte) : List Byte :=
  encodeSubHeader type length ++ payload

/-- The payload of a known kind behind its sub-header, the length counted for it: 8 + 16N, 8 + 68K or
8 + P (R72, R85). -/
def streamSized (type : U32) (payload : List Byte) : List Byte :=
  streamTlv type (BitVec.ofNat 32 (Config.tlvHdrLen + payload.length)) payload

/-- The bytes of one record (R85). -/
def StreamRecord.bytes : StreamRecord → List Byte
  | .pc points => streamSized Config.typePointCloud (points.flatMap Point.bytes)
  | .tl targets => streamSized Config.typeTargetList (targets.flatMap Target.bytes)
  | .ti indices => streamSized Config.typeTargetIndex indices
  | .tlv type length payload => streamTlv type length payload

/-- The records of a frame, one after another (R85). -/
def streamRecords (rs : List StreamRecord) : List Byte := rs.flatMap StreamRecord.bytes

/-- The header of R85's `FRAME(...; R1, R2, ...)`: the marker, `numTlvs` the number of records and
`totalPacketLength` 52 plus their bytes, over the other fields of `h`. -/
def frameHeaderFor (h : Header) (rs : List StreamRecord) : Header :=
  { h with
    magic := Config.marker
    totalPacketLength := BitVec.ofNat 32 (Config.hdrLen + (streamRecords rs).length)
    numTlvs := BitVec.ofNat 16 rs.length }

/-- `FRAME(...; R1, R2, ...)` (R85). -/
def streamFrame (h : Header) (rs : List StreamRecord) : List Byte :=
  encodeHeader (frameHeaderFor h rs) ++ streamRecords rs

/-- `HDR()` with every field 0 but the magic (R85). -/
def zeroHeader : Header :=
  { magic := Config.marker, version := 0, platform := 0, timestamp := 0, totalPacketLength := 0
    frameNumber := 0, subFrameNumber := 0, chirpMargin := 0, frameMargin := 0, uartSentTime := 0
    trackProcessTime := 0, numTlvs := 0, checksum := 0 }

/-- A target with every field 0 but its id and `posX` (R85 `TL`: trailing fields left out are 0). -/
def targetWith (id : U32) (posX : F32) : Target :=
  { id := id, posX := posX, posY := 0, velX := 0, velY := 0, accX := 0, accY := 0
    ec := { e00 := 0, e01 := 0, e02 := 0, e10 := 0, e11 := 0, e12 := 0, e20 := 0, e21 := 0, e22 := 0 }
    gain := 0 }

end Sys2Proof.Machine
end

