-- ==== Sys2Proof/Safety.lean ====
section
/-! DEFINITION. What counts as a legal state and a safe run, in the terms the statements use: the
invariants the spec states of `S` and of a transaction in progress, the host's duties of
spec/70_reset_and_hazards.md, and the frame a stream of records stands for. -/

namespace Sys2Proof.Machine

/-! ## Legal states -/

/-- The buffer is in its canonical form, `len ≤ CAP` (R22), and every byte at an index from `len` up
is 0 (R23). -/
abbrev FrameBuffer.wf (fb : FrameBuffer) : Prop :=
  fb.cells.wf ∧ fb.len ≤ Config.cap ∧ ∀ c ∈ fb.cells, c.1 < fb.len

/-- The tracker's store is in its canonical form and within the parameters' bounds, and `trackFault`
is 0 while both bounds are unbounded (R25, R29, R152). -/
abbrev Tracker.wf (p : Config.Params) (tr : Tracker) : Prop :=
  tr.hist.wf ∧
  p.maxIds.all (fun n => decide (tr.hist.idCount ≤ n)) = true ∧
  p.histDepth.all (fun n => tr.hist.all fun e => decide (e.2.length ≤ n)) = true ∧
  (p.maxIds = none → p.histDepth = none → tr.trackFault = false)

/-- A frame decode in progress: the header is the one in the buffer (R120), `52 ≤ cur ≤ T ≤ len`
(R27, R107), and the unknown records counted so far and the iterations left are no more than
`numTlvs` (R130, R137). -/
abbrev FrameDecode.wf (fb : FrameBuffer) (d : FrameDecode) : Prop :=
  d.hdr = fb.cells.headerAt ∧ Config.hdrLen ≤ d.cur ∧ d.cur ≤ d.frameEnd ∧ d.frameEnd ≤ fb.len ∧
  d.unknownTlvs.toNat + d.left ≤ d.hdr.numTlvs.toNat

/-- A stage of an INGEST in progress: from the header stage on, a marker is at index 0 (R106). -/
def Stage.wf (fb : FrameBuffer) : Stage → Prop
  | .seek => True
  | .header => fb.syncAt 0 = true
  | .records d => fb.syncAt 0 = true ∧ FrameDecode.wf fb d

/-- The legal states. -/
def State.wf (s : State) : Prop :=
  s.fb.wf ∧ s.tracker.wf s.params ∧ ∀ x, s.txn = some x → x.stage.wf s.fb

/-! ## Runs -/

/-- Chunks presented one after another, one INGEST each, stopping at the first fault or refusal
(R51). -/
def presentChunks : List (List Byte) → State → Host.Outcome State Fault Refusal
  | [], s => .next s
  | c :: cs, s =>
    match exec (.ingest c) s with
    | .next t => presentChunks cs t
    | .fault r => .fault r
    | .refused r => .refused r

/-- `k` steps that neither fault nor refuse. -/
def SafeRun (k : Nat) (s : State) : Prop := ∃ t : State, Sys2Proof.core.run k s = .next t

/-! ## The host's duties -/

/-- The chunk fits what is free, so no byte of it is lost (R241). -/
def State.chunkFits (s : State) (c : List Byte) : Prop := c.length ≤ Config.cap - s.fb.len

/-- A transaction the host's interface can carry: its chunk is no longer than `MAX_CHUNK` (R9, D3;
log 11). -/
def Transaction.deliverable (p : Config.Params) (t : Transaction) : Bool :=
  p.maxChunk.all fun n => decide (t.chunk.length ≤ n)

/-! ## Outcomes -/

/-- The kind of an outcome is Frame (R80). -/
def Result.isFrame : Result → Bool
  | .frame _ => true
  | .noData _ => false
  | .truncated _ => false

/-- Two records of an outcome agree but for the overflow flag. -/
def OutcomeRecord.withOverflow (o : OutcomeRecord) (ov : Bool) : OutcomeRecord :=
  { o with overflow := ov }

/-! ## The frame a stream of records stands for -/

/-- A record of the notation whose written length counts its payload: a known kind, an unknown type,
or a malformed PointCloud or TargetList (R72, R137, R139). -/
def StreamRecord.sound : StreamRecord → Bool
  | .pc _ => true
  | .tl _ => true
  | .ti _ => true
  | .tlv type length payload =>
    length.toNat == Config.tlvHdrLen + payload.length &&
    match tlvKind type with
    | .pointCloud => malformed payload.length Config.pointSize
    | .targetList => malformed payload.length Config.targetSize
    | .targetIndex => false
    | .unknown => true

/-- What one record adds to the frame: it fills its kind's slot, or sets its kind's malformed flag, or
is counted as unknown (R134–R137, R139, R140). -/
def StreamRecord.addTo (f : FrameRecord) : StreamRecord → FrameRecord
  | .pc points => { f with points := some points }
  | .tl targets => { f with targets := some targets }
  | .ti indices => { f with indices := some indices }
  | .tlv type _ _ =>
    match tlvKind type with
    | .pointCloud => { f with pcMalformed := true }
    | .targetList => { f with tlMalformed := true }
    | .targetIndex => f
    | .unknown => { f with unknownTlvs := f.unknownTlvs + 1 }

/-- The frame with this header and no record (R130). -/
def emptyFrame (h : Header) : FrameRecord :=
  { header := h, points := none, targets := none, indices := none
    pcMalformed := false, tlMalformed := false, unknownTlvs := 0 }

/-- The frame `FRAME(h; R1, R2, ...)` stands for: its records in order, the last of a kind filling the
slot (R140). -/
def frameOf (h : Header) (rs : List StreamRecord) : FrameRecord :=
  rs.foldl StreamRecord.addTo (emptyFrame (frameHeaderFor h rs))

/-- The tracker after that frame (R159). -/
def Tracker.afterRecords (p : Config.Params) (tr : Tracker) (f : FrameRecord) : Tracker :=
  match f.targets with
  | some tl => tr.commit p f.header.frameNumber tl
  | none => tr

end Sys2Proof.Machine
end

