-- ==== Sys2Proof/Certificates/Slice0/Obligations.lean ====
section
/-! DEFINITION. The statements for the provers. Rules R<n> are those of spec/; each docstring says which
words a statement formalises. -/

open Sys2Proof Sys2Proof.Machine

/-! ## Encoding and decoding -/

/-- Decode and encode agree for every well-formed instruction, every operand at every value
(R61, R63, R65, R66, R73). The byte layout of a host transaction, and that the format is an argument of the
decoder, are the model's choices (logs 7 and 6). -/
def Obligations.DecodeOfEncodeIsTheInstruction : Prop :=
  ∀ i : Instr, i.wellFormed = true → decode i.format (encode i) = .ok i

/-- What the three wire formats decode is well-formed and encodes back to the very bytes read: no bit of
a marker, a header or a sub-header is dropped (R61, R63, R65). -/
def Obligations.WireDecodingLosesNoBit : Prop :=
  ∀ (f : Format) (bs : List Byte) (i : Instr), f ≠ .host → decode f bs = .ok i →
    i.wellFormed = true ∧ i.format = f ∧ encode i = bs.take (encode i).length

/-- A sub-header's type, all 32 bits of it, selects the record kind, and no type and no length is refused
(R65, R66, R67). -/
def Obligations.TypeDispatchComparesAllBits : Prop :=
  ∀ (type length : U32) (rest : List Byte),
    decode .record (u32Bytes type ++ u32Bytes length ++ rest) =
      .ok (if type = 6 then .tlvPointCloud length
        else if type = 7 then .tlvTargetList length
        else if type = 8 then .tlvTargetIndex length
        else .tlvUnknown type length)

/-- Words written out from the encodings of R61, R65, R66 decode to the instructions they stand for: the
marker; the sub-headers `06 00 00 00 18 00 00 00`, `07 00 00 00 4C 00 00 00`, `08 00 00 00 0B 00 00 00`,
`FF FF FF FF 0A 00 00 00`. The last two words are the transactions op 0 with chunk `AA` and op 1: R73 gives
the pair and the values of op, and that the pair is written as bytes with op in bit 0 of the first is the
model's choice (log 7). -/
def Obligations.SampleWordsDecodeAsWritten : Prop :=
  decode .marker [0x02, 0x01, 0x04, 0x03, 0x06, 0x05, 0x08, 0x07] = .ok .syncMarker ∧
  decode .record [0x06, 0, 0, 0, 0x18, 0, 0, 0] = .ok (.tlvPointCloud 24) ∧
  decode .record [0x07, 0, 0, 0, 0x4C, 0, 0, 0] = .ok (.tlvTargetList 76) ∧
  decode .record [0x08, 0, 0, 0, 0x0B, 0, 0, 0] = .ok (.tlvTargetIndex 11) ∧
  decode .record [0xFF, 0xFF, 0xFF, 0xFF, 0x0A, 0, 0, 0] = .ok (.tlvUnknown 0xFFFFFFFF 10) ∧
  decode .host [0x00, 0xAA] = .ok (.ingest [0xAA]) ∧
  decode .host [0x01] = .ok (.reset [])

/-- R44: little-endian assembly of a u16 and a u32 from the bytes of the buffer, at any index. -/
def Obligations.FieldsAreLittleEndian : Prop :=
  ∀ (m : Memory) (a : Nat),
    m.memRead a 2 = (m.read a).toNat + 256 * (m.read (a + 1)).toNat ∧
    m.memRead a 4 = (m.read a).toNat + 2 ^ 8 * (m.read (a + 1)).toNat +
      2 ^ 16 * (m.read (a + 2)).toNat + 2 ^ 24 * (m.read (a + 3)).toNat

/-- A header with the marker in front decodes, whatever its other fields hold, and each field is the
little-endian value at its offset (R63, R64, R120). -/
def Obligations.HeaderFieldsAreReadAtTheirOffsets : Prop :=
  ∀ m : Memory, m.readBytes 0 8 = Config.marker →
    ∃ h : Header, decode .header (m.readBytes 0 52) = .ok (.frameHeader h) ∧
      h.magic = m.readBytes 0 8 ∧ h.version.toNat = m.memRead 8 4 ∧
      h.platform.toNat = m.memRead 12 4 ∧ h.timestamp.toNat = m.memRead 16 4 ∧
      h.totalPacketLength.toNat = m.memRead 20 4 ∧ h.frameNumber.toNat = m.memRead 24 4 ∧
      h.subFrameNumber.toNat = m.memRead 28 4 ∧ h.chirpMargin.toNat = m.memRead 32 4 ∧
      h.frameMargin.toNat = m.memRead 36 4 ∧ h.uartSentTime.toNat = m.memRead 40 4 ∧
      h.trackProcessTime.toNat = m.memRead 44 4 ∧ h.numTlvs.toNat = m.memRead 48 2 ∧
      h.checksum.toNat = m.memRead 50 2

/-- Points and targets written as a stream are read back as they were, at any index and over any other
contents: the layouts of R69 and R70 are read right in every field (R72). -/
def Obligations.PayloadRecordsReadBackAsWritten : Prop :=
  (∀ (m : Memory) (a : Nat) (ps : List Point),
    (m.writeBytes a (ps.flatMap Point.bytes)).pointsAt a ps.length = ps ∧
      (ps.flatMap Point.bytes).length = 16 * ps.length) ∧
  ∀ (m : Memory) (a : Nat) (ts : List Target),
    (m.writeBytes a (ts.flatMap Target.bytes)).targetsAt a ts.length = ts ∧
      (ts.flatMap Target.bytes).length = 68 * ts.length

/-- Kind and reason codes are those of the tables of R80 and R81, kind 3 and reasons 5 to 7 are never
produced, and the two codes tell every outcome from every other, but for the frame's contents. -/
def Obligations.OutcomeCodesAreThoseOfTheTable : Prop :=
  ((∀ n, (Result.noData n).kindCode = 0) ∧ (∀ f, (Result.frame f).kindCode = 1) ∧
    ∀ n, (Result.truncated n).kindCode = 2) ∧
  ((Result.noData .noSync).reasonCode = 0 ∧ (Result.noData .incompleteHeader).reasonCode = 1 ∧
    (Result.noData .incompleteFrame).reasonCode = 2 ∧ (Result.noData .resetDone).reasonCode = 3 ∧
    (Result.truncated .subheader).reasonCode = 0 ∧ (Result.truncated .payload).reasonCode = 1 ∧
    (Result.truncated .badTlvLength).reasonCode = 2 ∧
    (Result.truncated .badTotalLength).reasonCode = 3 ∧
    (Result.truncated .lengthMismatch).reasonCode = 4 ∧
    ∀ f, (Result.frame f).reasonCode = 0) ∧
  (∀ r : Result, r.kindCode ≠ 3 ∧ r.reasonCode.toNat ≤ 4 ∧
    (r.kindCode = 1 ↔ r.isFrame = true) ∧ (r.isFrame = true → r.reasonCode = 0)) ∧
  ∀ r r' : Result, r.isFrame = false → r.kindCode = r'.kindCode → r.reasonCode = r'.reasonCode →
    r = r'

/-! ## The buffer -/

/-- R100: a chunk that fits goes in behind the bytes held and nothing else changes; one that does not fit,
the test being strict, leaves the buffer as it was with the overflow flag set. -/
def Obligations.AppendTakesAllOfAChunkOrNone : Prop :=
  ∀ (fb : FrameBuffer) (bs : List Byte),
    (fb.overflows bs = true ↔ Config.cap < fb.len + bs.length) ∧
    (Config.cap < fb.len + bs.length → fb.append bs = fb) ∧
    (fb.len + bs.length ≤ Config.cap →
      (fb.append bs).len = fb.len + bs.length ∧
      (∀ (k : Nat) (b : Byte), bs[k]? = some b → (fb.append bs).cells.read (fb.len + k) = b) ∧
      (∀ i, i < fb.len ∨ fb.len + bs.length ≤ i → (fb.append bs).cells.read i = fb.cells.read i))

/-- R103: compaction moves every byte below `len` down by `k`, writes 0 to the bytes it vacates, lowers
`len` by `k` and leaves the bytes from the old `len` up as they were (0, by R23). -/
def Obligations.CompactionMovesDownAndZeroFills : Prop :=
  ∀ (fb : FrameBuffer) (k : Nat), k ≤ fb.len →
    (∀ i < fb.len - k, (fb.discardBefore k).cells.read i = fb.cells.read (i + k)) ∧
    (∀ i, fb.len - k ≤ i → i < fb.len → (fb.discardBefore k).cells.read i = 0) ∧
    (∀ i, fb.len ≤ i → (fb.discardBefore k).cells.read i = fb.cells.read i) ∧
    (fb.discardBefore k).len = fb.len - k

/-! ## The sync search -/

/-- R104 and R61: `findSync` finds exactly the offsets where the 8 marker bytes stand within `len`, in
ascending order, any two of them at least 8 apart. -/
def Obligations.FindSyncFindsExactlyTheMarkers : Prop :=
  leNat Config.marker = 0x0708050603040102 ∧
  ∀ fb : FrameBuffer,
    (∀ p, p ∈ fb.findSync ↔
      p + 8 ≤ fb.len ∧ ∀ k < 8, fb.cells.read (p + k) = Config.marker.getD k 0) ∧
    fb.findSync.Pairwise fun p q => p + 8 ≤ q

/-- SYNC_MARKER in an INGEST whose buffer holds a marker completes: the smallest valid offset `p` moves
to index 0, the bytes behind it with it, the vacated tail reads 0, the header is next, and nothing else
changes (R106, R103). -/
def Obligations.SyncMarkerAlignsToTheSmallestOffset : Prop :=
  ∀ (s : State) (ov : Bool) (p : Nat), s.txn = some { overflow := ov, stage := .seek } →
    s.fb.len ≤ Config.cap → p ∈ s.fb.findSync → (∀ q ∈ s.fb.findSync, p ≤ q) →
    ∃ fb : FrameBuffer,
      exec .syncMarker s =
        .next { s with fb := fb, txn := some { overflow := ov, stage := .header } } ∧
      fb.len = s.fb.len - p ∧
      (∀ i, i < s.fb.len - p → fb.cells.read i = s.fb.cells.read (i + p)) ∧
      (∀ i, s.fb.len - p ≤ i → i < s.fb.len → fb.cells.read i = 0) ∧
      (∀ i, s.fb.len ≤ i → fb.cells.read i = s.fb.cells.read i) ∧
      ∀ k < 8, fb.cells.read k = Config.marker.getD k 0

/-- SYNC_MARKER in an INGEST whose buffer holds no marker: the last 7 bytes stay, the outcome is
NoData(NO_SYNC) with the overflow flag of step 1 and the status after the trim, and nothing else
changes (R105, R103). -/
def Obligations.SyncMarkerWithoutAMarkerTrims : Prop :=
  ∀ (s : State) (ov : Bool), s.txn = some { overflow := ov, stage := .seek } →
    s.fb.len ≤ Config.cap → s.fb.findSync = [] →
    ∃ fb : FrameBuffer,
      exec .syncMarker s =
        .next
          { s with
            fb := fb
            txn := none
            outcome := some
              { result := .noData .noSync
                overflow := ov
                status :=
                  { len := BitVec.ofNat 16 fb.len
                    entered := s.tracker.entered
                    exited := s.tracker.exited
                    trackFault := s.tracker.trackFault } } } ∧
      fb.len = min s.fb.len 7 ∧
      (∀ i, i < fb.len → fb.cells.read i = s.fb.cells.read (i + (s.fb.len - fb.len))) ∧
      (∀ i, fb.len ≤ i → i < s.fb.len → fb.cells.read i = 0) ∧
      (∀ i, s.fb.len ≤ i → fb.cells.read i = s.fb.cells.read i)

/-! ## The header -/

/-- FRAME_HEADER with a complete header, a legal declared length and the whole frame buffered
completes: this header is the frame's, the record loop starts at 52 with `numTlvs` iterations, slots
absent, flags and count 0, and nothing else changes (R120, R121, R122, R107, R130). -/
def Obligations.FrameHeaderStartsTheRecordLoop : Prop :=
  ∀ (s : State) (ov : Bool) (h : Header), s.txn = some { overflow := ov, stage := .header } →
    s.fb.len ≤ Config.cap → 52 ≤ h.totalPacketLength.toNat → h.totalPacketLength.toNat ≤ s.fb.len →
    exec (.frameHeader h) s =
      .next
        { s with
          txn := some
            { overflow := ov
              stage := .records
                { hdr := h, cur := 52, left := h.numTlvs.toNat, points := none, targets := none
                  indices := none, pcMalformed := false, tlMalformed := false
                  unknownTlvs := 0 } } }

/-- FRAME_HEADER that fails a check, the first check in the order of R207 deciding: fewer than 52 bytes
give INCOMPLETE_HEADER (R122) and an incomplete frame INCOMPLETE_FRAME (R107), both with the buffer as
it was; a declared length outside 52..CAP gives BAD_TOTAL_LENGTH with recovery, whether or not the frame
is complete (R121, R206). The tracker is as it was. -/
def Obligations.FrameHeaderChecksComeInOrder : Prop :=
  ∀ (s : State) (ov : Bool) (h : Header), s.txn = some { overflow := ov, stage := .header } →
    s.fb.len ≤ Config.cap →
    (s.fb.len < 52 →
      exec (.frameHeader h) s =
        .next
          { s with
            txn := none
            outcome := some
              { result := .noData .incompleteHeader, overflow := ov, status := s.status } }) ∧
    (52 ≤ s.fb.len → h.totalPacketLength.toNat < 52 ∨ Config.cap < h.totalPacketLength.toNat →
      ∃ fb : FrameBuffer, fb.len = 0 ∧ (∀ i < s.fb.len, fb.cells.read i = 0) ∧
        (∀ i, s.fb.len ≤ i → fb.cells.read i = s.fb.cells.read i) ∧
        exec (.frameHeader h) s =
          .next
            { s with
              fb := fb
              txn := none
              outcome := some
                { result := .truncated .badTotalLength
                  overflow := ov
                  status := { s.status with len := 0 } } }) ∧
    (52 ≤ s.fb.len → 52 ≤ h.totalPacketLength.toNat → h.totalPacketLength.toNat ≤ Config.cap →
      s.fb.len < h.totalPacketLength.toNat →
      exec (.frameHeader h) s =
        .next
          { s with
            txn := none
            outcome := some
              { result := .noData .incompleteFrame, overflow := ov, status := s.status } })

/-! ## The records -/

/-- TLV_POINT_CLOUD on a record that fits its frame and holds a whole number of points completes: the
slot holds `(L - 8) / 16` points, each field the f32 pattern at its offset, the cursor is past the
record, one iteration is used up, and nothing else changes, no byte of the buffer among it (R134, R69,
R130, R140). -/
def Obligations.PointCloudRecordFillsItsSlot : Prop :=
  ∀ (s : State) (ov : Bool) (d : FrameDecode) (L : U32),
    s.txn = some { overflow := ov, stage := .records d } → d.left ≠ 0 → s.fb.len ≤ Config.cap →
    8 ≤ L.toNat → d.cur + L.toNat ≤ d.hdr.totalPacketLength.toNat →
    d.hdr.totalPacketLength.toNat ≤ Config.cap → (L.toNat - 8) % 16 = 0 →
    ∃ ps : List Point,
      exec (.tlvPointCloud L) s =
        .next
          { s with
            txn := some
              { overflow := ov
                stage := .records
                  { d with points := some ps, cur := d.cur + L.toNat, left := d.left - 1 } } } ∧
      ps.length = (L.toNat - 8) / 16 ∧
      ∀ (i : Nat) (p : Point), ps[i]? = some p →
        p.range.toNat = s.fb.cells.memRead (d.cur + 8 + 16 * i) 4 ∧
        p.azimuth.toNat = s.fb.cells.memRead (d.cur + 8 + 16 * i + 4) 4 ∧
        p.doppler.toNat = s.fb.cells.memRead (d.cur + 8 + 16 * i + 8) 4 ∧
        p.snr.toNat = s.fb.cells.memRead (d.cur + 8 + 16 * i + 12) 4

/-- TLV_TARGET_LIST on a record that fits its frame and holds a whole number of targets completes: the
slot holds `(L - 8) / 68` targets, each field the value at its offset, the covariance row-major, the
cursor is past the record, one iteration is used up, and nothing else changes, the tracker and every
byte of the buffer among it (R135, R70, R130, R140, R141). -/
def Obligations.TargetListRecordFillsItsSlot : Prop :=
  ∀ (s : State) (ov : Bool) (d : FrameDecode) (L : U32),
    s.txn = some { overflow := ov, stage := .records d } → d.left ≠ 0 → s.fb.len ≤ Config.cap →
    8 ≤ L.toNat → d.cur + L.toNat ≤ d.hdr.totalPacketLength.toNat →
    d.hdr.totalPacketLength.toNat ≤ Config.cap → (L.toNat - 8) % 68 = 0 →
    ∃ ts : List Target,
      exec (.tlvTargetList L) s =
        .next
          { s with
            txn := some
              { overflow := ov
                stage := .records
                  { d with targets := some ts, cur := d.cur + L.toNat, left := d.left - 1 } } } ∧
      ts.length = (L.toNat - 8) / 68 ∧
      ∀ (j : Nat) (t : Target), ts[j]? = some t →
        t.id.toNat = s.fb.cells.memRead (d.cur + 8 + 68 * j) 4 ∧
        t.posX.toNat = s.fb.cells.memRead (d.cur + 8 + 68 * j + 4) 4 ∧
        t.posY.toNat = s.fb.cells.memRead (d.cur + 8 + 68 * j + 8) 4 ∧
        t.velX.toNat = s.fb.cells.memRead (d.cur + 8 + 68 * j + 12) 4 ∧
        t.velY.toNat = s.fb.cells.memRead (d.cur + 8 + 68 * j + 16) 4 ∧
        t.accX.toNat = s.fb.cells.memRead (d.cur + 8 + 68 * j + 20) 4 ∧
        t.accY.toNat = s.fb.cells.memRead (d.cur + 8 + 68 * j + 24) 4 ∧
        t.ec.e00.toNat = s.fb.cells.memRead (d.cur + 8 + 68 * j + 28) 4 ∧
        t.ec.e01.toNat = s.fb.cells.memRead (d.cur + 8 + 68 * j + 32) 4 ∧
        t.ec.e02.toNat = s.fb.cells.memRead (d.cur + 8 + 68 * j + 36) 4 ∧
        t.ec.e10.toNat = s.fb.cells.memRead (d.cur + 8 + 68 * j + 40) 4 ∧
        t.ec.e11.toNat = s.fb.cells.memRead (d.cur + 8 + 68 * j + 44) 4 ∧
        t.ec.e12.toNat = s.fb.cells.memRead (d.cur + 8 + 68 * j + 48) 4 ∧
        t.ec.e20.toNat = s.fb.cells.memRead (d.cur + 8 + 68 * j + 52) 4 ∧
        t.ec.e21.toNat = s.fb.cells.memRead (d.cur + 8 + 68 * j + 56) 4 ∧
        t.ec.e22.toNat = s.fb.cells.memRead (d.cur + 8 + 68 * j + 60) 4 ∧
        t.gain.toNat = s.fb.cells.memRead (d.cur + 8 + 68 * j + 64) 4

/-- TLV_TARGET_INDEX and TLV_UNKNOWN on a record that fits its frame complete: a TargetIndex fills its
slot with the `L - 8` payload bytes, an unknown type is counted and its payload is not read; the cursor is
past the record, one iteration is used up, and nothing else changes (R136, R71, R137, R130). -/
def Obligations.TargetIndexAndUnknownRecordsComplete : Prop :=
  ∀ (s : State) (ov : Bool) (d : FrameDecode) (L : U32),
    s.txn = some { overflow := ov, stage := .records d } → d.left ≠ 0 → s.fb.len ≤ Config.cap →
    8 ≤ L.toNat → d.cur + L.toNat ≤ d.hdr.totalPacketLength.toNat →
    d.hdr.totalPacketLength.toNat ≤ Config.cap →
    (∃ is : List Byte,
      exec (.tlvTargetIndex L) s =
        .next
          { s with
            txn := some
              { overflow := ov
                stage := .records
                  { d with indices := some is, cur := d.cur + L.toNat, left := d.left - 1 } } } ∧
      is.length = L.toNat - 8 ∧
      ∀ (i : Nat) (b : Byte), is[i]? = some b → b = s.fb.cells.read (d.cur + 8 + i)) ∧
    ∀ type : U32,
      exec (.tlvUnknown type L) s =
        .next
          { s with
            txn := some
              { overflow := ov
                stage := .records
                  { d with
                    unknownTlvs := d.unknownTlvs + 1, cur := d.cur + L.toNat, left := d.left - 1 } } }

/-- A known record whose payload is not a whole number of elements sets its kind's flag, leaves the slot as
it was and is passed over by its length; nothing else changes (R139, R204). -/
def Obligations.MalformedRecordSetsItsFlagAndIsPassedOver : Prop :=
  ∀ (s : State) (ov : Bool) (d : FrameDecode) (L : U32),
    s.txn = some { overflow := ov, stage := .records d } → d.left ≠ 0 → s.fb.len ≤ Config.cap →
    8 ≤ L.toNat → d.cur + L.toNat ≤ d.hdr.totalPacketLength.toNat →
    d.hdr.totalPacketLength.toNat ≤ Config.cap →
    ((L.toNat - 8) % 16 ≠ 0 →
      exec (.tlvPointCloud L) s =
        .next
          { s with
            txn := some
              { overflow := ov
                stage := .records
                  { d with pcMalformed := true, cur := d.cur + L.toNat, left := d.left - 1 } } }) ∧
    ((L.toNat - 8) % 68 ≠ 0 →
      exec (.tlvTargetList L) s =
        .next
          { s with
            txn := some
              { overflow := ov
                stage := .records
                  { d with tlMalformed := true, cur := d.cur + L.toNat, left := d.left - 1 } } })

/-- Every record instruction that fails a check truncates the frame, the first check deciding: SUBHEADER
before BAD_TLV_LENGTH before PAYLOAD (R131, R132, R133, R207). Recovery empties the buffer, the bytes it
held read 0 afterwards, and the tracker is as it was (R206, R141). -/
def Obligations.RecordChecksTruncateInOrder : Prop :=
  ∀ (s : State) (ov : Bool) (d : FrameDecode) (type L : U32) (i : Instr) (r : TruncReason),
    s.txn = some { overflow := ov, stage := .records d } → d.left ≠ 0 → s.fb.len ≤ Config.cap →
    i ∈ [.tlvPointCloud L, .tlvTargetList L, .tlvTargetIndex L, .tlvUnknown type L] →
    (d.hdr.totalPacketLength.toNat < d.cur + 8 ∧ r = .subheader ∨
     d.cur + 8 ≤ d.hdr.totalPacketLength.toNat ∧ L.toNat < 8 ∧ r = .badTlvLength ∨
     d.cur + 8 ≤ d.hdr.totalPacketLength.toNat ∧ 8 ≤ L.toNat ∧
       d.hdr.totalPacketLength.toNat < d.cur + L.toNat ∧ r = .payload) →
    ∃ fb : FrameBuffer, fb.len = 0 ∧ (∀ k < s.fb.len, fb.cells.read k = 0) ∧
      (∀ k, s.fb.len ≤ k → fb.cells.read k = s.fb.cells.read k) ∧
      exec i s =
        .next
          { s with
            fb := fb
            txn := none
            outcome := some
              { result := .truncated r, overflow := ov, status := { s.status with len := 0 } } }

/-- After the last record (`left = 0`) the step ends the INGEST: bytes the records do not cover give
LENGTH_MISMATCH with the tracker as it was, unless ACCEPT_TRAILING takes them as padding; otherwise the
tracker is committed with the frame's number and targets when the targets slot is present and left alone
when it is absent, `T` bytes are consumed and the frame is returned (R138, R174, R159, R108). That the end
of the records is a step of its own is the model's choice (log 2). -/
def Obligations.FrameLengthCheckEndsTheRecords : Prop :=
  ∀ (s : State) (ov : Bool) (d : FrameDecode),
    s.txn = some { overflow := ov, stage := .records d } → s.fb.wf → d.left = 0 →
    d.cur ≤ d.hdr.totalPacketLength.toNat → d.hdr.totalPacketLength.toNat ≤ s.fb.len →
    ∃ t : State, step s = .next t ∧ t.txn = none ∧ t.params = s.params ∧ t.pending = s.pending ∧
      (d.cur < d.hdr.totalPacketLength.toNat ∧ s.params.acceptTrailing = false →
        t.fb = { cells := [], len := 0 } ∧ t.tracker = s.tracker ∧
        t.outcome = some
          { result := .truncated .lengthMismatch, overflow := ov, status := t.status }) ∧
      (¬(d.cur < d.hdr.totalPacketLength.toNat ∧ s.params.acceptTrailing = false) →
        t.fb.len = s.fb.len - d.hdr.totalPacketLength.toNat ∧
        (∀ i < t.fb.len, t.fb.cells.read i = s.fb.cells.read (i + d.hdr.totalPacketLength.toNat)) ∧
        (∀ i, t.fb.len ≤ i → t.fb.cells.read i = 0) ∧
        (d.targets = none → t.tracker = s.tracker) ∧
        (∀ tl, d.targets = some tl →
          t.tracker = s.tracker.commit s.params d.hdr.frameNumber tl) ∧
        t.outcome = some { result := .frame d.frameRecord, overflow := ov, status := t.status })

/-! ## INGEST -/

/-- Every INGEST issued between transactions completes, leaves no transient value behind and returns one
record: its overflow flag says whether the chunk fitted, its status is read after every write, its reason
is not RESET_DONE (R175, R101, R31, R171). `len` stays within CAP (R22). The parameters and the host's
queue are the model's own and stay (logs 1 and 3). -/
def Obligations.IngestCompletesWithOneOutcome : Prop :=
  ∀ (s : State) (c : List Byte), s.txn = none → s.fb.len ≤ Config.cap →
    ∃ (t : State) (o : OutcomeRecord), exec (.ingest c) s = .next t ∧ t.txn = none ∧
      t.outcome = some o ∧ (o.overflow = true ↔ Config.cap < s.fb.len + c.length) ∧
      o.result ≠ .noData .resetDone ∧
      o.status =
        { len := BitVec.ofNat 16 t.fb.len, entered := t.tracker.entered, exited := t.tracker.exited
          trackFault := t.tracker.trackFault } ∧
      t.fb.len ≤ Config.cap ∧ t.params = s.params ∧ t.pending = s.pending

/-- The round trip of whole frames: INGEST of what the notation of R85 expands a header and any records to,
into an empty buffer, completes as a Frame that holds what was written: the header
with its counted length and number, the slots, flags and count its records stand for in their order, the
buffer empty again, the tracker committed exactly when a TargetList was present (R85, R130, R134–R140,
R158, R159, R171, R174). -/
def Obligations.IngestOfAFrameDecodesItsRecords : Prop :=
  ∀ (s : State) (h : Header) (rs : List StreamRecord), s.txn = none → s.fb.wf → s.fb.len = 0 →
    (∀ r ∈ rs, r.sound = true) → 52 + (streamRecords rs).length ≤ Config.cap →
    ∃ t : State, exec (.ingest (streamFrame h rs)) s = .next t ∧
      t.fb = { cells := [], len := 0 } ∧
      t.tracker = s.tracker.afterRecords s.params (frameOf h rs) ∧
      t.outcome = some { result := .frame (frameOf h rs), overflow := false, status := t.status } ∧
      t.txn = none ∧ t.params = s.params ∧ t.pending = s.pending

/-- R177, fragmentation invariance: a byte sequence that begins with the marker, is as long as its declared
length says and decodes as Frame when presented whole decodes to the same state when presented in any
chunks, the last not empty; every INGEST before the last returns NoData without overflow. -/
def Obligations.FragmentationDoesNotChangeTheFrame : Prop :=
  ∀ (s t : State) (f : List Byte) (cs : List (List Byte)) (last : List Byte),
    s.wf → s.txn = none → s.fb.len = 0 → f.take 8 = Config.marker →
    52 ≤ f.length → f.length ≤ Config.cap → leNat (slice f 20 4) = f.length →
    exec (.ingest f) s = .next t → t.outcome.any (fun o => o.result.isFrame) = true →
    f = cs.flatten ++ last → last ≠ [] →
    presentChunks (cs ++ [last]) s = .next t ∧
    ∀ k, 0 < k → k ≤ cs.length → ∃ u : State, presentChunks (cs.take k) s = .next u ∧
      ∃ (r : NoDataReason) (st : Status),
        u.outcome = some { result := .noData r, overflow := false, status := st }

/-- R179, sync recovery: garbage with no valid sync offset below its length, in front of a frame that
decodes alone, changes neither the frame nor the state it leaves. -/
def Obligations.GarbageBeforeAFrameIsDropped : Prop :=
  ∀ (s t : State) (g f : List Byte), s.wf → s.txn = none → s.fb.len = 0 →
    f.take 8 = Config.marker → 52 ≤ f.length → (g ++ f).length ≤ Config.cap →
    leNat (slice f 20 4) = f.length → (∀ p < g.length, slice (g ++ f) p 8 ≠ Config.marker) →
    exec (.ingest f) s = .next t → t.outcome.any (fun o => o.result.isFrame) = true →
    exec (.ingest (g ++ f)) s = .next t

/-- R178 and D4: an INGEST whose chunk does not fit does exactly what an INGEST of the empty chunk would
do, and reports the overflow. -/
def Obligations.OverflowingIngestIsAnEmptyIngest : Prop :=
  ∀ (s t : State) (c : List Byte), s.fb.wf → Config.cap < s.fb.len + c.length →
    exec (.ingest []) s = .next t →
    exec (.ingest c) s =
      .next { t with outcome := t.outcome.map fun o => o.withOverflow true }

/-- R173: an INGEST that ends as NoData has only appended its chunk and aligned or trimmed: the bytes it
holds are the last ones of what it held and the chunk, and the tracker is as it was. -/
def Obligations.NoDataOnlyAppendsAndAligns : Prop :=
  ∀ (s t : State) (c : List Byte) (r : NoDataReason) (ov : Bool) (st : Status), s.fb.wf →
    exec (.ingest c) s = .next t →
    t.outcome = some { result := .noData r, overflow := ov, status := st } →
    t.tracker = s.tracker ∧ t.fb.wf ∧
    ∃ k, k ≤ (s.fb.append c).len ∧ t.fb.len = (s.fb.append c).len - k ∧
      (∀ i < t.fb.len, t.fb.cells.read i = (s.fb.append c).cells.read (i + k)) ∧
      (r = .noSync → t.fb.len ≤ 7) ∧
      (r ≠ .noSync → ∀ j < 8, t.fb.cells.read j = Config.marker.getD j 0)

/-- R206 and R141: an INGEST that ends as Truncated has dropped every byte and touched nothing of the
tracker. -/
def Obligations.TruncatedDropsTheBufferAndKeepsTheTracker : Prop :=
  ∀ (s t : State) (c : List Byte) (r : TruncReason) (ov : Bool) (st : Status), s.fb.wf →
    exec (.ingest c) s = .next t →
    t.outcome = some { result := .truncated r, overflow := ov, status := st } →
    t.fb = { cells := [], len := 0 } ∧ t.tracker = s.tracker ∧ st.len = 0

/-- R108, R172, R174: an INGEST that ends as Frame has dropped the garbage before the marker and the `T`
bytes of that one frame; the bytes behind it stay, in order. The frame carries the marker and its declared
length is legal. -/
def Obligations.FrameConsumesExactlyItsBytes : Prop :=
  ∀ (s t : State) (c : List Byte) (f : FrameRecord) (ov : Bool) (st : Status), s.fb.wf →
    exec (.ingest c) s = .next t →
    t.outcome = some { result := .frame f, overflow := ov, status := st } →
    f.header.magic = Config.marker ∧ 52 ≤ f.header.totalPacketLength.toNat ∧
    f.header.totalPacketLength.toNat ≤ Config.cap ∧
    ∃ p, p ∈ (s.fb.append c).findSync ∧ (∀ q ∈ (s.fb.append c).findSync, p ≤ q) ∧
      p + f.header.totalPacketLength.toNat ≤ (s.fb.append c).len ∧
      t.fb.len = (s.fb.append c).len - p - f.header.totalPacketLength.toNat ∧
      ∀ i < t.fb.len, t.fb.cells.read i =
        (s.fb.append c).cells.read (i + (p + f.header.totalPacketLength.toNat))

/-- R159 and R174: a Frame INGEST commits the tracker once, with the frame's number and targets, when the
targets slot is present, and leaves the tracker alone when it is absent. -/
def Obligations.TrackerRunsExactlyOnFramesWithTargets : Prop :=
  ∀ (s t : State) (c : List Byte) (f : FrameRecord) (ov : Bool) (st : Status),
    exec (.ingest c) s = .next t →
    t.outcome = some { result := .frame f, overflow := ov, status := st } →
    (f.targets = none → t.tracker = s.tracker) ∧
    ∀ tl, f.targets = some tl → t.tracker = s.tracker.commit s.params f.header.frameNumber tl

/-- R242: after an INGEST that was not a Frame, an INGEST of the empty chunk is not one either and changes
nothing of the state but the record. -/
def Obligations.DrainingStopsAtTheFirstNonFrame : Prop :=
  ∀ (s t u : State) (c : List Byte), s.wf → exec (.ingest c) s = .next t →
    t.outcome.any (fun o => o.result.isFrame) = false → exec (.ingest []) t = .next u →
    u.fb = t.fb ∧ u.tracker = t.tracker ∧ u.outcome.any (fun o => o.result.isFrame) = false

/-- R243, the capacity wedge: with a marker at index 0, a legal declared length and an incomplete frame,
an INGEST of a chunk that does not fit returns NoData(INCOMPLETE_FRAME) with overflow and changes nothing,
so every later one does the same. -/
def Obligations.CapacityWedgeDoesNotMove : Prop :=
  ∀ (s : State) (c : List Byte), s.txn = none → s.fb.len ≤ Config.cap → 0 ∈ s.fb.findSync →
    52 ≤ s.fb.len → 52 ≤ s.fb.cells.memRead 20 4 → s.fb.cells.memRead 20 4 ≤ Config.cap →
    s.fb.len < s.fb.cells.memRead 20 4 → Config.cap - s.fb.len < c.length →
    exec (.ingest c) s =
      .next
        { s with
          outcome := some
            { result := .noData .incompleteFrame, overflow := true, status := s.status } }

/-- R49, R74, R171: an INGEST, which is one step, does exactly what its internal operations do when they
are run one at a time from the state after the append. That the operations can be run each as a step of its
own, on the transient values held in the state, is the model's choice (log 2). -/
def Obligations.IngestIsItsInternalOperationsInOrder : Prop :=
  ∀ (s t : State) (c : List Byte), s.wf → s.txn = none → exec (.ingest c) s = .next t →
    ∃ k, Sys2Proof.core.run k (s.beginIngest c) = .next t

/-! ## RESET -/

/-- R32: after RESET, and in the initial state, every byte of the buffer is 0, `len` is 0, `hist` is
empty, and both counters and `trackFault` are 0. -/
def Obligations.ResetLeavesTheStateOfTheTable : Prop :=
  (∀ (s : State) (c : List Byte), s.txn = none → ∃ t : State, exec (.reset c) s = .next t ∧
    (∀ i, t.fb.cells.read i = 0) ∧ t.fb.len = 0 ∧ (∀ id, t.tracker.hist.get id = []) ∧
    t.tracker.entered = 0 ∧ t.tracker.exited = 0 ∧ t.tracker.trackFault = false) ∧
  (∀ i, State.reset.fb.cells.read i = 0) ∧ State.reset.fb.len = 0 ∧
  (∀ id, State.reset.tracker.hist.get id = []) ∧ State.reset.tracker.entered = 0 ∧
  State.reset.tracker.exited = 0 ∧ State.reset.tracker.trackFault = false

/-- RESET completes with NoData(RESET_DONE), overflow 0 and the reset status; its chunk does not matter;
a second RESET changes nothing (R176, R73, D34). That the parameters and the host's queue stay is the
model's choice (log 22). -/
def Obligations.ResetReportsDoneAndIgnoresItsChunk : Prop :=
  ∀ (s : State) (c c' : List Byte), s.txn = none → ∃ t : State,
    exec (.reset c) s = .next t ∧ exec (.reset c') s = .next t ∧ exec (.reset c') t = .next t ∧
    t.outcome = some
      { result := .noData .resetDone
        overflow := false
        status := { len := 0, entered := 0, exited := 0, trackFault := false } } ∧
    t.txn = none ∧ t.params = s.params ∧ t.pending = s.pending

/-! ## The occupancy tracker -/

/-- R151: the band test is the stated comparison on the pattern; it is exactly `|x| ≤ 0.5`, where the
magnitude of a pattern with binary32 exponent `e` and fraction `f` is `m · 2^(max e 1 - 150)`, with `m`
being `f` for `e = 0` and `2^23 + f` otherwise; a pattern with `e = 255`, a NaN or an infinity, is out, and
no sample of it is stored. Both ends and either zero are in, the next float above 0.5 is out. -/
def Obligations.BandTestIsExactlyHalfClosed : Prop :=
  (∀ x : F32, inBand x = true ↔ (x &&& 0x7FFFFFFF).toNat ≤ 0x3F000000) ∧
  (∀ (x : F32) (e f m : Nat), e = x.toNat / 2 ^ 23 % 2 ^ 8 → f = x.toNat % 2 ^ 23 →
    m = (if e = 0 then f else 2 ^ 23 + f) →
    (inBand x = true ↔ e ≠ 255 ∧ m * 2 ^ max e 1 ≤ 2 ^ 149)) ∧
  (∀ (p : Config.Params) (tr : Tracker) (t : Target), (t.posX.extractLsb' 23 8).toNat = 255 →
    tr.sample p t = tr) ∧
  inBand 0x3F000000 = true ∧ inBand 0xBF000000 = true ∧ inBand 0 = true ∧
  inBand 0x80000000 = true ∧ inBand 0x3E99999A = true ∧ inBand 0x3F000001 = false

/-- R153: NEG and POS by the sign bit where a magnitude bit is set, subnormals among them, and no sign for
either zero. -/
def Obligations.SignIsStrictAndZerosHaveNone : Prop :=
  ∀ x : F32,
    (sgn x = .neg ↔ x.getLsbD 31 = true ∧ x &&& 0x7FFFFFFF ≠ 0) ∧
    (sgn x = .pos ↔ x.getLsbD 31 = false ∧ x &&& 0x7FFFFFFF ≠ 0) ∧
    (sgn x = .zero ↔ x = 0 ∨ x = 0x80000000)

/-- R154: the first consecutive pair of opposite strict signs decides; without one the answer is NONE. -/
def Obligations.FirstCrossingIsTheFirstOppositePair : Prop :=
  ∀ h : List F32,
    (firstCrossing h = .negToPos ↔
      ∃ (l : List F32) (a b : F32) (r : List F32), h = l ++ a :: b :: r ∧ sgn a = .neg ∧
        sgn b = .pos ∧ ∀ i x y, (l ++ [a])[i]? = some x → (l ++ [a])[i + 1]? = some y →
          ¬(sgn x = .neg ∧ sgn y = .pos) ∧ ¬(sgn x = .pos ∧ sgn y = .neg)) ∧
    (firstCrossing h = .posToNeg ↔
      ∃ (l : List F32) (a b : F32) (r : List F32), h = l ++ a :: b :: r ∧ sgn a = .pos ∧
        sgn b = .neg ∧ ∀ i x y, (l ++ [a])[i]? = some x → (l ++ [a])[i + 1]? = some y →
          ¬(sgn x = .neg ∧ sgn y = .pos) ∧ ¬(sgn x = .pos ∧ sgn y = .neg)) ∧
    (firstCrossing h = .none ↔
      ∀ i x y, h[i]? = some x → h[i + 1]? = some y →
        ¬(sgn x = .neg ∧ sgn y = .pos) ∧ ¬(sgn x = .pos ∧ sgn y = .neg))

/-- R152: out of band a sample does nothing; where a new id would pass MAX_IDS or a sample HIST_DEPTH it
sets `trackFault` and nothing else; otherwise it goes to the end of its own id's history and every other
history, both counters and `trackFault` are as they were. The ids with samples are counted exactly. -/
def Obligations.SampleAppendsOrSetsTheFault : Prop :=
  ∀ (p : Config.Params) (tr : Tracker) (t : Target), tr.hist.wf →
    (∃ ids : List U32, ids.Nodup ∧ (∀ id, id ∈ ids ↔ tr.hist.get id ≠ []) ∧
      (inBand t.posX = false → tr.sample p t = tr) ∧
      (inBand t.posX = true →
        (tr.hist.get t.id = [] ∧ p.maxIds = some ids.length ∨
          p.histDepth = some (tr.hist.get t.id).length) →
        tr.sample p t = { tr with trackFault := true }) ∧
      (inBand t.posX = true →
        ¬(tr.hist.get t.id = [] ∧ p.maxIds = some ids.length ∨
          p.histDepth = some (tr.hist.get t.id).length) →
        (tr.sample p t).hist.get t.id = tr.hist.get t.id ++ [t.posX] ∧
        (∀ id, id ≠ t.id → (tr.sample p t).hist.get id = tr.hist.get id) ∧
        (tr.sample p t).entered = tr.entered ∧ (tr.sample p t).exited = tr.exited ∧
        (tr.sample p t).trackFault = tr.trackFault ∧ (tr.sample p t).hist.wf))

/-- R158 off a boundary, with both bounds unbounded: every id's history grows by its own banded `posX`
values in record order, and nothing else of the tracker changes (R152, R157). -/
def Obligations.CommitOffABoundaryOnlyCollects : Prop :=
  ∀ (p : Config.Params) (tr : Tracker) (fn : U32) (tl : List Target), tr.hist.wf →
    p.maxIds = none → p.histDepth = none → fn.toNat % 20 ≠ 0 →
    (∀ id, (tr.commit p fn tl).hist.get id =
      tr.hist.get id ++ (tl.filter fun t => t.id = id ∧ inBand t.posX = true).map Target.posX) ∧
    (tr.commit p fn tl).entered = tr.entered ∧ (tr.commit p fn tl).exited = tr.exited ∧
    (tr.commit p fn tl).trackFault = tr.trackFault

/-- R155, R156, R158 at a boundary: the frame's own samples belong to the window; every target with
samples is evaluated, each adding at most 1 to one counter; every history is empty afterwards. Each counter
stays within the limit of R28 with what the evaluations add to it. -/
def Obligations.BoundaryCommitEvaluatesEveryTarget : Prop :=
  ∀ (p : Config.Params) (tr : Tracker) (fn : U32) (tl : List Target), tr.hist.wf →
    fn.toNat % 20 = 0 →
    tr.entered.toNat +
      ((tr.sampleAll p tl).hist.filter fun e => firstCrossing e.2 = .negToPos).length < 2 ^ 32 →
    tr.exited.toNat +
      ((tr.sampleAll p tl).hist.filter fun e => firstCrossing e.2 = .posToNeg).length < 2 ^ 32 →
    (∀ id, (tr.commit p fn tl).hist.get id = []) ∧
    (tr.commit p fn tl).entered.toNat = tr.entered.toNat +
      ((tr.sampleAll p tl).hist.filter fun e => firstCrossing e.2 = .negToPos).length ∧
    (tr.commit p fn tl).exited.toNat = tr.exited.toNat +
      ((tr.sampleAll p tl).hist.filter fun e => firstCrossing e.2 = .posToNeg).length ∧
    (tr.commit p fn tl).trackFault = (tr.sampleAll p tl).trackFault

/-- R155: a target's first crossing adds 1 to its counter, a negative to positive one to `entered`, a
positive to negative one to `exited`; with or without a crossing the target's history is empty
afterwards, and the other counter, `trackFault` and every other history are as they were. Only the counter
the crossing increments has to be below the limit of R28. -/
def Obligations.EvaluateCountsTheFirstCrossingAndClears : Prop :=
  ∀ (tr : Tracker) (id : U32),
    (firstCrossing (tr.hist.get id) = .negToPos → tr.entered.toNat + 1 < 2 ^ 32) →
    (firstCrossing (tr.hist.get id) = .posToNeg → tr.exited.toNat + 1 < 2 ^ 32) →
    (tr.evaluate id).entered.toNat =
      tr.entered.toNat + (if firstCrossing (tr.hist.get id) = .negToPos then 1 else 0) ∧
    (tr.evaluate id).exited.toNat =
      tr.exited.toNat + (if firstCrossing (tr.hist.get id) = .posToNeg then 1 else 0) ∧
    (tr.evaluate id).hist.get id = [] ∧
    (∀ id', id' ≠ id → (tr.evaluate id).hist.get id' = tr.hist.get id') ∧
    (tr.evaluate id).trackFault = tr.trackFault

/-- R155 at the counters' limit (R28, 93_implementation_defined.md I2), for either counter: whatever value
the counter takes that the crossing increments, the other counter, `trackFault` and every other history are
as they were and the id's history is cleared. The counter's value is a free value, and that the draw is
counted is the model's choice (log 5). -/
def Obligations.EvaluationPastTheLimitStillClears : Prop :=
  ∀ (tr : Tracker) (id : U32),
    (tr.entered = BitVec.allOnes 32 → firstCrossing (tr.hist.get id) = .negToPos →
      (tr.evaluate id).hist.get id = [] ∧
      (∀ id', id' ≠ id → (tr.evaluate id).hist.get id' = tr.hist.get id') ∧
      (tr.evaluate id).exited = tr.exited ∧ (tr.evaluate id).trackFault = tr.trackFault ∧
      (tr.evaluate id).freeCount = tr.freeCount + 1) ∧
    (tr.exited = BitVec.allOnes 32 → firstCrossing (tr.hist.get id) = .posToNeg →
      (tr.evaluate id).hist.get id = [] ∧
      (∀ id', id' ≠ id → (tr.evaluate id).hist.get id' = tr.hist.get id') ∧
      (tr.evaluate id).entered = tr.entered ∧ (tr.evaluate id).trackFault = tr.trackFault ∧
      (tr.evaluate id).freeCount = tr.freeCount + 1)

/-- R161: below the wrap point no INGEST lowers a counter. A frame holds fewer than CAP targets, so an
evaluation adds fewer than the ids held plus CAP. -/
def Obligations.CountersNeverDecreaseInAnIngest : Prop :=
  ∀ (s t : State) (c : List Byte), s.wf → exec (.ingest c) s = .next t →
    s.tracker.entered.toNat + s.tracker.hist.length + Config.cap < 2 ^ 32 →
    s.tracker.exited.toNat + s.tracker.hist.length + Config.cap < 2 ^ 32 →
    s.tracker.entered.toNat ≤ t.tracker.entered.toNat ∧
    s.tracker.exited.toNat ≤ t.tracker.exited.toNat

/-- R29: no instruction but RESET clears `trackFault`, and while MAX_IDS and HIST_DEPTH are unbounded none
sets it. -/
def Obligations.TrackFaultIsStickyUntilReset : Prop :=
  ∀ (i : Instr) (s t : State), exec i s = .next t → (∀ c, i ≠ .reset c) →
    (s.tracker.trackFault = true → t.tracker.trackFault = true) ∧
    (s.params.maxIds = none → s.params.histDepth = none →
      t.tracker.trackFault = s.tracker.trackFault)

/-- R83: the persistence rows of a Frame with targets are one per target, in record order, with the fields
of the header, the target and the status after the commit; any other outcome has none. R84: the
visualisation receives the points and targets of a Frame as they are, and of nothing else. -/
def Obligations.OutputsFollowTheOutcome : Prop :=
  ∀ (dev : Nat) (o : OutcomeRecord),
    (∀ (f : FrameRecord) (tl : List Target), o.result = .frame f → f.targets = some tl →
      (o.persistenceRows dev).length = tl.length ∧
      ∀ (j : Nat) (t : Target), tl[j]? = some t →
        (o.persistenceRows dev)[j]? = some
          { frameNumber := f.header.frameNumber, timestamp := f.header.timestamp, deviceId := dev
            targetId := t.id, posX := t.posX, posY := t.posY, velX := t.velX, velY := t.velY
            targetCount := tl.length, enteredCount := o.status.entered
            exitedCount := o.status.exited }) ∧
    ((∀ f tl, o.result = .frame f → f.targets ≠ some tl) → o.persistenceRows dev = []) ∧
    (∀ f, o.result = .frame f → o.visualisation = some (f.points, f.targets)) ∧
    ((∀ f, o.result ≠ .frame f) → o.visualisation = none)

/-! ## The step -/

/-- A step runs the instruction that is decoded: between transactions the host's first pending one, which
leaves the queue; inside an INGEST the marker at the smallest valid offset, the header at index 0, the
record at the cursor, each decoded from the bytes there (R171 gives this order). That the host's
transactions wait in a queue in the state, of which a step takes the first, is the model's choice (log 1),
the bytes a transaction is written as are log 7, and that a transaction in progress is run by its internal
operations, each a step, is log 2. -/
def Obligations.StepRunsTheDecodedInstruction : Prop :=
  (∀ (s : State) (x : Transaction) (rest : List Transaction) (i : Instr), s.txn = none →
    s.pending = x :: rest → decode .host x.bytes = .ok i →
    step s = exec i { s with pending := rest }) ∧
  (∀ (s : State) (ov : Bool) (p : Nat) (i : Instr),
    s.txn = some { overflow := ov, stage := .seek } → s.fb.len ≤ Config.cap → p ∈ s.fb.findSync →
    (∀ q ∈ s.fb.findSync, p ≤ q) → decode .marker (s.fb.cells.readBytes p 8) = .ok i →
    step s = exec i s) ∧
  (∀ (s : State) (ov : Bool) (i : Instr), s.txn = some { overflow := ov, stage := .header } →
    s.fb.len ≤ Config.cap → 52 ≤ s.fb.len → decode .header (s.fb.cells.readBytes 0 52) = .ok i →
    step s = exec i s) ∧
  ∀ (s : State) (ov : Bool) (d : FrameDecode) (i : Instr),
    s.txn = some { overflow := ov, stage := .records d } → s.fb.len ≤ Config.cap → d.left ≠ 0 →
    d.cur + 8 ≤ d.hdr.totalPacketLength.toNat → d.cur + 8 ≤ Config.cap →
    decode .record (s.fb.cells.readBytes d.cur 8) = .ok i → step s = exec i s

/-- R218: with no transaction pending FSYNC is idle and keeps all of its state. That pending transactions
stand in the state is the model's choice (log 1), and that idling is a step of its own log 10. -/
def Obligations.IdleStepKeepsTheState : Prop :=
  ∀ s : State, s.txn = none → s.pending = [] → step s = .next s

/-- Every step keeps a legal state legal: the buffer in its canonical form with `len ≤ CAP` and a zero
tail, the histories in canonical form and within MAX_IDS and HIST_DEPTH, `trackFault` 0 while they are
unbounded, and a decode in progress with `52 ≤ cur ≤ T ≤ len` behind a marker at index 0 (R22, R23, R25,
R27, R29, R106, R152). The states with a decode in progress are the model's own (log 2). -/
def Obligations.EveryStepKeepsLegalStates : Prop :=
  ∀ s t : State, s.wf → step s = .next t → t.wf

/-- The state after reset is legal, and so it is with any values of the parameters in it (R32; that the
parameters stand in the state is the model's choice, log 3). -/
def Obligations.ResetStateIsLegal : Prop :=
  State.reset.wf ∧ ∀ p : Config.Params, State.wf { State.reset with params := p }

/-- R175 and R200: from a legal state no step faults and no step is refused. -/
def Obligations.NoStepOfALegalStateStops : Prop :=
  ∀ s : State, s.wf → ∃ t : State, step s = .next t

/-- R31 and R49: a step between transactions ends between transactions, and a step that ran a transaction
has returned a record whose status is the state's own. The queue the transaction comes from and the field
the record stands in are the model's (logs 1 and 4). -/
def Obligations.TransientValuesEndWithTheTransaction : Prop :=
  ∀ s t : State, s.txn = none → step s = .next t →
    t.txn = none ∧
    (s.pending ≠ [] → ∃ o : OutcomeRecord, t.outcome = some o ∧ o.status = t.status)

/-- R22: `len ≤ CAP` after every step, from every state that has it, legal otherwise or not. -/
def Obligations.LenNeverPassesTheCapacity : Prop :=
  ∀ s t : State, s.fb.len ≤ Config.cap → step s = .next t → t.fb.len ≤ Config.cap

/-- Every run from a legal state is legal and does not stop, however many transactions the host issues
(R175, R178). -/
def Obligations.RunsOfLegalStatesNeverStop : Prop :=
  ∀ (k : Nat) (s : State), s.wf → ∃ t : State, Sys2Proof.core.run k s = .next t ∧ t.wf

/-- R240 and 93_implementation_defined.md I8: a transaction issued while another is in progress is
refused. That a transaction in progress stands in the state is the model's choice (log 2), and the refusal's
name is log 9. -/
def Obligations.OverlappingTransactionsAreRefused : Prop :=
  ∀ (s : State) (x : Txn) (c : List Byte), s.txn = some x →
    exec (.ingest c) s = .refused .overlappingTransaction ∧
    exec (.reset c) s = .refused .overlappingTransaction

/-- R74: the internal operations run only inside an INGEST and in its order. Between transactions each of
the six is refused as `notInStage`, whatever its operands, and so it is at a stage that is not its own; a
record operation also where none of the `numTlvs` iterations of R130 is left. R74 gives no behaviour for an
operation run elsewhere: that it is refused, and by this name, is the model's (log 9), as are the stages in
the state (log 2). -/
def Obligations.InternalOperationsRunOnlyInTheirStage : Prop :=
  ∀ s : State,
    (∀ i : Instr, s.txn = none → i.format ≠ .host → exec i s = .refused .notInStage) ∧
    (∀ x : Txn, s.txn = some x → x.stage ≠ .seek → exec .syncMarker s = .refused .notInStage) ∧
    (∀ (x : Txn) (h : Header), s.txn = some x → x.stage ≠ .header →
      exec (.frameHeader h) s = .refused .notInStage) ∧
    (∀ (x : Txn) (i : Instr), s.txn = some x → (∀ d, x.stage = .records d → d.left = 0) →
      i.format = .record → exec i s = .refused .notInStage)

/-- The model's one fault stands exactly where an operation would access an index the buffer does not
have: a buffer longer than its capacity, or a record or its sub-header that ends past the capacity. First for
each instruction, then for the step, which fetches before it runs one. The fault is the model's choice
(log 8), as are the queue and the stages the step fetches by (logs 1 and 2); R22 and R27 say that neither
case occurs. -/
def Obligations.FaultsAreExactlyAccessesOutsideTheBuffer : Prop :=
  ∀ s : State,
    (∀ c, exec (.ingest c) s = .fault .outsideBuffer ↔ s.txn = none ∧ Config.cap < s.fb.len) ∧
    (∀ c, exec (.reset c) s ≠ .fault .outsideBuffer) ∧
    (exec .syncMarker s = .fault .outsideBuffer ↔
      (∃ ov, s.txn = some { overflow := ov, stage := .seek }) ∧ Config.cap < s.fb.len) ∧
    (∀ h, exec (.frameHeader h) s = .fault .outsideBuffer ↔
      (∃ ov, s.txn = some { overflow := ov, stage := .header }) ∧ Config.cap < s.fb.len) ∧
    (∀ (type L : U32) (i : Instr),
      i ∈ [.tlvPointCloud L, .tlvTargetList L, .tlvTargetIndex L, .tlvUnknown type L] →
      (exec i s = .fault .outsideBuffer ↔ ∃ (ov : Bool) (d : FrameDecode),
        s.txn = some { overflow := ov, stage := .records d } ∧ d.left ≠ 0 ∧
        (Config.cap < s.fb.len ∨
          8 ≤ L.toNat ∧ d.cur + L.toNat ≤ d.hdr.totalPacketLength.toNat ∧
            Config.cap < d.cur + L.toNat))) ∧
    (step s = .fault .outsideBuffer ↔
      (s.txn = none ∧ Config.cap < s.fb.len ∧ ∃ (c : List Byte) (rest : List Transaction),
        s.pending = { op := 0, chunk := c } :: rest) ∨
      (s.txn ≠ none ∧ Config.cap < s.fb.len) ∨
      ∃ (ov : Bool) (d : FrameDecode), s.txn = some { overflow := ov, stage := .records d } ∧
        d.left ≠ 0 ∧ d.cur + 8 ≤ d.hdr.totalPacketLength.toNat ∧
        (Config.cap < d.cur + 8 ∨
          8 ≤ s.fb.cells.memRead (d.cur + 4) 4 ∧
            d.cur + s.fb.cells.memRead (d.cur + 4) 4 ≤ d.hdr.totalPacketLength.toNat ∧
            Config.cap < d.cur + s.fb.cells.memRead (d.cur + 4) 4))

/-- No instruction writes a parameter of R9 or the host's queue. Both are fields of the model (logs 1 and
3). -/
def Obligations.ParametersAreNeverWritten : Prop :=
  ∀ (i : Instr) (s t : State), exec i s = .next t → t.params = s.params ∧ t.pending = s.pending
end

