-- ==== Sys2Proof/Laws/Memory.lean ====
section
/-! SUPPORT. The laws of the buffer's memory: what a read gives after each write, and that every
operation keeps the canonical form (spec/20_memory.md R41, R42, R44). -/

namespace Sys2Proof.Machine

/-! ## Bytes and numbers -/

@[simp] theorem leBytes_length (n v : Nat) : (leBytes n v).length = n := by
  induction n generalizing v with
  | zero => rfl
  | succ n ih => simp [leBytes, ih]

theorem leNat_leBytes (n v : Nat) : leNat (leBytes n v) = v % 256 ^ n := by
  induction n generalizing v with
  | zero => simp [leBytes, leNat, Nat.mod_one]
  | succ n ih =>
    have h1 : (BitVec.ofNat 8 v).toNat = v % 256 := BitVec.toNat_ofNat v 8
    rw [leBytes, leNat, ih, h1, pow_succ', Nat.mod_mul]

@[simp] theorem u32Bytes_length (v : U32) : (u32Bytes v).length = 4 := leBytes_length 4 _

@[simp] theorem u16Bytes_length (v : U16) : (u16Bytes v).length = 2 := leBytes_length 2 _

@[simp] theorem ofNat_leNat_u32Bytes (v : U32) : BitVec.ofNat 32 (leNat (u32Bytes v)) = v := by
  rw [u32Bytes, leNat_leBytes, Nat.mod_eq_of_lt (by have := v.isLt; omega)]; simp

@[simp] theorem ofNat_leNat_u16Bytes (v : U16) : BitVec.ofNat 16 (leNat (u16Bytes v)) = v := by
  rw [u16Bytes, leNat_leBytes, Nat.mod_eq_of_lt (by have := v.isLt; omega)]; simp

theorem leNat_lt (bs : List Byte) : leNat bs < 256 ^ bs.length := by
  induction bs with
  | nil => simp [leNat]
  | cons b bs ih =>
    have := b.isLt
    simp only [leNat, List.length_cons, pow_succ]
    omega

/-! ## Reads -/

@[simp] theorem Memory.read_nil (i : Nat) : Memory.read [] i = unlistedByte := rfl

theorem Memory.read_cons (a : Nat) (b : Byte) (m : Memory) (i : Nat) :
    Memory.read ((a, b) :: m) i = if a = i then b else m.read i := rfl

/-- An index no entry has reads as an unlisted one. -/
theorem Memory.read_eq_unlisted {m : Memory} {i : Nat} (h : ∀ c ∈ m, c.1 ≠ i) :
    m.read i = unlistedByte := by
  induction m with
  | nil => rfl
  | cons c m ih =>
    obtain ⟨a, b⟩ := c
    rw [Memory.read_cons, if_neg (h (a, b) (by simp))]
    exact ih fun c hc => h c (by simp [hc])

theorem Memory.read_append (m m' : Memory) (i : Nat) :
    Memory.read (m ++ m') i = if ∃ c ∈ m, c.1 = i then m.read i else m'.read i := by
  induction m with
  | nil => simp
  | cons c m ih =>
    obtain ⟨a, b⟩ := c
    by_cases h : a = i
    · simp [Memory.read_cons, h]
    · simp [Memory.read_cons, h, ih]

theorem Memory.read_filter_of_true {m : Memory} {i : Nat} {p : Host.Cell → Bool}
    (h : ∀ b, p (i, b) = true) : Memory.read (m.filter p) i = m.read i := by
  induction m with
  | nil => rfl
  | cons c m ih =>
    obtain ⟨a, b⟩ := c
    by_cases ha : a = i
    · subst ha; simp [h, Memory.read_cons]
    · by_cases hp : p (a, b) = true <;> simp [hp, Memory.read_cons, ha, ih]

theorem Memory.read_filter_of_false {m : Memory} {i : Nat} {p : Host.Cell → Bool}
    (h : ∀ b, p (i, b) = false) : Memory.read (m.filter p) i = unlistedByte := by
  apply Memory.read_eq_unlisted
  rintro ⟨a, b⟩ hc rfl
  simp [h] at hc

theorem Memory.cellsOf_bounds {a : Nat} {bs : List Byte} {c : Host.Cell}
    (h : c ∈ Memory.cellsOf a bs) : a ≤ c.1 ∧ c.1 < a + bs.length ∧ c.2 ≠ unlistedByte := by
  induction bs generalizing a with
  | nil => simp [Memory.cellsOf] at h
  | cons b bs ih =>
    simp only [Memory.cellsOf] at h
    simp only [List.length_cons]
    split at h
    · obtain ⟨h1, h2, h3⟩ := ih h; exact ⟨by omega, by omega, h3⟩
    · rcases List.mem_cons.mp h with rfl | h
      · exact ⟨Nat.le_refl _, by simp, by assumption⟩
      · obtain ⟨h1, h2, h3⟩ := ih h; exact ⟨by omega, by omega, h3⟩

theorem Memory.read_cellsOf (a : Nat) (bs : List Byte) (i : Nat) :
    Memory.read (Memory.cellsOf a bs) i = if a ≤ i then bs.getD (i - a) unlistedByte else unlistedByte := by
  induction bs generalizing a with
  | nil => simp [Memory.cellsOf]
  | cons b bs ih =>
    have hstep : (if a + 1 ≤ i then bs.getD (i - (a + 1)) unlistedByte else unlistedByte) =
        if a = i then unlistedByte else
          if a ≤ i then (b :: bs).getD (i - a) unlistedByte else unlistedByte := by
      by_cases h1 : a = i
      · subst h1; simp
      · by_cases h2 : a ≤ i
        · have h3 : i - a = (i - (a + 1)) + 1 := by omega
          rw [if_pos (by omega), if_neg h1, if_pos h2, h3, List.getD_cons_succ]
        · rw [if_neg (by omega), if_neg h1, if_neg h2]
    by_cases hb : b = unlistedByte
    · simp only [Memory.cellsOf, hb, if_true, ih, hstep]
      by_cases h1 : a = i
      · subst h1; simp
      · simp [h1]
    · simp only [Memory.cellsOf, if_neg hb, Memory.read_cons, ih, hstep]
      by_cases h1 : a = i
      · subst h1; simp
      · simp [h1]

/-- What a read gives after a write: the byte written there, and every other index as before (R41). -/
theorem Memory.read_writeBytes (m : Memory) (a : Nat) (bs : List Byte) (i : Nat) :
    (m.writeBytes a bs).read i =
      if a ≤ i ∧ i < a + bs.length then bs.getD (i - a) unlistedByte else m.read i := by
  have hmid : ∀ j, Memory.read (Memory.cellsOf a bs ++ m.filter fun c => a + bs.length ≤ c.1) j =
      if a ≤ j ∧ j < a + bs.length then bs.getD (j - a) unlistedByte
      else Memory.read (m.filter fun c => a + bs.length ≤ c.1) j := by
    intro j
    rw [Memory.read_append]
    by_cases hj : a ≤ j ∧ j < a + bs.length
    · rw [if_pos hj]
      split
      · rw [Memory.read_cellsOf, if_pos hj.1]
      · rename_i hn
        have h3 : Memory.read (Memory.cellsOf a bs) j = unlistedByte :=
          Memory.read_eq_unlisted fun c hc hcj => hn ⟨c, hc, hcj⟩
        rw [Memory.read_cellsOf, if_pos hj.1] at h3
        rw [h3, Memory.read_filter_of_false (by intro b; simp; omega)]
    · rw [if_neg hj, if_neg]
      rintro ⟨c, hc, rfl⟩
      have := Memory.cellsOf_bounds hc
      exact hj ⟨this.1, this.2.1⟩
  unfold Memory.writeBytes
  rw [List.append_assoc, Memory.read_append, hmid]
  by_cases h1 : i < a
  · have hc : ¬(a ≤ i ∧ i < a + bs.length) := by omega
    simp only [if_neg hc]
    split
    · exact Memory.read_filter_of_true (by intro b; simp [h1])
    · rename_i hn
      rw [Memory.read_filter_of_false (by intro b; simp; omega)]
      refine (Memory.read_eq_unlisted ?_).symm
      rintro c hcm rfl
      exact hn ⟨c, by simp [hcm, h1], rfl⟩
  · have hn : ¬∃ c ∈ m.filter (fun c => c.1 < a), c.1 = i := by
      rintro ⟨c, hc, rfl⟩
      simp only [List.mem_filter, decide_eq_true_eq] at hc
      omega
    rw [if_neg hn]
    by_cases h2 : i < a + bs.length
    · rw [if_pos ⟨by omega, h2⟩, if_pos ⟨by omega, h2⟩]
    · have hc : ¬(a ≤ i ∧ i < a + bs.length) := by omega
      rw [if_neg hc, if_neg hc]
      exact Memory.read_filter_of_true (by intro b; simp; omega)

/-- What a read gives after a compaction by `k ≤ len`: the bytes held move down, the vacated tail is
0, the indices from `len` up are as before (R42). -/
theorem Memory.read_compact (m : Memory) {k len : Nat} (hk : k ≤ len) (i : Nat) :
    (m.compact k len).read i =
      if i < len - k then m.read (i + k) else if i < len then unlistedByte else m.read i := by
  induction m with
  | nil => simp [Memory.compact]
  | cons c m ih =>
    obtain ⟨a, b⟩ := c
    have ih' := ih
    unfold Memory.compact at ih' ⊢
    rw [List.filterMap_cons]
    by_cases h1 : a < len
    · by_cases h2 : a < k
      · simp only [Memory.compactCell, h1, h2, if_true, ih', Memory.read_cons]
        rw [if_neg (by omega : ¬ a = i + k)]
        split_ifs <;> first | rfl | omega
      · simp only [Memory.compactCell, h1, h2, if_true, if_false, ih', Memory.read_cons]
        by_cases h3 : a - k = i
        · rw [if_pos h3, if_pos (by omega), if_pos (by omega)]
        · rw [if_neg h3, if_neg (by omega : ¬ a = i + k)]
          split_ifs <;> first | rfl | omega
    · simp only [Memory.compactCell, h1, if_false, ih', Memory.read_cons]
      split_ifs <;> first | rfl | omega

/-! ## The canonical form -/

theorem Memory.pairwise_cellsOf (a : Nat) (bs : List Byte) :
    (Memory.cellsOf a bs).Pairwise (fun x y => x.1 < y.1) := by
  induction bs generalizing a with
  | nil => exact List.Pairwise.nil
  | cons b bs ih =>
    simp only [Memory.cellsOf]
    split
    · exact ih _
    · exact List.Pairwise.cons (fun c hc => by have := Memory.cellsOf_bounds hc; simp; omega) (ih _)

/-- A write within the buffer keeps the canonical form. -/
theorem Memory.wf_writeBytes {m : Memory} (h : m.wf) {a : Nat} {bs : List Byte}
    (hb : a + bs.length ≤ Config.cap) : (m.writeBytes a bs).wf := by
  obtain ⟨hp, hv⟩ := h
  refine ⟨?_, ?_⟩
  · unfold Memory.writeBytes
    rw [List.pairwise_append, List.pairwise_append]
    refine ⟨⟨hp.filter _, Memory.pairwise_cellsOf a bs, ?_⟩, hp.filter _, ?_⟩
    · intro x hx y hy
      have := Memory.cellsOf_bounds hy
      simp at hx; omega
    · intro x hx y hy
      simp only [List.mem_filter, decide_eq_true_eq] at hy
      rcases List.mem_append.mp hx with hx | hx
      · simp at hx; omega
      · have := Memory.cellsOf_bounds hx; omega
  · intro c hc
    rcases List.mem_append.mp hc with hc | hc
    · rcases List.mem_append.mp hc with hc | hc
      · exact hv c (List.mem_of_mem_filter hc)
      · have := Memory.cellsOf_bounds hc
        exact ⟨this.2.2, by omega⟩
    · exact hv c (List.mem_of_mem_filter hc)

theorem Memory.compactCell_eq_some {k len : Nat} {c c' : Host.Cell}
    (h : Memory.compactCell k len c = some c') :
    (c.1 < len ∧ k ≤ c.1 ∧ c' = (c.1 - k, c.2)) ∨ (len ≤ c.1 ∧ c' = c) := by
  unfold Memory.compactCell at h
  split at h
  · split at h
    · cases h
    · cases h; exact .inl ⟨by assumption, by omega, rfl⟩
  · cases h; exact .inr ⟨by omega, rfl⟩

/-- A compaction keeps the canonical form. -/
theorem Memory.wf_compact {m : Memory} (h : m.wf) (k len : Nat) : (m.compact k len).wf := by
  obtain ⟨hp, hv⟩ := h
  refine ⟨?_, ?_⟩
  · refine List.Pairwise.filterMap _ ?_ hp
    intro x y hxy x' hx' y' hy'
    rcases Memory.compactCell_eq_some hx' with ⟨h1, h2, rfl⟩ | ⟨h1, rfl⟩ <;>
      rcases Memory.compactCell_eq_some hy' with ⟨h3, h4, rfl⟩ | ⟨h3, rfl⟩ <;> omega
  · intro c' hc'
    obtain ⟨c, hc, hcc⟩ := List.mem_filterMap.mp hc'
    have := hv c hc
    rcases Memory.compactCell_eq_some hcc with ⟨h1, h2, rfl⟩ | ⟨h1, rfl⟩
    · exact ⟨this.1, by simp; omega⟩
    · exact this

theorem Memory.read_of_mem {m : Memory} (h : m.wf) {c : Host.Cell} (hc : c ∈ m) : m.read c.1 = c.2 := by
  induction m with
  | nil => simp at hc
  | cons x m ih =>
    obtain ⟨a, b⟩ := x
    obtain ⟨hp, hv⟩ := h
    rw [List.pairwise_cons] at hp
    rw [Memory.read_cons]
    rcases List.mem_cons.mp hc with rfl | hc
    · simp
    · rw [if_neg (by have := hp.1 c hc; dsimp only at this; omega)]
      exact ih ⟨hp.2, fun c hc => hv c (by simp [hc])⟩ hc

/-- In the canonical form, memories that read alike everywhere are the same list. -/
theorem Memory.ext_of_read {m m' : Memory} (h : m.wf) (h' : m'.wf) (hr : ∀ i, m.read i = m'.read i) :
    m = m' := by
  have key : ∀ {m m' : Memory}, m.wf → m'.wf → (∀ i, m.read i = m'.read i) → ∀ c ∈ m, c ∈ m' := by
    intro m m' h h' hr c hc
    by_contra hn
    have h1 := Memory.read_of_mem h hc
    have h2 : m'.read c.1 = unlistedByte := by
      apply Memory.read_eq_unlisted
      intro c' hc' he
      have h3 := Memory.read_of_mem h' hc'
      rw [he, ← hr, h1] at h3
      exact hn ((Prod.ext he h3.symm : c' = c) ▸ hc')
    exact (h.2 c hc).1 (by rw [← h1, hr, h2])
  refine List.Perm.eq_of_pairwise (le := fun a b : Host.Cell => a.1 < b.1) ?_ h.1 h'.1 ?_
  · intro a b _ _ h1 h2; omega
  · rw [List.perm_ext_iff_of_nodup]
    · exact fun c => ⟨key h h' hr c, key h' h (fun i => (hr i).symm) c⟩
    · exact h.1.imp fun hab => by rintro rfl; omega
    · exact h'.1.imp fun hab => by rintro rfl; omega

/-! ## Blocks -/

@[simp] theorem Memory.readBytes_length (m : Memory) (a n : Nat) : (m.readBytes a n).length = n := by
  simp [Memory.readBytes]

theorem Memory.getElem_readBytes (m : Memory) (a n k : Nat) (h : k < (m.readBytes a n).length) :
    (m.readBytes a n)[k] = m.read (a + k) := by
  simp [Memory.readBytes]

/-- A part of a block is a block: the fields of a structure are reads at their offsets (R64). -/
theorem Memory.slice_readBytes (m : Memory) (a n o w : Nat) (h : o + w ≤ n) :
    slice (m.readBytes a n) o w = m.readBytes (a + o) w := by
  apply List.ext_getElem
  · simp [slice]; omega
  · intro k h1 h2
    simp [slice, Memory.readBytes, Nat.add_assoc]

/-- Blocks of equal bytes are equal. -/
theorem Memory.readBytes_congr {m m' : Memory} {a a' n : Nat}
    (h : ∀ k < n, m.read (a + k) = m'.read (a' + k)) : m.readBytes a n = m'.readBytes a' n := by
  unfold Memory.readBytes
  exact List.map_congr_left fun k hk => h k (List.mem_range.mp hk)

end Sys2Proof.Machine
end

