-- ==== Sys2Proof/Laws/State.lean ====
section
/-! SUPPORT. One lemma per field per update of the state, so that no later proof unfolds a record
update. -/

namespace Sys2Proof.Machine

section finish
variable (ov : Bool) (r : Result) (s : State)
@[simp] theorem finish_fb : (s.finish ov r).fb = s.fb := rfl
@[simp] theorem finish_tracker : (s.finish ov r).tracker = s.tracker := rfl
@[simp] theorem finish_txn : (s.finish ov r).txn = none := rfl
@[simp] theorem finish_params : (s.finish ov r).params = s.params := rfl
@[simp] theorem finish_pending : (s.finish ov r).pending = s.pending := rfl
@[simp] theorem finish_outcome :
    (s.finish ov r).outcome = some { result := r, overflow := ov, status := s.status } := rfl
@[simp] theorem finish_status : (s.finish ov r).status = s.status := rfl
end finish

section noData
variable (ov : Bool) (r : NoDataReason) (s : State)
@[simp] theorem noData_fb : (s.noData ov r).fb = s.fb := rfl
@[simp] theorem noData_tracker : (s.noData ov r).tracker = s.tracker := rfl
@[simp] theorem noData_txn : (s.noData ov r).txn = none := rfl
@[simp] theorem noData_params : (s.noData ov r).params = s.params := rfl
@[simp] theorem noData_pending : (s.noData ov r).pending = s.pending := rfl
@[simp] theorem noData_outcome :
    (s.noData ov r).outcome = some { result := .noData r, overflow := ov, status := s.status } := rfl
end noData

section truncate
variable (ov : Bool) (r : TruncReason) (s : State)
@[simp] theorem truncate_fb : (s.truncate ov r).fb = s.fb.recover := rfl
@[simp] theorem truncate_tracker : (s.truncate ov r).tracker = s.tracker := rfl
@[simp] theorem truncate_txn : (s.truncate ov r).txn = none := rfl
@[simp] theorem truncate_params : (s.truncate ov r).params = s.params := rfl
@[simp] theorem truncate_pending : (s.truncate ov r).pending = s.pending := rfl
@[simp] theorem truncate_outcome :
    (s.truncate ov r).outcome =
      some
        { result := .truncated r
          overflow := ov
          status := State.status { s with fb := s.fb.recover } } := rfl
end truncate

section noSync
variable (ov : Bool) (s : State)
@[simp] theorem noSync_fb : (s.noSync ov).fb = s.fb.trim := rfl
@[simp] theorem noSync_tracker : (s.noSync ov).tracker = s.tracker := rfl
@[simp] theorem noSync_txn : (s.noSync ov).txn = none := rfl
@[simp] theorem noSync_params : (s.noSync ov).params = s.params := rfl
@[simp] theorem noSync_pending : (s.noSync ov).pending = s.pending := rfl
@[simp] theorem noSync_outcome :
    (s.noSync ov).outcome =
      some
        { result := .noData .noSync
          overflow := ov
          status := State.status { s with fb := s.fb.trim } } := rfl
end noSync

section appendChunk
variable (c : List Byte) (s : State)
@[simp] theorem appendChunk_fb : (s.appendChunk c).fb = s.fb.append c := rfl
@[simp] theorem appendChunk_tracker : (s.appendChunk c).tracker = s.tracker := rfl
@[simp] theorem appendChunk_txn : (s.appendChunk c).txn = s.txn := rfl
@[simp] theorem appendChunk_params : (s.appendChunk c).params = s.params := rfl
@[simp] theorem appendChunk_pending : (s.appendChunk c).pending = s.pending := rfl
@[simp] theorem appendChunk_outcome : (s.appendChunk c).outcome = s.outcome := rfl
end appendChunk

section commitFrame
variable (ov : Bool) (d : FrameDecode) (s : State)
@[simp] theorem commitFrame_fb : (s.commitFrame ov d).fb = s.fb.consume d.frameEnd := rfl
@[simp] theorem commitFrame_tracker :
    (s.commitFrame ov d).tracker = s.tracker.afterFrame s.params d := rfl
@[simp] theorem commitFrame_txn : (s.commitFrame ov d).txn = none := rfl
@[simp] theorem commitFrame_params : (s.commitFrame ov d).params = s.params := rfl
@[simp] theorem commitFrame_pending : (s.commitFrame ov d).pending = s.pending := rfl
theorem commitFrame_outcome :
    (s.commitFrame ov d).outcome =
      some
        { result := .frame d.frameRecord
          overflow := ov
          status := (s.commitFrame ov d).status } := rfl
end commitFrame

section resetS
variable (s : State)
@[simp] theorem resetS_fb : s.resetS.fb = { cells := [], len := 0 } := rfl
@[simp] theorem resetS_tracker :
    s.resetS.tracker = { Tracker.reset with freeCount := s.tracker.freeCount } := rfl
@[simp] theorem resetS_txn : s.resetS.txn = s.txn := rfl
@[simp] theorem resetS_params : s.resetS.params = s.params := rfl
@[simp] theorem resetS_pending : s.resetS.pending = s.pending := rfl
@[simp] theorem resetS_outcome : s.resetS.outcome = s.outcome := rfl
end resetS

section beginIngest
variable (c : List Byte) (s : State)
@[simp] theorem beginIngest_fb : (s.beginIngest c).fb = s.fb.append c := rfl
@[simp] theorem beginIngest_tracker : (s.beginIngest c).tracker = s.tracker := rfl
@[simp] theorem beginIngest_txn :
    (s.beginIngest c).txn = some { overflow := s.fb.overflows c, stage := .seek } := rfl
@[simp] theorem beginIngest_params : (s.beginIngest c).params = s.params := rfl
@[simp] theorem beginIngest_pending : (s.beginIngest c).pending = s.pending := rfl
@[simp] theorem beginIngest_outcome : (s.beginIngest c).outcome = s.outcome := rfl
end beginIngest

section status
variable (s : State)
@[simp] theorem status_len : s.status.len = BitVec.ofNat 16 s.fb.len := rfl
@[simp] theorem status_entered : s.status.entered = s.tracker.entered := rfl
@[simp] theorem status_exited : s.status.exited = s.tracker.exited := rfl
@[simp] theorem status_trackFault : s.status.trackFault = s.tracker.trackFault := rfl
end status

/-- `inBuffer` is transparent in every state whose `len` is at most `CAP`. -/
theorem inBuffer_of_le {s : State} (h : s.fb.len ≤ Config.cap)
    (k : Host.Outcome State Fault Refusal) : s.inBuffer k = k := by
  unfold State.inBuffer; rw [if_neg (by omega)]

theorem inBuffer_eq_next {s t : State} {k : Host.Outcome State Fault Refusal}
    (h : s.inBuffer k = .next t) : s.fb.len ≤ Config.cap ∧ k = .next t := by
  unfold State.inBuffer at h
  split at h
  · cases h
  · exact ⟨by omega, h⟩

end Sys2Proof.Machine
end

