-- ==== Sys2Proof/Laws/Buffer.lean ====
section
/-! SUPPORT. The laws of the FrameBuffer operations (spec/40_framebuffer.md): length, contents and
legality after each, and what the sync search answers. -/

namespace Sys2Proof.Machine

/-! ## append -/

theorem append_of_overflows {fb : FrameBuffer} {c : List Byte} (h : fb.overflows c = true) :
    fb.append c = fb := by
  unfold FrameBuffer.append; rw [if_pos h]

theorem append_of_fits {fb : FrameBuffer} {c : List Byte} (h : fb.overflows c = false) :
    fb.append c = { cells := fb.cells.writeBytes fb.len c, len := fb.len + c.length } := by
  unfold FrameBuffer.append; rw [if_neg (by simp [h])]

theorem overflows_iff {fb : FrameBuffer} {c : List Byte} :
    fb.overflows c = true ↔ Config.cap < fb.len + c.length := by
  simp [FrameBuffer.overflows]

theorem overflows_eq_false_iff {fb : FrameBuffer} {c : List Byte} :
    fb.overflows c = false ↔ fb.len + c.length ≤ Config.cap := by
  simp [FrameBuffer.overflows]

/-- `append` keeps `len ≤ CAP` (R102). -/
theorem append_len_le {fb : FrameBuffer} (h : fb.len ≤ Config.cap) (c : List Byte) :
    (fb.append c).len ≤ Config.cap := by
  cases hc : fb.overflows c
  · rw [append_of_fits hc]; exact overflows_eq_false_iff.mp hc
  · rwa [append_of_overflows hc]

/-- `append` keeps the buffer legal. -/
theorem append_wf {fb : FrameBuffer} (h : fb.wf) (c : List Byte) : (fb.append c).wf := by
  cases hc : fb.overflows c
  · rw [append_of_fits hc]
    have hl := overflows_eq_false_iff.mp hc
    refine ⟨Memory.wf_writeBytes h.1 hl, hl, ?_⟩
    intro x hx
    simp only [Memory.writeBytes, List.mem_append, List.mem_filter, decide_eq_true_eq] at hx
    rcases hx with (hx | hx) | hx
    · dsimp only; omega
    · exact (Memory.cellsOf_bounds hx).2.1
    · have := h.2.2 x hx.1; dsimp only; omega
  · rwa [append_of_overflows hc]

/-! ## discardBefore -/

@[simp] theorem discardBefore_len (fb : FrameBuffer) (k : Nat) :
    (fb.discardBefore k).len = fb.len - k := rfl

/-- What a byte reads as after `discardBefore(k)` (R103). -/
theorem discardBefore_read {fb : FrameBuffer} {k : Nat} (hk : k ≤ fb.len) (i : Nat) :
    (fb.discardBefore k).cells.read i =
      if i < fb.len - k then fb.cells.read (i + k)
      else if i < fb.len then unlistedByte else fb.cells.read i :=
  Memory.read_compact _ hk i

/-- `discardBefore` keeps the buffer legal. -/
theorem discardBefore_wf {fb : FrameBuffer} (h : fb.wf) {k : Nat} (hk : k ≤ fb.len) :
    (fb.discardBefore k).wf := by
  refine ⟨Memory.wf_compact h.1 _ _, by have := h.2.1; simp; omega, ?_⟩
  intro c' hc'
  obtain ⟨c, hc, hcc⟩ := List.mem_filterMap.mp hc'
  have := h.2.2 c hc
  rcases Memory.compactCell_eq_some hcc with ⟨h1, h2, rfl⟩ | ⟨h1, rfl⟩
  · simp; omega
  · omega

/-- `discardBefore(0)` changes nothing (R103). -/
@[simp] theorem discardBefore_zero (fb : FrameBuffer) : fb.discardBefore 0 = fb := by
  have h : Memory.compact fb.cells 0 fb.len = fb.cells := by
    unfold Memory.compact
    have : Memory.compactCell 0 fb.len = some := by
      funext c; simp [Memory.compactCell]
    rw [this, List.filterMap_some]
  simp [FrameBuffer.discardBefore, h]

/-- A legal buffer of length 0 is the empty one. -/
theorem eq_empty_of_wf {fb : FrameBuffer} (h : fb.wf) (hl : fb.len = 0) :
    fb = { cells := [], len := 0 } := by
  obtain ⟨cells, len⟩ := fb
  dsimp only at hl
  subst hl
  cases cells with
  | nil => rfl
  | cons c m => have := h.2.2 c (by simp); simp at this

/-- Recovery empties a legal buffer (R206). -/
theorem recover_of_wf {fb : FrameBuffer} (h : fb.wf) : fb.recover = { cells := [], len := 0 } :=
  eq_empty_of_wf (discardBefore_wf h (Nat.le_refl _)) (by simp [FrameBuffer.recover])

/-- The trim keeps the buffer legal and at most 7 bytes long (R105). -/
theorem trim_len (fb : FrameBuffer) : fb.trim.len = min fb.len Config.trimKeep := by
  unfold FrameBuffer.trim
  split
  · simp only [discardBefore_len]; omega
  · omega

theorem trim_wf {fb : FrameBuffer} (h : fb.wf) : fb.trim.wf := by
  unfold FrameBuffer.trim
  split
  · exact discardBefore_wf h (by omega)
  · exact h

/-! ## The sync search -/

/-- A valid sync offset lies within the bytes held and the 8 bytes there are the marker (R61). -/
theorem syncAt_iff {fb : FrameBuffer} {p : Nat} :
    fb.syncAt p = true ↔
      p + Config.markerLen ≤ fb.len ∧ fb.cells.readBytes p Config.markerLen = Config.marker := by
  unfold FrameBuffer.syncAt
  simp only [Bool.and_eq_true, decide_eq_true_eq, beq_iff_eq]
  refine ⟨fun h => ⟨h.1, h.2.2⟩, fun h => ⟨h.1, ?_, h.2⟩⟩
  have h1 := congrArg (fun l => l.getD 0 0) h.2
  simpa [Memory.readBytes, Config.markerLen, Config.marker, List.range_succ] using h1

/-- What the true sync offset is: the smallest valid offset (R17, R106). -/
theorem trueSync_eq_some_iff {fb : FrameBuffer} {p : Nat} :
    fb.trueSync = some p ↔ fb.syncAt p = true ∧ ∀ q < p, fb.syncAt q = false := by
  unfold FrameBuffer.trueSync FrameBuffer.findSync
  rw [List.head?_filter, List.find?_range_eq_some]
  simp only [List.mem_range]
  constructor
  · rintro ⟨h1, h2, h3⟩; exact ⟨h1, fun q hq => by simpa using h3 q hq⟩
  · rintro ⟨h1, h2⟩
    refine ⟨h1, ?_, fun q hq => by simp [h2 q hq]⟩
    have := (syncAt_iff.mp h1).1
    simp only [Config.markerLen] at this
    omega

/-- There is no true sync offset exactly when no offset is valid (R105). -/
theorem trueSync_eq_none_iff {fb : FrameBuffer} :
    fb.trueSync = none ↔ ∀ p, fb.syncAt p = false := by
  unfold FrameBuffer.trueSync FrameBuffer.findSync
  rw [List.head?_eq_none_iff, List.filter_eq_nil_iff]
  constructor
  · intro h p
    by_contra hp
    have hp' : fb.syncAt p = true := by simpa using hp
    have := (syncAt_iff.mp hp').1
    simp only [Config.markerLen] at this
    exact h p (List.mem_range.mpr (by omega)) hp'
  · intro h p _; simp [h p]

/-- The true sync offset leaves room for the marker behind it. -/
theorem trueSync_le {fb : FrameBuffer} {p : Nat} (h : fb.trueSync = some p) :
    p + Config.markerLen ≤ fb.len := (syncAt_iff.mp (trueSync_eq_some_iff.mp h).1).1

/-- After the alignment the marker is at index 0 (R106). -/
theorem syncAt_zero_of_trueSync {fb : FrameBuffer} {p : Nat} (h : fb.trueSync = some p) :
    (fb.discardBefore p).syncAt 0 = true := by
  have hp := syncAt_iff.mp (trueSync_eq_some_iff.mp h).1
  have hm : Config.markerLen = 8 := rfl
  rw [syncAt_iff]
  refine ⟨by simp only [discardBefore_len]; omega, ?_⟩
  rw [← hp.2]
  apply Memory.readBytes_congr
  intro k hk
  rw [discardBefore_read (by omega), if_pos (by omega)]
  congr 1; omega

/-- A marker at index 0 is the true sync offset. -/
theorem trueSync_of_syncAt_zero {fb : FrameBuffer} (h : fb.syncAt 0 = true) :
    fb.trueSync = some 0 :=
  trueSync_eq_some_iff.mpr ⟨h, by omega⟩

end Sys2Proof.Machine
end

