-- ==== Sys2Proof/Laws/PerInstr.lean ====
section
/-! SUPPORT. Statements made for each constructor of `Instr`: the number of bytes an instruction is
written in (spec/30_encoding.md R60). -/

namespace Sys2Proof.Laws.EncodedLength

/-- How many bytes a format's instructions have: the marker 8, the header 52, a sub-header 8, a
transaction its op byte and its chunk (R60, R73). -/
def bytesOf : Instr → Nat
  | .syncMarker => 8
  | .frameHeader _ => 52
  | .tlvPointCloud _ => 8
  | .tlvTargetList _ => 8
  | .tlvTargetIndex _ => 8
  | .tlvUnknown _ _ => 8
  | .ingest chunk => 1 + chunk.length
  | .reset chunk => 1 + chunk.length

/-- A well-formed instruction is written in as many bytes as its format has. -/
def Statement (i : Instr) : Prop := i.wellFormed = true → (encode i).length = bytesOf i

theorem syncMarker : Statement .syncMarker := fun _ => rfl

theorem frameHeader (h : Header) : Statement (.frameHeader h) := by
  intro hw
  have hm : h.magic = Config.marker := by
    simpa [Instr.wellFormed, Header.wellFormed] using hw
  simp [encode, encodeHeader, bytesOf, hm, Config.marker]

theorem tlvPointCloud (length : U32) : Statement (.tlvPointCloud length) := by
  intro _; simp [encode, encodeSubHeader, bytesOf]

theorem tlvTargetList (length : U32) : Statement (.tlvTargetList length) := by
  intro _; simp [encode, encodeSubHeader, bytesOf]

theorem tlvTargetIndex (length : U32) : Statement (.tlvTargetIndex length) := by
  intro _; simp [encode, encodeSubHeader, bytesOf]

theorem tlvUnknown (type length : U32) : Statement (.tlvUnknown type length) := by
  intro _; simp [encode, encodeSubHeader, bytesOf]

theorem ingest (chunk : List Byte) : Statement (.ingest chunk) := by
  intro _; simp [encode, Transaction.bytes, bytesOf]; omega

theorem reset (chunk : List Byte) : Statement (.reset chunk) := by
  intro _; simp [encode, Transaction.bytes, bytesOf]; omega

end Sys2Proof.Laws.EncodedLength
end

