-- ==== Sys2Proof/Laws/Tracker.lean ====
section
/-! SUPPORT. The laws of the OccupancyTracker (spec/43_occupancy.md): the history store, sampling,
evaluation, and that each keeps the tracker legal. -/

namespace Sys2Proof.Machine

/-! ## The history store -/

theorem U32.ne_of_lt {a b : U32} (h : a < b) : a ≠ b := by
  rintro rfl; exact BitVec.lt_irrefl a h

theorem U32.lt_trans {a b c : U32} (h : a < b) (h' : b < c) : a < c := BitVec.lt_trans h h'

theorem U32.lt_of_not {a b : U32} (h : ¬a < b) (hne : a ≠ b) : b < a := by
  rw [BitVec.lt_def] at h ⊢
  have : a.toNat ≠ b.toNat := fun hh => hne (BitVec.eq_of_toNat_eq hh)
  omega

theorem Hist.get_eq_nil {h : Hist} {id : U32} (hn : ∀ e ∈ h, e.1 ≠ id) : h.get id = [] := by
  induction h with
  | nil => rfl
  | cons e h ih =>
    obtain ⟨k, xs⟩ := e
    rw [Hist.get, if_neg (hn (k, xs) (by simp))]
    exact ih fun e he => hn e (by simp [he])

theorem Hist.wf_tail {e : U32 × List F32} {h : Hist} (hw : Hist.wf (e :: h)) : h.wf :=
  ⟨(List.pairwise_cons.mp hw.1).2, fun x hx => hw.2 x (by simp [hx])⟩

theorem Hist.get_of_mem {h : Hist} (hw : h.wf) {e : U32 × List F32} (he : e ∈ h) : h.get e.1 = e.2 := by
  induction h with
  | nil => simp at he
  | cons x h ih =>
    obtain ⟨k, xs⟩ := x
    have hp := (List.pairwise_cons.mp hw.1).1
    rw [Hist.get]
    rcases List.mem_cons.mp he with rfl | he
    · simp
    · have hlt := hp e he
      rw [if_neg (U32.ne_of_lt hlt)]
      exact ih (Hist.wf_tail hw) he

/-- An id has samples exactly when it is listed (R25, R26). -/
theorem Hist.get_ne_nil_iff {h : Hist} (hw : h.wf) {id : U32} : h.get id ≠ [] ↔ id ∈ h.ids := by
  constructor
  · intro hg
    by_contra hn
    exact hg (Hist.get_eq_nil fun e he hid => hn (List.mem_map.mpr ⟨e, he, hid⟩))
  · intro hm
    obtain ⟨e, he, rfl⟩ := List.mem_map.mp hm
    rw [Hist.get_of_mem hw he]
    exact hw.2 e he

theorem Hist.mem_push {h : Hist} {id : U32} {x : F32} {e : U32 × List F32} (he : e ∈ h.push id x) :
    e ∈ h ∨ e.1 = id := by
  induction h with
  | nil => simp [Hist.push] at he; exact .inr (by rw [he])
  | cons y h ih =>
    obtain ⟨k, xs⟩ := y
    simp only [Hist.push] at he
    split at he
    · rcases List.mem_cons.mp he with rfl | he
      · exact .inr rfl
      · exact .inl he
    · split at he
      · rcases List.mem_cons.mp he with rfl | he
        · rename_i hk; exact .inr hk.symm
        · exact .inl (by simp [he])
      · rcases List.mem_cons.mp he with rfl | he
        · exact .inl (by simp)
        · rcases ih he with h1 | h1
          · exact .inl (by simp [h1])
          · exact .inr h1

/-- `push` keeps the canonical form. -/
theorem Hist.wf_push {h : Hist} (hw : h.wf) (id : U32) (x : F32) : (h.push id x).wf := by
  induction h with
  | nil => simp [Hist.push, Hist.wf]
  | cons y h ih =>
    obtain ⟨k, xs⟩ := y
    have hp := List.pairwise_cons.mp hw.1
    have hne := hw.2 (k, xs) (by simp)
    simp only [Hist.push]
    split
    · rename_i hlt
      refine ⟨List.pairwise_cons.mpr ⟨?_, hw.1⟩, ?_⟩
      · intro e he
        rcases List.mem_cons.mp he with rfl | he
        · exact hlt
        · exact U32.lt_trans hlt (hp.1 e he)
      · intro e he
        rcases List.mem_cons.mp he with rfl | he
        · simp
        · exact hw.2 e he
    · rename_i hnlt
      split
      · refine ⟨List.pairwise_cons.mpr ⟨hp.1, hp.2⟩, ?_⟩
        intro e he
        rcases List.mem_cons.mp he with rfl | he
        · simp
        · exact hw.2 e (by simp [he])
      · rename_i hne'
        have ih' := ih (Hist.wf_tail hw)
        refine ⟨List.pairwise_cons.mpr ⟨?_, ih'.1⟩, ?_⟩
        · intro e he
          rcases Hist.mem_push he with h1 | h1
          · exact hp.1 e h1
          · dsimp only; rw [h1]; exact U32.lt_of_not hnlt hne'
        · intro e he
          rcases List.mem_cons.mp he with rfl | he
          · exact hne
          · exact ih'.2 e he

/-- What `push` does: the id's history gets the sample at its end, every other history is as before
(R152). -/
theorem Hist.get_push {h : Hist} (hw : h.wf) (id : U32) (x : F32) (id' : U32) :
    (h.push id x).get id' = if id' = id then h.get id ++ [x] else h.get id' := by
  induction h with
  | nil =>
    by_cases hid : id' = id
    · subst hid; simp [Hist.push, Hist.get]
    · simp [Hist.push, Hist.get, hid, Ne.symm hid]
  | cons y h ih =>
    obtain ⟨k, xs⟩ := y
    have hp := (List.pairwise_cons.mp hw.1).1
    have ih' := ih (Hist.wf_tail hw)
    simp only [Hist.push]
    split
    · rename_i hlt
      by_cases hid : id' = id
      · subst hid
        have h1 : Hist.get ((k, xs) :: h) id' = [] := by
          apply Hist.get_eq_nil
          intro e he
          rcases List.mem_cons.mp he with rfl | he
          · exact (U32.ne_of_lt hlt).symm
          · exact (U32.ne_of_lt (U32.lt_trans hlt (hp e he))).symm
        rw [if_pos rfl, h1, Hist.get, if_pos rfl]; rfl
      · rw [if_neg hid, Hist.get, if_neg (Ne.symm hid)]
    · rename_i hnlt
      split
      · rename_i hk
        subst hk
        by_cases hid : id' = id
        · subst hid; simp [Hist.get]
        · simp [Hist.get, hid, Ne.symm hid]
      · rename_i hk
        rw [Hist.get, ih', Hist.get, Hist.get]
        by_cases hid : id' = id
        · subst hid
          rw [if_neg (fun hh => hk hh.symm), if_pos rfl, if_pos rfl, if_neg (fun hh => hk hh.symm)]
        · rw [if_neg hid, if_neg hid]

/-- `push` lists a new id exactly when it had no samples. -/
theorem Hist.idCount_push {h : Hist} (hw : h.wf) (id : U32) (x : F32) :
    (h.push id x).idCount = h.idCount + (if h.get id = [] then 1 else 0) := by
  induction h with
  | nil => simp [Hist.push, Hist.idCount, Hist.get]
  | cons y h ih =>
    obtain ⟨k, xs⟩ := y
    have hp := (List.pairwise_cons.mp hw.1).1
    have hne := hw.2 (k, xs) (by simp)
    have ih' := ih (Hist.wf_tail hw)
    simp only [Hist.idCount] at ih' ⊢
    simp only [Hist.push]
    split
    · rename_i hlt
      have h1 : Hist.get ((k, xs) :: h) id = [] := by
        apply Hist.get_eq_nil
        intro e he
        rcases List.mem_cons.mp he with rfl | he
        · exact (U32.ne_of_lt hlt).symm
        · exact (U32.ne_of_lt (U32.lt_trans hlt (hp e he))).symm
      rw [if_pos h1]; simp
    · split
      · rename_i hk
        subst hk
        rw [if_neg (by rw [Hist.get, if_pos rfl]; exact hne)]; simp
      · rename_i hk
        have h1 : Hist.get ((k, xs) :: h) id = Hist.get h id := by
          rw [Hist.get, if_neg fun hh => hk hh.symm]
        rw [h1, List.length_cons, ih', List.length_cons]; omega

/-- `clear` empties one history and leaves the others (R155). -/
theorem Hist.get_clear (h : Hist) (id id' : U32) :
    (h.clear id).get id' = if id' = id then [] else h.get id' := by
  induction h with
  | nil => simp [Hist.clear, Hist.get]
  | cons y h ih =>
    obtain ⟨k, xs⟩ := y
    unfold Hist.clear at ih ⊢
    by_cases hk : k = id
    · subst hk
      rw [List.filter_cons_of_neg (by simp), ih, Hist.get]
      by_cases hid : id' = k
      · rw [if_pos hid, if_pos hid]
      · rw [if_neg hid, if_neg hid, if_neg (Ne.symm hid)]
    · rw [List.filter_cons_of_pos (by simpa using hk), Hist.get, ih, Hist.get]
      by_cases hid : id' = id
      · subst hid; rw [if_neg hk, if_pos rfl, if_pos rfl]
      · rw [if_neg hid, if_neg hid]

/-- `clear` keeps the canonical form. -/
theorem Hist.wf_clear {h : Hist} (hw : h.wf) (id : U32) : (h.clear id).wf :=
  ⟨hw.1.filter _, fun e he => hw.2 e (List.mem_of_mem_filter he)⟩

/-! ## Sampling -/

/-- Everything a sample can do (R152): nothing on an out-of-band `posX`, the fault where the store is
full, one more sample otherwise. -/
theorem sample_cases (p : Config.Params) (tr : Tracker) (t : Target) :
    (inBand t.posX = false ∧ tr.sample p t = tr) ∨
    (inBand t.posX = true ∧ tr.full p t.id = true ∧ tr.sample p t = { tr with trackFault := true }) ∨
    (inBand t.posX = true ∧ tr.full p t.id = false ∧
      tr.sample p t = { tr with hist := tr.hist.push t.id t.posX }) := by
  unfold Tracker.sample
  cases inBand t.posX
  · exact .inl ⟨rfl, rfl⟩
  · cases tr.full p t.id
    · exact .inr (.inr ⟨rfl, rfl, rfl⟩)
    · exact .inr (.inl ⟨rfl, rfl, rfl⟩)

/-- A sample changes no counter (R161). -/
@[simp] theorem sample_entered (p : Config.Params) (tr : Tracker) (t : Target) :
    (tr.sample p t).entered = tr.entered := by
  rcases sample_cases p tr t with ⟨_, h⟩ | ⟨_, _, h⟩ | ⟨_, _, h⟩ <;> rw [h]

@[simp] theorem sample_exited (p : Config.Params) (tr : Tracker) (t : Target) :
    (tr.sample p t).exited = tr.exited := by
  rcases sample_cases p tr t with ⟨_, h⟩ | ⟨_, _, h⟩ | ⟨_, _, h⟩ <;> rw [h]

@[simp] theorem sample_freeCount (p : Config.Params) (tr : Tracker) (t : Target) :
    (tr.sample p t).freeCount = tr.freeCount := by
  rcases sample_cases p tr t with ⟨_, h⟩ | ⟨_, _, h⟩ | ⟨_, _, h⟩ <;> rw [h]

/-- When the store is not full for an id (R152). -/
theorem full_eq_false_iff {p : Config.Params} {tr : Tracker} {id : U32} :
    tr.full p id = false ↔
      (tr.hist.get id = [] → p.maxIds ≠ some tr.hist.idCount) ∧
        p.histDepth ≠ some (tr.hist.get id).length := by
  unfold Tracker.full
  simp [Bool.or_eq_false_iff, imp_iff_not_or]

theorem mem_ids_push_length {h : Hist} (hw : h.wf) {id : U32} {x : F32} {n : Nat}
    (hn : ∀ e ∈ h, e.2.length ≤ n) (hl : (h.get id).length + 1 ≤ n) :
    ∀ e ∈ h.push id x, e.2.length ≤ n := by
  intro e he
  rw [← Hist.get_of_mem (Hist.wf_push hw id x) he, Hist.get_push hw]
  split
  · simpa using hl
  · rename_i hne
    rcases Hist.mem_push he with h1 | h1
    · rw [Hist.get_of_mem hw h1]; exact hn e h1
    · exact absurd h1 hne

/-- No history is longer than the depth bound. -/
theorem get_length_le {h : Hist} {n : Nat} (hn : ∀ e ∈ h, e.2.length ≤ n) (id : U32) :
    (h.get id).length ≤ n := by
  induction h with
  | nil => simp [Hist.get]
  | cons y h ih =>
    obtain ⟨k, xs⟩ := y
    rw [Hist.get]
    split
    · exact hn (k, xs) (by simp)
    · exact ih fun e he => hn e (by simp [he])

/-- A sample keeps the tracker legal. -/
theorem sample_wf {p : Config.Params} {tr : Tracker} (h : tr.wf p) (t : Target) :
    (tr.sample p t).wf p := by
  obtain ⟨hw, hi, hd, hf⟩ := h
  rcases sample_cases p tr t with ⟨_, he⟩ | ⟨_, hfull, he⟩ | ⟨_, hfull, he⟩ <;> rw [he]
  · exact ⟨hw, hi, hd, hf⟩
  · refine ⟨hw, hi, hd, fun h1 h2 => ?_⟩
    simp [Tracker.full, h1, h2] at hfull
  · rw [full_eq_false_iff] at hfull
    refine ⟨Hist.wf_push hw _ _, ?_, ?_, hf⟩
    · cases hm : p.maxIds with
      | none => rfl
      | some n =>
        rw [hm] at hi hfull
        simp only [Option.all_some, decide_eq_true_eq] at hi ⊢
        rw [Hist.idCount_push hw]
        split
        · rename_i hnil
          have := hfull.1 hnil
          have : tr.hist.idCount ≠ n := fun hh => this (by rw [hh])
          omega
        · omega
    · cases hm : p.histDepth with
      | none => rfl
      | some n =>
        rw [hm] at hd hfull
        simp only [Option.all_some, List.all_eq_true, decide_eq_true_eq] at hd ⊢
        refine mem_ids_push_length hw hd ?_
        have h1 := get_length_le hd t.id
        have h2 : (tr.hist.get t.id).length ≠ n := fun hh => hfull.2 (by rw [hh])
        omega

/-! ## Evaluation -/

@[simp] theorem evaluate_hist (tr : Tracker) (id : U32) :
    (tr.evaluate id).hist = tr.hist.clear id := by
  unfold Tracker.evaluate; split <;> rfl

@[simp] theorem evaluate_trackFault (tr : Tracker) (id : U32) :
    (tr.evaluate id).trackFault = tr.trackFault := by
  unfold Tracker.evaluate; split <;> rfl

/-- Everything an evaluation does to the counters (R155). -/
theorem evaluate_counters (tr : Tracker) (id : U32) :
    (firstCrossing (tr.hist.get id) = .negToPos ∧
      (tr.evaluate id).entered = bump tr.entered tr.freeCount ∧
      (tr.evaluate id).exited = tr.exited) ∨
    (firstCrossing (tr.hist.get id) = .posToNeg ∧
      (tr.evaluate id).entered = tr.entered ∧
      (tr.evaluate id).exited = bump tr.exited tr.freeCount) ∨
    (firstCrossing (tr.hist.get id) = .none ∧
      (tr.evaluate id).entered = tr.entered ∧ (tr.evaluate id).exited = tr.exited) := by
  unfold Tracker.evaluate
  split <;> rename_i h
  · exact .inl ⟨h, rfl, rfl⟩
  · exact .inr (.inl ⟨h, rfl, rfl⟩)
  · exact .inr (.inr ⟨h, rfl, rfl⟩)

/-- Below the limit an increment is `+ 1` (R28). -/
theorem bump_of_lt {c : U32} (h : c.toNat + 1 < 2 ^ 32) (n : Nat) : bump c n = c + 1 := by
  unfold bump
  rw [if_neg]
  rintro rfl
  simp at h

/-- Evaluating some ids empties their histories and no other. -/
theorem foldl_evaluate_hist (l : List U32) (tr : Tracker) :
    (l.foldl Tracker.evaluate tr).hist = tr.hist.filter fun e => e.1 ∉ l := by
  induction l generalizing tr with
  | nil => simp
  | cons a l ih =>
    rw [List.foldl_cons, ih, evaluate_hist, Hist.clear, List.filter_filter]
    congr 1; funext e
    by_cases h1 : e.1 = a <;> by_cases h2 : e.1 ∈ l <;> simp [h1, h2]

theorem foldl_evaluate_trackFault (l : List U32) (tr : Tracker) :
    (l.foldl Tracker.evaluate tr).trackFault = tr.trackFault := by
  induction l generalizing tr with
  | nil => rfl
  | cons a l ih => rw [List.foldl_cons, ih, evaluate_trackFault]

@[simp] theorem evaluateAll_trackFault (tr : Tracker) :
    tr.evaluateAll.trackFault = tr.trackFault := foldl_evaluate_trackFault _ _

/-- The tracker is legal with an empty history store. -/
theorem wf_of_hist_nil {p : Config.Params} {tr : Tracker} (h : tr.hist = [])
    (hf : p.maxIds = none → p.histDepth = none → tr.trackFault = false) : tr.wf p := by
  refine ⟨by rw [h]; simp [Hist.wf], ?_, ?_, hf⟩
  · cases p.maxIds <;> simp [h, Hist.idCount]
  · cases p.histDepth <;> simp [h]

theorem evaluateAll_hist_eq_filter (tr : Tracker) :
    tr.evaluateAll.hist = tr.hist.filter fun e => e.1 ∉ tr.hist.ids := foldl_evaluate_hist _ _

/-- A window evaluation keeps the tracker legal. -/
theorem evaluateAll_wf {p : Config.Params} {tr : Tracker} (h : tr.wf p) : tr.evaluateAll.wf p := by
  refine wf_of_hist_nil ?_ (by simpa using h.2.2.2)
  rw [evaluateAll_hist_eq_filter, List.filter_eq_nil_iff]
  intro e he
  have : e.1 ∈ tr.hist.ids := List.mem_map.mpr ⟨e, he, rfl⟩
  simpa using this

/-! ## The commit -/

theorem sampleAll_wf {p : Config.Params} {tr : Tracker} (h : tr.wf p) (tl : List Target) :
    (tr.sampleAll p tl).wf p := by
  unfold Tracker.sampleAll
  induction tl generalizing tr with
  | nil => exact h
  | cons t tl ih => exact ih (sample_wf h t)

/-- The commit keeps the tracker legal (R158). -/
theorem commit_wf {p : Config.Params} {tr : Tracker} (h : tr.wf p) (fn : U32) (tl : List Target) :
    (tr.commit p fn tl).wf p := by
  unfold Tracker.commit
  split
  · exact evaluateAll_wf (sampleAll_wf h tl)
  · exact sampleAll_wf h tl

/-- A frame keeps the tracker legal (R159). -/
theorem afterFrame_wf {p : Config.Params} {tr : Tracker} (h : tr.wf p) (d : FrameDecode) :
    (tr.afterFrame p d).wf p := by
  unfold Tracker.afterFrame
  split
  · exact commit_wf h _ _
  · exact h

end Sys2Proof.Machine
end

