-- ==== Sys2Proof/Laws/Records.lean ====
section
/-! SUPPORT. The laws of the record operations (spec/42_tlv.md): one inversion lemma for each. -/

namespace Sys2Proof.Machine

/-- An effect on the slots, flags and count of a frame decode, which leaves its header, its cursor and
its iterations alone: what the four record kinds have in common. -/
def SlotEffect (effect : Nat → Nat → FrameDecode → FrameDecode) : Prop :=
  ∀ P m d, (effect P m d).hdr = d.hdr ∧ (effect P m d).cur = d.cur ∧ (effect P m d).left = d.left

theorem slotEffect_pointCloud (mem : Memory) : SlotEffect (decodePointCloud mem) := by
  intro P m d; unfold decodePointCloud; split <;> exact ⟨rfl, rfl, rfl⟩

theorem slotEffect_targetList (mem : Memory) : SlotEffect (decodeTargetList mem) := by
  intro P m d; unfold decodeTargetList; split <;> exact ⟨rfl, rfl, rfl⟩

theorem slotEffect_targetIndex (mem : Memory) : SlotEffect (decodeTargetIndex mem) :=
  fun _ _ _ => ⟨rfl, rfl, rfl⟩

theorem slotEffect_unknown : SlotEffect (fun _ _ => skipUnknown) := fun _ _ _ => ⟨rfl, rfl, rfl⟩

/-- A record is decoded exactly when it passes the three checks, and then this is what comes out
(R131, R132, R133, R130). -/
theorem record_ok_iff {d d' : FrameDecode} {L : U32}
    {effect : Nat → Nat → FrameDecode → FrameDecode} :
    d.record L effect = .ok d' ↔
      d.cur + Config.tlvHdrLen ≤ d.frameEnd ∧ Config.tlvHdrLen ≤ L.toNat ∧
      d.cur + L.toNat ≤ d.frameEnd ∧
      d' = { effect (d.cur + Config.tlvHdrLen) (L.toNat - Config.tlvHdrLen) d with
        cur := d.cur + L.toNat, left := d.left - 1 } := by
  unfold FrameDecode.record
  split_ifs with h1 h2 h3
  · simp; omega
  · simp; omega
  · simp; omega
  · simp only [Except.ok.injEq]
    exact ⟨fun h => ⟨by omega, by omega, by omega, h.symm⟩, fun h => h.2.2.2.symm⟩

/-- A record is refused by the first check it fails (R207). -/
theorem record_error_iff {d : FrameDecode} {L : U32} {r : TruncReason}
    {effect : Nat → Nat → FrameDecode → FrameDecode} :
    d.record L effect = .error r ↔
      (d.frameEnd < d.cur + Config.tlvHdrLen ∧ r = .subheader) ∨
      (d.cur + Config.tlvHdrLen ≤ d.frameEnd ∧ L.toNat < Config.tlvHdrLen ∧ r = .badTlvLength) ∨
      (d.cur + Config.tlvHdrLen ≤ d.frameEnd ∧ Config.tlvHdrLen ≤ L.toNat ∧
        d.frameEnd < d.cur + L.toNat ∧ r = .payload) := by
  unfold FrameDecode.record
  split_ifs with h1 h2 h3 <;> simp only [Except.error.injEq, false_iff]
  · constructor
    · rintro rfl; exact .inl ⟨h1, rfl⟩
    · rintro (⟨_, rfl⟩ | ⟨h, _⟩ | ⟨h, _⟩)
      · rfl
      · omega
      · omega
  · constructor
    · rintro rfl; exact .inr (.inl ⟨by omega, h2, rfl⟩)
    · rintro (⟨h, _⟩ | ⟨_, _, rfl⟩ | ⟨_, h, _⟩)
      · omega
      · rfl
      · omega
  · constructor
    · rintro rfl; exact .inr (.inr ⟨by omega, by omega, h3, rfl⟩)
    · rintro (⟨h, _⟩ | ⟨_, h, _⟩ | ⟨_, _, _, rfl⟩)
      · omega
      · omega
      · rfl
  · omega

/-- What a decoded record leaves of the frame decode besides its own slot, flag or count: the same
header, the cursor past the record and within `T`, one iteration fewer (R130, R68). -/
theorem record_ok_frame {d d' : FrameDecode} {L : U32}
    {effect : Nat → Nat → FrameDecode → FrameDecode} (he : SlotEffect effect)
    (h : d.record L effect = .ok d') :
    d'.hdr = d.hdr ∧ d'.cur = d.cur + L.toNat ∧ d'.left = d.left - 1 ∧ d'.cur ≤ d.frameEnd := by
  obtain ⟨_, _, h3, rfl⟩ := record_ok_iff.mp h
  exact ⟨(he _ _ d).1, rfl, rfl, h3⟩

/-- The unknown count rises by one on a record of unknown type and on no other. -/
theorem unknownTlvs_pointCloud (mem : Memory) (P m : Nat) (d : FrameDecode) :
    (decodePointCloud mem P m d).unknownTlvs = d.unknownTlvs := by
  unfold decodePointCloud; split <;> rfl

theorem unknownTlvs_targetList (mem : Memory) (P m : Nat) (d : FrameDecode) :
    (decodeTargetList mem P m d).unknownTlvs = d.unknownTlvs := by
  unfold decodeTargetList; split <;> rfl

/-- The record at the cursor is the record of its sub-header's kind (R66, R130). -/
theorem recordAtCursor_eq {mem : Memory} {d : FrameDecode}
    (h : d.cur + Config.tlvHdrLen ≤ d.frameEnd) :
    recordAtCursor mem d =
      match tlvKind (mem.u32At d.cur) with
      | .pointCloud => pointCloudRecord mem (mem.u32At (d.cur + 4)) d
      | .targetList => targetListRecord mem (mem.u32At (d.cur + 4)) d
      | .targetIndex => targetIndexRecord mem (mem.u32At (d.cur + 4)) d
      | .unknown => unknownRecord (mem.u32At (d.cur + 4)) d := by
  unfold recordAtCursor; exact if_neg (by omega)

theorem recordAtCursor_short {mem : Memory} {d : FrameDecode}
    (h : d.frameEnd < d.cur + Config.tlvHdrLen) : recordAtCursor mem d = .error .subheader := by
  unfold recordAtCursor; rw [if_pos h]

/-- Everything a decoded record at the cursor can be. -/
theorem recordAtCursor_ok_cases {mem : Memory} {d d' : FrameDecode}
    (h : recordAtCursor mem d = .ok d') :
    ∃ effect, SlotEffect effect ∧ d.record (mem.u32At (d.cur + 4)) effect = .ok d' ∧
      (∀ P m e, (effect P m e).unknownTlvs = e.unknownTlvs ∨
        (effect P m e).unknownTlvs = e.unknownTlvs + 1) := by
  unfold recordAtCursor at h
  split at h
  · cases h
  · split at h
    · exact ⟨_, slotEffect_pointCloud mem, h, fun P m e => .inl (unknownTlvs_pointCloud mem P m e)⟩
    · exact ⟨_, slotEffect_targetList mem, h, fun P m e => .inl (unknownTlvs_targetList mem P m e)⟩
    · exact ⟨_, slotEffect_targetIndex mem, h, fun _ _ _ => .inl rfl⟩
    · exact ⟨_, slotEffect_unknown, h, fun _ _ _ => .inr rfl⟩

/-- The record loop keeps the header and ends with the cursor within `T` (R27). -/
theorem recordLoop_ok {mem : Memory} {n : Nat} {d d' : FrameDecode}
    (h : recordLoop mem n d = .ok d') :
    d'.hdr = d.hdr ∧ d.cur ≤ d'.cur ∧ (d.cur ≤ d.frameEnd → d'.cur ≤ d.frameEnd) := by
  induction n generalizing d with
  | zero => simp only [recordLoop, Except.ok.injEq] at h; subst h; exact ⟨rfl, Nat.le_refl _, id⟩
  | succ n ih =>
    simp only [recordLoop] at h
    split at h
    · cases h
    · rename_i d1 h1
      obtain ⟨e, he, hr, _⟩ := recordAtCursor_ok_cases h1
      obtain ⟨ha, hb, _, hd⟩ := record_ok_frame he hr
      obtain ⟨h3, h4, h5⟩ := ih h
      have hT : d1.frameEnd = d.frameEnd := by unfold FrameDecode.frameEnd; rw [ha]
      exact ⟨h3.trans ha, by omega, fun _ => by rw [← hT]; exact h5 (by rw [hT]; exact hd)⟩

/-- What a record instruction does on a frame decode in progress (R130, R206). -/
theorem runRecord_eq {s : State} {ov : Bool} {d : FrameDecode}
    (ht : s.txn = some { overflow := ov, stage := .records d }) (hl : d.left ≠ 0)
    (hc : s.fb.len ≤ Config.cap) (run : FrameDecode → Except TruncReason FrameDecode) :
    s.runRecord run =
      match run d with
      | .error r => .next (s.truncate ov r)
      | .ok d' =>
        if Config.cap < d'.cur then .fault .outsideBuffer
        else .next { s with txn := some { overflow := ov, stage := .records d' } } := by
  obtain ⟨fb, tr, txn, p, pe, o⟩ := s
  dsimp only at ht hc
  subst ht
  simp only [State.runRecord, if_neg hl]
  exact inBuffer_of_le hc _

/-- Everything a record instruction that answers a next state can have done (R130, R206). -/
theorem runRecord_next_cases {s t : State} {run : FrameDecode → Except TruncReason FrameDecode}
    (h : s.runRecord run = .next t) :
    ∃ ov d, s.txn = some { overflow := ov, stage := .records d } ∧ d.left ≠ 0 ∧
      s.fb.len ≤ Config.cap ∧
      ((∃ r, run d = .error r ∧ t = s.truncate ov r) ∨
       (∃ d', run d = .ok d' ∧ d'.cur ≤ Config.cap ∧
        t = { s with txn := some { overflow := ov, stage := .records d' } })) := by
  unfold State.runRecord at h
  split at h
  · rename_i ov d ht
    split at h
    · cases h
    · rename_i hl
      obtain ⟨hc, h⟩ := inBuffer_eq_next h
      refine ⟨ov, d, ht, hl, hc, ?_⟩
      split at h
      · rename_i r hr; cases h; exact .inl ⟨r, hr, rfl⟩
      · rename_i d' hr
        split at h
        · cases h
        · cases h; exact .inr ⟨d', hr, by omega, rfl⟩
  · cases h

end Sys2Proof.Machine
end

