-- ==== Sys2Proof/Laws/Step.lean ====
section
/-! SUPPORT. Inversion lemmas for the transactions, the instructions and the step: each says once
everything the operation can do (spec/44_ingest.md R171, R176). -/

namespace Sys2Proof.Machine

/-! ## Decoding what is in the buffer -/

/-- The bytes at a valid sync offset decode to SYNC_MARKER (R61). -/
theorem decode_marker_of_syncAt {fb : FrameBuffer} {p : Nat} (h : fb.syncAt p = true) :
    decode .marker (fb.cells.readBytes p Config.markerLen) = .ok .syncMarker := by
  have hm := (syncAt_iff.mp h).2
  have hl : (fb.cells.readBytes p Config.markerLen).length = 8 := Memory.readBytes_length _ _ _
  have hi : isMarker (fb.cells.readBytes p Config.markerLen) = true := by
    unfold isMarker; rw [hm]; rfl
  show decodeMarker _ = _
  unfold decodeMarker
  rw [if_neg (by rw [hl]; decide), if_pos hi]

/-- The bytes at index 0 decode to the header there, when the marker is there (R120). -/
theorem decode_header_of_syncAt {fb : FrameBuffer} (h : fb.syncAt 0 = true) :
    decode .header (fb.cells.readBytes 0 Config.hdrLen) = .ok (.frameHeader fb.cells.headerAt) := by
  have hm := (syncAt_iff.mp h).2
  have hl : (fb.cells.readBytes 0 Config.hdrLen).length = 52 := Memory.readBytes_length _ _ _
  have hi : isMarker (fb.cells.readBytes 0 Config.hdrLen) = true := by
    unfold isMarker
    rw [Memory.slice_readBytes _ _ _ _ _ (by decide)]
    simpa [Config.markerLen] using hm
  show decodeHeader _ = _
  unfold decodeHeader
  rw [if_neg (by rw [hl]; decide), if_pos hi]
  rfl

/-- The 8 bytes at an index decode to the record whose type and length they hold (R65). -/
theorem decode_record_at (m : Memory) (a : Nat) :
    decode .record (m.readBytes a Config.tlvHdrLen) =
      .ok (recordInstr (m.u32At a) (m.u32At (a + 4))) := by
  have hl : (m.readBytes a Config.tlvHdrLen).length = 8 := Memory.readBytes_length _ _ _
  show decodeRecord _ = _
  unfold decodeRecord
  rw [if_neg (by rw [hl]; decide)]
  unfold leU32
  rw [Memory.slice_readBytes _ _ _ _ _ (by decide), Memory.slice_readBytes _ _ _ _ _ (by decide)]
  rfl

/-- `T` read for the length check is the header's `totalPacketLength`: both reads see the same value
(R48). -/
theorem memRead_totalPacketLength (m : Memory) :
    m.headerAt.totalPacketLength.toNat = m.memRead 20 4 := by
  have h : m.headerAt.totalPacketLength = BitVec.ofNat 32 (m.memRead 20 4) := by
    show leU32 _ _ = _
    unfold leU32 Memory.memRead
    rw [Memory.slice_readBytes _ _ _ _ _ (by decide)]
  have hlt : m.memRead 20 4 < 2 ^ 32 := by
    have := leNat_lt (m.readBytes 20 4)
    rw [Memory.readBytes_length] at this
    exact this
  rw [h, BitVec.toNat_ofNat, Nat.mod_eq_of_lt hlt]

/-! ## The header checks -/

/-- When a header passes (R122, R121, R107). -/
theorem headerCheck_eq_none_iff {fb : FrameBuffer} {T : Nat} :
    fb.headerCheck T = none ↔
      Config.hdrLen ≤ fb.len ∧ Config.hdrLen ≤ T ∧ T ≤ Config.cap ∧ T ≤ fb.len := by
  unfold FrameBuffer.headerCheck FrameBuffer.readyForDecode
  have hh : Config.hdrLen = 52 := rfl
  split_ifs with h1 h2 h3 <;> simp_all <;> omega

/-- The first check a header fails decides the outcome (R207). -/
theorem headerCheck_cases (fb : FrameBuffer) (T : Nat) :
    (fb.len < Config.hdrLen ∧ fb.headerCheck T = some (.noData .incompleteHeader)) ∨
    (Config.hdrLen ≤ fb.len ∧ (T < Config.hdrLen ∨ Config.cap < T) ∧
      fb.headerCheck T = some (.truncated .badTotalLength)) ∨
    (Config.hdrLen ≤ fb.len ∧ Config.hdrLen ≤ T ∧ T ≤ Config.cap ∧ fb.len < T ∧
      fb.headerCheck T = some (.noData .incompleteFrame)) ∨
    (Config.hdrLen ≤ fb.len ∧ Config.hdrLen ≤ T ∧ T ≤ Config.cap ∧ T ≤ fb.len ∧
      fb.headerCheck T = none) := by
  by_cases h1 : fb.len < Config.hdrLen
  · exact .inl ⟨h1, by unfold FrameBuffer.headerCheck; rw [if_pos h1]⟩
  · by_cases h2 : T < Config.hdrLen ∨ Config.cap < T
    · exact .inr (.inl ⟨by omega, h2, by
        unfold FrameBuffer.headerCheck; rw [if_neg h1, if_pos h2]⟩)
    · by_cases h3 : T ≤ fb.len
      · exact .inr (.inr (.inr ⟨by omega, by omega, by omega, h3,
          headerCheck_eq_none_iff.mpr ⟨by omega, by omega, by omega, h3⟩⟩))
      · have hr : fb.readyForDecode T = false := by
          simp [FrameBuffer.readyForDecode, h3]
        exact .inr (.inr (.inl ⟨by omega, by omega, by omega, by omega, by
          unfold FrameBuffer.headerCheck; rw [if_neg h1, if_neg h2, hr]; rfl⟩))

/-! ## INGEST -/

/-- Everything the part of an INGEST from the header on can do, the marker at index 0 (R171 steps 3 to
5). -/
theorem decodeAligned_cases (ov : Bool) (s : State) :
    (s.fb.len < Config.hdrLen ∧ s.decodeAligned ov = s.noData ov .incompleteHeader) ∨
    (Config.hdrLen ≤ s.fb.len ∧
      (s.fb.cells.memRead 20 4 < Config.hdrLen ∨ Config.cap < s.fb.cells.memRead 20 4) ∧
      s.decodeAligned ov = s.truncate ov .badTotalLength) ∨
    (Config.hdrLen ≤ s.fb.len ∧ Config.hdrLen ≤ s.fb.cells.memRead 20 4 ∧
      s.fb.cells.memRead 20 4 ≤ Config.cap ∧ s.fb.len < s.fb.cells.memRead 20 4 ∧
      s.decodeAligned ov = s.noData ov .incompleteFrame) ∨
    (Config.hdrLen ≤ s.fb.len ∧ Config.hdrLen ≤ s.fb.cells.memRead 20 4 ∧
      s.fb.cells.memRead 20 4 ≤ Config.cap ∧ s.fb.cells.memRead 20 4 ≤ s.fb.len ∧
      s.decodeAligned ov = s.decodeFrame ov s.fb.cells.headerAt) := by
  unfold State.decodeAligned
  rcases headerCheck_cases s.fb (s.fb.cells.memRead 20 4) with
    ⟨h1, h⟩ | ⟨h1, h2, h⟩ | ⟨h1, h2, h3, h4, h⟩ | ⟨h1, h2, h3, h4, h⟩ <;> rw [h]
  · exact .inl ⟨h1, rfl⟩
  · exact .inr (.inl ⟨h1, h2, rfl⟩)
  · exact .inr (.inr (.inl ⟨h1, h2, h3, h4, rfl⟩))
  · exact .inr (.inr (.inr ⟨h1, h2, h3, h4, rfl⟩))

/-- Everything the record loop, the length check and the commit can do (R171 steps 4 and 5). -/
theorem decodeFrame_cases (ov : Bool) (h : Header) (s : State) :
    (∃ r, recordLoop s.fb.cells h.numTlvs.toNat (.start h) = .error r ∧
      s.decodeFrame ov h = s.truncate ov r) ∨
    (∃ d, recordLoop s.fb.cells h.numTlvs.toNat (.start h) = .ok d ∧
      d.cur < d.frameEnd ∧ s.params.acceptTrailing = false ∧
      s.decodeFrame ov h = s.truncate ov .lengthMismatch) ∨
    (∃ d, recordLoop s.fb.cells h.numTlvs.toNat (.start h) = .ok d ∧
      (d.frameEnd ≤ d.cur ∨ s.params.acceptTrailing = true) ∧
      s.decodeFrame ov h = s.commitFrame ov d) := by
  unfold State.decodeFrame
  cases hr : recordLoop s.fb.cells h.numTlvs.toNat (.start h) with
  | error r => exact .inl ⟨r, rfl, rfl⟩
  | ok d =>
    by_cases hc : d.cur < d.frameEnd ∧ s.params.acceptTrailing = false
    · exact .inr (.inl ⟨d, rfl, hc.1, hc.2, by simp only [State.closeFrame, if_pos hc]⟩)
    · refine .inr (.inr ⟨d, rfl, ?_, by simp only [State.closeFrame, if_neg hc]⟩)
      by_cases h1 : d.cur < d.frameEnd
      · right; simpa [h1] using hc
      · left; omega

/-- Everything the sync search can do (R171 step 2). -/
theorem syncAndDecode_cases (ov : Bool) (s : State) :
    (s.fb.trueSync = none ∧ s.syncAndDecode ov = s.noSync ov) ∨
    (∃ p, s.fb.trueSync = some p ∧
      s.syncAndDecode ov = State.decodeAligned ov { s with fb := s.fb.discardBefore p }) := by
  unfold State.syncAndDecode
  cases h : s.fb.trueSync with
  | none => exact .inl ⟨rfl, rfl⟩
  | some p => exact .inr ⟨p, rfl, rfl⟩

/-- An INGEST between transactions completes (R175). -/
theorem execIngest_eq {s : State} (ht : s.txn = none) (hc : s.fb.len ≤ Config.cap) (c : List Byte) :
    exec (.ingest c) s = .next (s.ingest c) := by
  show execIngest c s = _
  unfold execIngest
  rw [ht]
  exact inBuffer_of_le hc _

/-- When an INGEST answers a next state, it is this one. -/
theorem execIngest_next {s t : State} {c : List Byte} (h : exec (.ingest c) s = .next t) :
    s.txn = none ∧ s.fb.len ≤ Config.cap ∧ t = s.ingest c := by
  change execIngest c s = _ at h
  unfold execIngest at h
  split at h
  · cases h
  · obtain ⟨h1, h2⟩ := inBuffer_eq_next h
    cases h2
    exact ⟨by assumption, h1, rfl⟩

/-! ## The step -/

/-- A step is the instruction fetched, or the end the sequence itself takes. -/
theorem step_next_cases {s t : State} (h : step s = .next t) :
    (∃ i s', fetch s = .run i s' ∧ exec i s' = .next t) ∨ fetch s = .settle t := by
  unfold step at h
  split at h
  · exact .inl ⟨_, _, by assumption, h⟩
  · cases h; exact .inr (by assumption)
  · cases h
  · cases h

/-- Between transactions the fetch takes the host's first pending transaction. -/
theorem fetch_of_pending {s : State} {t : Transaction} {rest : List Transaction} (ht : s.txn = none)
    (hp : s.pending = t :: rest) :
    fetch s = .run (decodeTransaction t) { s with pending := rest } := by
  cases s; dsimp only at ht hp; subst ht hp; rfl

/-- With nothing pending the fetch settles on the state as it is (R218). -/
theorem fetch_of_idle {s : State} (ht : s.txn = none) (hp : s.pending = []) :
    fetch s = .settle s := by
  cases s; dsimp only at ht hp; subst ht hp; rfl

/-- Inside an INGEST the fetch is the one of the stage, while the buffer is within its capacity. -/
theorem fetch_of_stage {s : State} {x : Txn} (ht : s.txn = some x) (hc : s.fb.len ≤ Config.cap) :
    fetch s = fetchStage x.overflow x.stage s := by
  cases s; dsimp only at ht hc; subst ht
  exact if_neg (by dsimp only; omega)

end Sys2Proof.Machine
end

