-- ==== Sys2Proof/Tests/Slice0.lean ====
section
/-! SUPPORT. Tests: ill-formed terms are refused, words written out from the spec's encodings decode, one
step of each instruction, and a witness for the hypotheses of every statement. Expected values are those
of spec/95_test_vectors.md or of the example a rule gives; the source stands above each test. -/

namespace Sys2Proof.Tests

open Sys2Proof.Machine

/-! ## Helpers -/

/-- The state a step or a meaning answers, if it answers one. -/
def after : Host.Outcome State Fault Refusal → Option State
  | .next t => some t
  | .fault _ => none
  | .refused _ => none

/-- The outcome record of that state. -/
def record (o : Host.Outcome State Fault Refusal) : Option OutcomeRecord := (after o).bind State.outcome

/-- The reset state with these bytes buffered. -/
def holding (bs : List Byte) : State := { State.reset with fb := bufferOf bs bs.length }

/-- The reset state with these bytes buffered and an INGEST at this stage. -/
def inside (bs : List Byte) (stage : Stage) : State :=
  { holding bs with txn := some { overflow := false, stage := stage } }

/-- A header with this declared length, frame number and record count, every other field 0. -/
def hdr (T fn n : Nat) : Header :=
  { zeroHeader with
    totalPacketLength := BitVec.ofNat 32 T
    frameNumber := BitVec.ofNat 32 fn
    numTlvs := BitVec.ofNat 16 n }

/-- The fully corrected stream of W2, as spec/95_test_vectors.md prints it. -/
def w2 : List Byte :=
  [0x02, 0x01, 0x04, 0x03, 0x06, 0x05, 0x08, 0x07, 0x01, 0, 0, 0, 0, 0, 0, 0,
   0, 0, 0, 0, 0x5C, 0, 0, 0, 0x05, 0, 0, 0, 0, 0, 0, 0,
   0, 0, 0, 0, 0, 0, 0, 0, 0, 0, 0, 0, 0, 0, 0, 0,
   0x01, 0, 0, 0, 0x06, 0, 0, 0, 0x28, 0, 0, 0, 0, 0, 0x80, 0x3F,
   0xCD, 0xCC, 0xCC, 0x3D, 0, 0, 0, 0, 0, 0, 0x20, 0x41, 0, 0, 0x20, 0x40,
   0xCD, 0xCC, 0xCC, 0xBD, 0, 0, 0, 0, 0, 0, 0x40, 0x41]

/-- The header of W2. -/
def w2Header : Header := { hdr 92 5 1 with version := 1 }

/-- The points of W2. -/
def w2Points : List Point :=
  [{ range := 0x3F800000, azimuth := 0x3DCCCCCD, doppler := 0, snr := 0x41200000 },
   { range := 0x40200000, azimuth := 0xBDCCCCCD, doppler := 0, snr := 0x41400000 }]

/-- The 52 bytes of `HDR(totalPacketLength=52)`, a whole frame without records (V-HD-4). -/
def bare : List Byte := encodeHeader (hdr 52 0 0)

/-- An INGEST of the W2 frame at its record stage, the cursor at the record. -/
def atRecord : State := inside w2 (.records (.start w2Header))

/-! ## Ill-formed terms -/

theorem test_header_without_marker_is_ill_formed :
    (Instr.frameHeader { zeroHeader with magic := [1, 2, 3, 4, 5, 6, 7, 8] }).wellFormed = false := by
  decide

theorem test_header_with_short_magic_is_ill_formed :
    (Instr.frameHeader { zeroHeader with magic := [0x02] }).wellFormed = false := by decide

theorem test_unknown_of_a_known_type_is_ill_formed :
    (Instr.tlvUnknown 6 8).wellFormed = false ∧ (Instr.tlvUnknown 7 8).wellFormed = false ∧
    (Instr.tlvUnknown 8 8).wellFormed = false := by decide

theorem test_unknown_types_are_well_formed :
    (Instr.tlvUnknown 5 8).wellFormed = true ∧ (Instr.tlvUnknown 9 0).wellFormed = true ∧
    (Instr.tlvUnknown 0x01000006 8).wellFormed = true := by decide

/-! ## Words written out from the encodings -/

/-- R61: the marker in stream order; its last byte changed, it is none. -/
theorem test_marker_word_decodes :
    decode .marker [0x02, 0x01, 0x04, 0x03, 0x06, 0x05, 0x08, 0x07] = .ok .syncMarker ∧
    decode .marker [0x02, 0x01, 0x04, 0x03, 0x06, 0x05, 0x08, 0x00] = .error .notMarker ∧
    decode .marker [0x02, 0x01, 0x04, 0x03, 0x06, 0x05, 0x08] = .error (.short 8 7) := by
  refine ⟨rfl, rfl, rfl⟩

/-- R63: a header with every field a different value, laid out by hand. -/
theorem test_header_word_decodes :
    decode .header
      [0x02, 0x01, 0x04, 0x03, 0x06, 0x05, 0x08, 0x07, 0x11, 0x12, 0x13, 0x14, 0x21, 0x22, 0x23, 0x24,
       0x31, 0x32, 0x33, 0x34, 0x41, 0x42, 0x43, 0x44, 0x51, 0x52, 0x53, 0x54, 0x61, 0x62, 0x63, 0x64,
       0x71, 0x72, 0x73, 0x74, 0x81, 0x82, 0x83, 0x84, 0x91, 0x92, 0x93, 0x94, 0xA1, 0xA2, 0xA3, 0xA4,
       0xB1, 0xB2, 0xC1, 0xC2] =
      .ok (.frameHeader
        { magic := [0x02, 0x01, 0x04, 0x03, 0x06, 0x05, 0x08, 0x07], version := 0x14131211
          platform := 0x24232221, timestamp := 0x34333231, totalPacketLength := 0x44434241
          frameNumber := 0x54535251, subFrameNumber := 0x64636261, chirpMargin := 0x74737271
          frameMargin := 0x84838281, uartSentTime := 0x94939291, trackProcessTime := 0xA4A3A2A1
          numTlvs := 0xB2B1, checksum := 0xC2C1 }) := rfl

/-- W2: the printed header bytes are the header the text names. -/
theorem test_w2_header_decodes : decode .header (w2.take 52) = .ok (.frameHeader w2Header) := rfl

/-- R65, R66: type 6, length 0x28, at bytes 52 to 59 of W2. -/
theorem test_point_cloud_word_decodes :
    decode .record [0x06, 0, 0, 0, 0x28, 0, 0, 0] = .ok (.tlvPointCloud 40) := rfl

/-- R65, R66: type 7, length 8 + 68. -/
theorem test_target_list_word_decodes :
    decode .record [0x07, 0, 0, 0, 0x4C, 0, 0, 0] = .ok (.tlvTargetList 76) := rfl

/-- R65, R66: type 8, length 8 + 3. -/
theorem test_target_index_word_decodes :
    decode .record [0x08, 0, 0, 0, 0x0B, 0, 0, 0] = .ok (.tlvTargetIndex 11) := rfl

/-- R66: all 32 bits of the type are compared; R67: a length below 8 decodes. -/
theorem test_unknown_words_decode :
    decode .record [0x06, 0, 0, 0x01, 0x07, 0, 0, 0] = .ok (.tlvUnknown 0x01000006 7) ∧
    decode .record [0x09, 0, 0, 0, 0x00, 0x01, 0, 0] = .ok (.tlvUnknown 9 256) := ⟨rfl, rfl⟩

/-- R73: op 0 is INGEST, op 1 is RESET. -/
theorem test_transactions_decode :
    decode .host [0x00, 0x02, 0x01] = .ok (.ingest [0x02, 0x01]) ∧
    decode .host [0x01, 0xAA] = .ok (.reset [0xAA]) ∧ decode .host [] = .error (.short 1 0) :=
  ⟨rfl, rfl, rfl⟩

/-- The table's words (spec/opcode_table.json), each with the bits its mask has. -/
theorem test_table_words_decode :
    decodeTableWord 64 0x0708050603040102 = some .syncMarker ∧
    decodeTableWord 32 6 = some (.tlvPointCloud 0) ∧ decodeTableWord 32 7 = some (.tlvTargetList 0) ∧
    decodeTableWord 32 8 = some (.tlvTargetIndex 0) ∧ decodeTableWord 32 9 = some (.tlvUnknown 9 0) ∧
    decodeTableWord 8 0 = some (.ingest []) ∧ decodeTableWord 8 1 = some (.reset []) := by
  refine ⟨rfl, rfl, rfl, rfl, rfl, rfl, rfl⟩

/-- The header's word with all 416 bits, the fields behind the marker 0. -/
theorem test_table_header_word_decodes :
    decodeTableWord 416 0x0708050603040102 = some (.frameHeader zeroHeader) := by
  decide +kernel

/-! ## One step of each instruction -/

/-- R104 and R106: `FF 00 MARKER 11 22` aligns to index 2. -/
theorem test_sync_marker_aligns :
    (after (exec .syncMarker (inside ([0xFF, 0x00] ++ Config.marker ++ [0x11, 0x22]) .seek))).map
      (fun t => (t.fb.len, t.fb.cells.readBytes 0 12, t.txn.map Txn.stage)) =
    some (10, Config.marker ++ [0x11, 0x22, 0, 0], some .header) := by decide

/-- V-FB-5: the last 7 of 23 bytes without a marker stay. -/
theorem test_sync_marker_trims :
    (after (exec .syncMarker (inside (List.replicate 20 0 ++ [0x02, 0x01, 0x04]) .seek))).map
      (fun t => (t.fb.len, t.fb.cells.readBytes 0 7, t.outcome.map OutcomeRecord.result)) =
    some (7, [0, 0, 0, 0, 0x02, 0x01, 0x04], some (.noData .noSync)) := by decide

/-- W2: the header passes and the record loop starts at 52 with one record to read. -/
theorem test_frame_header_starts_records :
    (after (exec (.frameHeader w2Header) (inside w2 .header))).map State.txn =
    some (some { overflow := false, stage := .records (.start w2Header) }) := by decide

/-- V-HD-2: a declared length of 51 is BAD_TOTAL_LENGTH and empties the buffer. -/
theorem test_frame_header_refuses_a_bad_length :
    (after (exec (.frameHeader (hdr 51 0 0)) (inside (encodeHeader (hdr 51 0 0)) .header))).map
      (fun t => (t.fb, t.outcome.map OutcomeRecord.result)) =
    some ({ cells := [], len := 0 }, some (.truncated .badTotalLength)) := by decide

/-- W2: the two points, bit for bit. -/
theorem test_point_cloud_fills_its_slot :
    (after (exec (.tlvPointCloud 40) atRecord)).map State.txn =
    some (some
      { overflow := false
        stage := .records { FrameDecode.start w2Header with
          points := some w2Points, cur := 92, left := 0 } }) := by decide

/-- V-TL-2: 12 payload bytes set `pcMalformed` and leave the slot absent. -/
theorem test_point_cloud_malformed :
    (after (exec (.tlvPointCloud 20) atRecord)).map State.txn =
    some (some
      { overflow := false
        stage := .records { FrameDecode.start w2Header with
          pcMalformed := true, cur := 72, left := 0 } }) := by decide

/-- V-TL-15: one target, id 3, posX -0.3, posY 1.0. -/
theorem test_target_list_fills_its_slot :
    ((after (exec (.tlvTargetList 76)
      (inside
        (streamFrame (hdr 0 0 0) [.tl [{ targetWith 3 0xBE99999A with posY := 0x3F800000 }]])
        (.records (.start (hdr 128 0 1)))))).bind State.txn).map Txn.stage =
    some (.records { FrameDecode.start (hdr 128 0 1) with
      targets := some [{ targetWith 3 0xBE99999A with posY := 0x3F800000 }]
      cur := 128
      left := 0 }) := by decide +kernel

/-- R133's order: a target list that claims more than the frame has is PAYLOAD. -/
theorem test_target_list_past_the_frame :
    (record (exec (.tlvTargetList 76) atRecord)).map OutcomeRecord.result =
    some (.truncated .payload) := by decide

/-- R136's example: `TI(0, 0, 1)` has length 11 and gives the three bytes. -/
theorem test_target_index_fills_its_slot :
    ((after (exec (.tlvTargetIndex 11)
      (inside (encodeHeader (hdr 63 0 1) ++ [8, 0, 0, 0, 11, 0, 0, 0, 0, 0, 1])
        (.records (.start (hdr 63 0 1)))))).bind State.txn).map Txn.stage =
    some (.records { FrameDecode.start (hdr 63 0 1) with
      indices := some [0, 0, 1], cur := 63, left := 0 }) := by decide

/-- V-TL-13: a length of 7 is BAD_TLV_LENGTH. -/
theorem test_unknown_of_length_7 :
    (record (exec (.tlvUnknown 9 7) atRecord)).map OutcomeRecord.result =
    some (.truncated .badTlvLength) := by decide

/-- R137's example: the record of type 9 and length 12 is counted and passed over. -/
theorem test_unknown_is_counted :
    ((after (exec (.tlvUnknown 9 12) atRecord)).bind State.txn).map Txn.stage =
    some (.records { FrameDecode.start w2Header with unknownTlvs := 1, cur := 64, left := 0 }) := by
  decide

/-- W2, fully corrected: a Frame with two points, status 0/0/0/0. -/
theorem test_ingest_of_w2 :
    (after (exec (.ingest w2) State.reset)).map (fun t => (t.fb, t.tracker, t.outcome)) =
    some ({ cells := [], len := 0 }, Tracker.reset,
      some
        { result := .frame { emptyFrame w2Header with points := some w2Points }
          overflow := false
          status := { len := 0, entered := 0, exited := 0, trackFault := false } }) := by decide

/-- R174's example: `[-0.1]` held for id 3, then 0.2 in frame 20: one entry, the history cleared. -/
theorem test_ingest_of_a_boundary_frame :
    (after (exec (.ingest (streamFrame (hdr 0 20 0) [.tl [targetWith 3 0x3E4CCCCD]]))
      { State.reset with tracker := { Tracker.reset with hist := [(3, [0xBDCCCCCD])] } })).map
      State.tracker =
    some { Tracker.reset with entered := 1 } := by decide +kernel

/-- R176: RESET empties everything and reports RESET_DONE. -/
theorem test_reset :
    (after (exec (.reset [0x01])
      { holding [0xAA] with
        tracker := { Tracker.reset with hist := [(3, [0])], entered := 7, trackFault := true } })).map
      (fun t => (t.fb, t.tracker, t.outcome.map OutcomeRecord.result)) =
    some ({ cells := [], len := 0 }, Tracker.reset, some (.noData .resetDone)) := by decide

/-- D2, R73: op 1 at the head of the host's queue is a RESET, and the queue moves on. -/
theorem test_step_runs_the_first_pending :
    (after (step { holding [0xAA] with
      pending := [{ op := 1, chunk := [] }, { op := 0, chunk := [] }] })).map
      (fun t => (t.fb.len, t.pending)) = some (0, [{ op := 0, chunk := [] }]) := by decide

/-- A sub-header's word with its length placed for the fetch: the step counts the unknown record. -/
theorem test_step_runs_a_placed_word :
    ((after (step (State.reset.withFetchWord 64 0x0000000A00000009))).bind State.txn).map Txn.stage =
    some (.records { FrameDecode.start (oneRecordHeader 62) with
      unknownTlvs := 1, cur := 62, left := 0 }) := by decide

/-! ## Predicates: the examples of R151 to R157 -/

theorem test_crossing_examples :
    firstCrossing [0xBE99999A, 0xBDCCCCCD, 0x3E4CCCCD] = .negToPos ∧
    firstCrossing [0x3E4CCCCD, 0xBDCCCCCD] = .posToNeg ∧
    firstCrossing [0xBDCCCCCD, 0x00000000, 0x3DCCCCCD] = .none ∧
    firstCrossing [0x3DCCCCCD, 0xBDCCCCCD, 0x3DCCCCCD] = .posToNeg := by decide

theorem test_boundary_examples :
    isBoundary 0 = true ∧ isBoundary 20 = true ∧ isBoundary 0xFFFFFFF0 = true ∧
    isBoundary 5 = false ∧ isBoundary 19 = false := by decide

/-! ## Witnesses: states and operands that meet the hypotheses of the statements -/

theorem witness_DecodeOfEncodeIsTheInstruction :
    (Instr.frameHeader w2Header).wellFormed = true ∧ (Instr.tlvUnknown 9 12).wellFormed = true := by
  decide

theorem witness_WireDecodingLosesNoBit :
    (Format.record ≠ .host ∧ decode .record [9, 0, 0, 0, 8, 0, 0, 0, 1] = .ok (.tlvUnknown 9 8)) ∧
    (Format.header ≠ .host ∧ decode .header w2 = .ok (.frameHeader w2Header)) ∧
    (Format.marker ≠ .host ∧ decode .marker w2 = .ok .syncMarker) :=
  ⟨⟨by decide, rfl⟩, ⟨by decide, rfl⟩, by decide, rfl⟩

theorem witness_HeaderFieldsAreReadAtTheirOffsets :
    (bufferOf w2 92).cells.readBytes 0 8 = Config.marker := by decide

/-- Two outcomes with the same codes, and a Frame for the clauses about Frames. -/
theorem witness_OutcomeCodesAreThoseOfTheTable :
    (Result.noData .noSync).isFrame = false ∧
    (Result.noData .noSync).kindCode = (Result.noData .noSync).kindCode ∧
    (Result.noData .noSync).reasonCode = (Result.noData .noSync).reasonCode ∧
    (Result.frame (emptyFrame w2Header)).isFrame = true := by decide

/-- At the strict bound: a buffer one byte short of full, with a chunk of two bytes and of one. -/
theorem witness_AppendTakesAllOfAChunkOrNone :
    Config.cap < ({ cells := [], len := 32767 } : FrameBuffer).len + ([1, 2] : List Byte).length ∧
    ({ cells := [], len := 32767 } : FrameBuffer).len + ([1] : List Byte).length ≤ Config.cap ∧
    ([1] : List Byte)[0]? = some 1 := by decide

/-- `k` at both ends of its range, with an index under each clause. -/
theorem witness_CompactionMovesDownAndZeroFills :
    (0 ≤ (bufferOf w2 92).len ∧ 91 < (bufferOf w2 92).len - 0) ∧
    (92 ≤ (bufferOf w2 92).len ∧ (bufferOf w2 92).len - 92 ≤ 0 ∧ 91 < (bufferOf w2 92).len ∧
      (bufferOf w2 92).len ≤ 92) := by decide

theorem witness_SyncMarkerAlignsToTheSmallestOffset :
    (inside ([0xAA] ++ Config.marker ++ Config.marker) .seek).txn =
      some { overflow := false, stage := .seek } ∧
    (inside ([0xAA] ++ Config.marker ++ Config.marker) .seek).fb.len ≤ Config.cap ∧
    1 ∈ (inside ([0xAA] ++ Config.marker ++ Config.marker) .seek).fb.findSync ∧
    ∀ q ∈ (inside ([0xAA] ++ Config.marker ++ Config.marker) .seek).fb.findSync, 1 ≤ q := by decide

theorem witness_SyncMarkerWithoutAMarkerTrims :
    (inside (List.replicate 20 0) .seek).txn = some { overflow := false, stage := .seek } ∧
    (inside (List.replicate 20 0) .seek).fb.len ≤ Config.cap ∧
    (inside (List.replicate 20 0) .seek).fb.findSync = [] := by decide

/-- A complete frame of exactly 52 bytes, the least legal declared length. -/
theorem witness_FrameHeaderStartsTheRecordLoop :
    (inside bare .header).txn = some { overflow := false, stage := .header } ∧
    (inside bare .header).fb.len ≤ Config.cap ∧ 52 ≤ (hdr 52 0 0).totalPacketLength.toNat ∧
    (hdr 52 0 0).totalPacketLength.toNat ≤ (inside bare .header).fb.len := by decide

/-- Each clause at the edge of its range: 51 bytes held; `T` 51 and `T` 32769; `T` 32768 with 52
bytes held. -/
theorem witness_FrameHeaderChecksComeInOrder :
    (inside bare .header).txn = some { overflow := false, stage := .header } ∧
    (inside (bare.take 51) .header).txn = some { overflow := false, stage := .header } ∧
    (inside bare .header).fb.len ≤ Config.cap ∧ (inside (bare.take 51) .header).fb.len < 52 ∧
    52 ≤ (inside bare .header).fb.len ∧ (hdr 51 0 0).totalPacketLength.toNat < 52 ∧
    Config.cap < (hdr 32769 0 0).totalPacketLength.toNat ∧
    52 ≤ (hdr 32768 0 0).totalPacketLength.toNat ∧
    (hdr 32768 0 0).totalPacketLength.toNat ≤ Config.cap ∧
    (inside bare .header).fb.len < (hdr 32768 0 0).totalPacketLength.toNat := by decide

/-- The hypotheses the record statements share, on a decode of a frame with one record to read. -/
abbrev RecordFits (s : State) (d : FrameDecode) (L : U32) : Prop :=
  s.txn = some { overflow := false, stage := .records d } ∧ d.left ≠ 0 ∧ s.fb.len ≤ Config.cap ∧
  8 ≤ L.toNat ∧ d.cur + L.toNat ≤ d.hdr.totalPacketLength.toNat ∧
  d.hdr.totalPacketLength.toNat ≤ Config.cap

/-- A record that ends exactly with its frame, and an empty one: a whole number of points in both. -/
theorem witness_PointCloudRecordFillsItsSlot :
    (RecordFits atRecord (.start w2Header) 40 ∧ ((40 : U32).toNat - 8) % 16 = 0) ∧
    RecordFits atRecord (.start w2Header) 8 ∧ ((8 : U32).toNat - 8) % 16 = 0 := by decide

/-- One target in a frame of 128 bytes. -/
theorem witness_TargetListRecordFillsItsSlot :
    RecordFits (inside [] (.records (.start (hdr 128 0 1)))) (.start (hdr 128 0 1)) 76 ∧
    ((76 : U32).toNat - 8) % 68 = 0 := by decide

/-- An empty record and one that fills the frame. -/
theorem witness_TargetIndexAndUnknownRecordsComplete :
    RecordFits atRecord (.start w2Header) 8 ∧ RecordFits atRecord (.start w2Header) 40 := by decide

/-- One byte too many for either kind. -/
theorem witness_MalformedRecordSetsItsFlagAndIsPassedOver :
    RecordFits atRecord (.start w2Header) 25 ∧ ((25 : U32).toNat - 8) % 16 ≠ 0 ∧
    ((25 : U32).toNat - 8) % 68 ≠ 0 := by decide

/-- Each check at its edge: a frame of 59 bytes has no sub-header at 52; in one of 60 bytes a length of 7
is too short and a length of 9 runs past the end. -/
theorem witness_RecordChecksTruncateInOrder :
    (inside [] (.records (.start (hdr 59 0 1)))).txn =
      some { overflow := false, stage := .records (.start (hdr 59 0 1)) } ∧
    (inside [] (.records (.start (hdr 60 0 1)))).txn =
      some { overflow := false, stage := .records (.start (hdr 60 0 1)) } ∧
    (FrameDecode.start (hdr 59 0 1)).left ≠ 0 ∧ (FrameDecode.start (hdr 60 0 1)).left ≠ 0 ∧
    (inside [] (.records (.start (hdr 59 0 1)))).fb.len ≤ Config.cap ∧
    Instr.tlvUnknown 9 7 ∈
      [Instr.tlvPointCloud 7, .tlvTargetList 7, .tlvTargetIndex 7, .tlvUnknown 9 7] ∧
    (FrameDecode.start (hdr 59 0 1)).hdr.totalPacketLength.toNat <
      (FrameDecode.start (hdr 59 0 1)).cur + 8 ∧
    (FrameDecode.start (hdr 60 0 1)).cur + 8 ≤
      (FrameDecode.start (hdr 60 0 1)).hdr.totalPacketLength.toNat ∧
    (7 : U32).toNat < 8 ∧ 8 ≤ (9 : U32).toNat ∧
    (FrameDecode.start (hdr 60 0 1)).hdr.totalPacketLength.toNat <
      (FrameDecode.start (hdr 60 0 1)).cur + (9 : U32).toNat := by decide

/-- Both clauses: a frame whose records end one byte early, and one whose records end at `T`; the targets
slot absent in one decode and present in the other. -/
theorem witness_FrameLengthCheckEndsTheRecords :
    atRecord.fb.wf ∧
    ({ FrameDecode.start w2Header with cur := 91, left := 0 } : FrameDecode).left = 0 ∧
    (FrameDecode.start w2Header).targets = none ∧
    ({ FrameDecode.start w2Header with cur := 92, left := 0, targets := some [] } :
      FrameDecode).targets = some [] ∧
    (inside w2 (.records
        { FrameDecode.start w2Header with cur := 92, left := 0, targets := some [] })).txn =
      some
        { overflow := false
          stage := .records
            { FrameDecode.start w2Header with cur := 92, left := 0, targets := some [] } } ∧
    (91 : Nat) ≤ w2Header.totalPacketLength.toNat ∧ (91 : Nat) < w2Header.totalPacketLength.toNat ∧
    atRecord.params.acceptTrailing = false ∧ (92 : Nat) ≤ w2Header.totalPacketLength.toNat ∧
    ¬((92 : Nat) < w2Header.totalPacketLength.toNat ∧ atRecord.params.acceptTrailing = false) ∧
    w2Header.totalPacketLength.toNat ≤ atRecord.fb.len ∧
    (inside w2 (.records { FrameDecode.start w2Header with cur := 91, left := 0 })).txn =
      some
        { overflow := false
          stage := .records { FrameDecode.start w2Header with cur := 91, left := 0 } } := by decide

/-- A state that is legal and not the reset state: bytes buffered, a history and a count held. -/
def legal : State :=
  { holding [0xAA, 0x02] with
    tracker := { Tracker.reset with hist := [(3, [0xBDCCCCCD])], entered := 2 } }

/-- A legal state with an empty buffer and a history. -/
def legalEmpty : State :=
  { State.reset with tracker := { Tracker.reset with hist := [(3, [0xBDCCCCCD])] } }

theorem wf_legal : legal.wf := ⟨by decide, by decide, fun _ h => nomatch h⟩

theorem wf_legalEmpty : legalEmpty.wf := ⟨by decide, by decide, fun _ h => nomatch h⟩

/-- A legal state with an INGEST in progress, at the last record of a frame. -/
theorem wf_atRecord : atRecord.wf :=
  ⟨by decide, by decide, fun x h => by
    obtain rfl : { overflow := false, stage := .records (.start w2Header) } = x :=
      Option.some.inj h
    exact ⟨by decide, by decide⟩⟩

/-- A state that is legal when its fault bit may be set, because a bound is finite. -/
def bounded : State :=
  { legalEmpty with
    params := { Config.defaults with maxIds := some 1, histDepth := some 1 }
    tracker := { legalEmpty.tracker with trackFault := true } }

theorem wf_bounded : bounded.wf := ⟨by decide, by decide, fun _ h => nomatch h⟩

theorem witness_IngestCompletesWithOneOutcome :
    legal.txn = none ∧ legal.fb.len ≤ Config.cap := by decide

/-- A frame of one record of every sort into an empty buffer. -/
theorem witness_IngestOfAFrameDecodesItsRecords :
    legalEmpty.txn = none ∧ legalEmpty.fb.wf ∧ legalEmpty.fb.len = 0 ∧
    (∀ r ∈ ([.pc w2Points, .tl [targetWith 3 0x3E4CCCCD], .ti [0, 1], .tlv 9 10 [1, 2],
        .tlv 6 9 [0], .tlv 7 9 [0]] : List StreamRecord), r.sound = true) ∧
    52 + (streamRecords [.pc w2Points, .tl [targetWith 3 0x3E4CCCCD], .ti [0, 1], .tlv 9 10 [1, 2],
        .tlv 6 9 [0], .tlv 7 9 [0]]).length ≤ Config.cap := by decide +kernel

/-- The state the INGEST of the frame without records leaves. -/
def afterBare : State := legalEmpty.ingest bare

theorem exec_bare : exec (.ingest bare) legalEmpty = .next afterBare := rfl

theorem afterBare_isFrame : afterBare.outcome.any (fun o => o.result.isFrame) = true := by decide

/-- Split inside the marker, at 8 and inside the header. -/
theorem witness_FragmentationDoesNotChangeTheFrame :
    legalEmpty.wf ∧ legalEmpty.txn = none ∧ legalEmpty.fb.len = 0 ∧ bare.take 8 = Config.marker ∧
    52 ≤ bare.length ∧ bare.length ≤ Config.cap ∧ leNat (slice bare 20 4) = bare.length ∧
    exec (.ingest bare) legalEmpty = .next afterBare ∧
    afterBare.outcome.any (fun o => o.result.isFrame) = true ∧
    bare = [bare.take 7, [], slice bare 7 1, slice bare 8 43].flatten ++ [0] ∧
    ([0] : List Byte) ≠ [] ∧
    0 < 4 ∧ 4 ≤ [bare.take 7, [], slice bare 7 1, slice bare 8 43].length :=
  ⟨wf_legalEmpty, by decide, by decide, by decide, by decide, by decide, by decide, exec_bare,
    afterBare_isFrame, by decide, by decide, by decide, by decide⟩

/-- W3's garbage `FF 00 11`. -/
theorem witness_GarbageBeforeAFrameIsDropped :
    legalEmpty.wf ∧ legalEmpty.txn = none ∧ legalEmpty.fb.len = 0 ∧ bare.take 8 = Config.marker ∧
    52 ≤ bare.length ∧ ([0xFF, 0x00, 0x11] ++ bare).length ≤ Config.cap ∧
    leNat (slice bare 20 4) = bare.length ∧
    (∀ p < ([0xFF, 0x00, 0x11] : List Byte).length,
      slice ([0xFF, 0x00, 0x11] ++ bare) p 8 ≠ Config.marker) ∧
    exec (.ingest bare) legalEmpty = .next afterBare ∧
    afterBare.outcome.any (fun o => o.result.isFrame) = true :=
  ⟨wf_legalEmpty, by decide, by decide, by decide, by decide, by decide, by decide, by decide,
    exec_bare, afterBare_isFrame⟩

/-- A full buffer, and a chunk of one byte. -/
def full : State := { State.reset with fb := { cells := [], len := 32768 } }

theorem witness_OverflowingIngestIsAnEmptyIngest :
    full.fb.wf ∧ Config.cap < full.fb.len + ([1] : List Byte).length ∧
    exec (.ingest []) full = .next (full.ingest []) := ⟨by decide, by decide, rfl⟩

/-- NO_SYNC, and a reason that is not NO_SYNC. -/
theorem witness_NoDataOnlyAppendsAndAligns :
    (legal.fb.wf ∧ exec (.ingest [0x01]) legal = .next (legal.ingest [0x01]) ∧
      (legal.ingest [0x01]).outcome.map (fun o => (o.result, o.overflow)) =
        some (.noData .noSync, false)) ∧
    legal.fb.wf ∧ exec (.ingest Config.marker) legal = .next (legal.ingest Config.marker) ∧
      (legal.ingest Config.marker).outcome.map (fun o => (o.result, o.overflow)) =
        some (.noData .incompleteHeader, false) :=
  ⟨⟨by decide, rfl, by decide⟩, by decide, rfl, by decide⟩

theorem witness_TruncatedDropsTheBufferAndKeepsTheTracker :
    legalEmpty.fb.wf ∧
    exec (.ingest (encodeHeader (hdr 52 0 1))) legalEmpty =
      .next (legalEmpty.ingest (encodeHeader (hdr 52 0 1))) ∧
    (legalEmpty.ingest (encodeHeader (hdr 52 0 1))).outcome.map (fun o => (o.result, o.overflow)) =
      some (.truncated .subheader, false) := ⟨by decide, rfl, by decide⟩

/-- Garbage, a frame and the first bytes of the next one. -/
theorem witness_FrameConsumesExactlyItsBytes :
    legal.fb.wf ∧
    exec (.ingest (bare ++ [0x02, 0x01])) legal = .next (legal.ingest (bare ++ [0x02, 0x01])) ∧
    (legal.ingest (bare ++ [0x02, 0x01])).outcome.map (fun o => (o.result, o.overflow)) =
      some (.frame (emptyFrame (hdr 52 0 0)), false) ∧
    1 < (legal.ingest (bare ++ [0x02, 0x01])).fb.len := ⟨by decide, rfl, by decide, by decide⟩

/-- A frame without a TargetList and one with an empty one. -/
theorem witness_TrackerRunsExactlyOnFramesWithTargets :
    (exec (.ingest bare) legalEmpty = .next afterBare ∧
      afterBare.outcome.map (fun o => o.result) = some (.frame (emptyFrame (hdr 52 0 0)))) ∧
    exec (.ingest (streamFrame (hdr 0 20 0) [.tl []])) legalEmpty =
        .next (legalEmpty.ingest (streamFrame (hdr 0 20 0) [.tl []])) ∧
      (legalEmpty.ingest (streamFrame (hdr 0 20 0) [.tl []])).outcome.map (fun o => o.result) =
        some (.frame { emptyFrame (hdr 60 20 1) with targets := some [] }) :=
  ⟨⟨exec_bare, by decide⟩, rfl, by decide⟩

theorem witness_DrainingStopsAtTheFirstNonFrame :
    legal.wf ∧ exec (.ingest [0x01]) legal = .next (legal.ingest [0x01]) ∧
    (legal.ingest [0x01]).outcome.any (fun o => o.result.isFrame) = false ∧
    exec (.ingest []) (legal.ingest [0x01]) = .next ((legal.ingest [0x01]).ingest []) :=
  ⟨wf_legal, rfl, by decide, rfl⟩

/-- 52 bytes held of a frame that declares 32768, and a chunk that does not fit. -/
theorem witness_CapacityWedgeDoesNotMove :
    (holding (encodeHeader (hdr 32768 0 0))).txn = none ∧
    (holding (encodeHeader (hdr 32768 0 0))).fb.len ≤ Config.cap ∧
    0 ∈ (holding (encodeHeader (hdr 32768 0 0))).fb.findSync ∧
    52 ≤ (holding (encodeHeader (hdr 32768 0 0))).fb.len ∧
    52 ≤ (holding (encodeHeader (hdr 32768 0 0))).fb.cells.memRead 20 4 ∧
    (holding (encodeHeader (hdr 32768 0 0))).fb.cells.memRead 20 4 ≤ Config.cap ∧
    (holding (encodeHeader (hdr 32768 0 0))).fb.len <
      (holding (encodeHeader (hdr 32768 0 0))).fb.cells.memRead 20 4 ∧
    Config.cap - (holding (encodeHeader (hdr 32768 0 0))).fb.len <
      (List.replicate 32717 (0 : Byte)).length := by
  refine ⟨by decide, by decide, by decide, by decide, by decide, by decide, by decide, ?_⟩
  rw [List.length_replicate]
  decide

theorem witness_IngestIsItsInternalOperationsInOrder :
    legalEmpty.wf ∧ legalEmpty.txn = none ∧ exec (.ingest bare) legalEmpty = .next afterBare :=
  ⟨wf_legalEmpty, rfl, exec_bare⟩

theorem witness_ResetLeavesTheStateOfTheTable : legal.txn = none := rfl

theorem witness_ResetReportsDoneAndIgnoresItsChunk : legal.txn = none := rfl

/-- An exponent of 255: the infinity and a NaN; and the operands of the magnitude clause for 0.5, for the
smallest subnormal and for the NaN. -/
theorem witness_BandTestIsExactlyHalfClosed :
    ((targetWith 3 0x7F800000).posX.extractLsb' 23 8).toNat = 255 ∧
    ((targetWith 3 0xFFC00001).posX.extractLsb' 23 8).toNat = 255 ∧
    (126 = (0x3F000000 : F32).toNat / 2 ^ 23 % 2 ^ 8 ∧ 0 = (0x3F000000 : F32).toNat % 2 ^ 23 ∧
      8388608 = if 126 = 0 then 0 else 2 ^ 23 + 0) ∧
    0 = (0x80000001 : F32).toNat / 2 ^ 23 % 2 ^ 8 ∧ 1 = (0x80000001 : F32).toNat % 2 ^ 23 := by decide

/-- Out of band; in band with the id bound reached, with the depth bound reached, and with room. -/
theorem witness_SampleAppendsOrSetsTheFault :
    legalEmpty.tracker.hist.wf ∧ inBand (targetWith 3 0x3F000001).posX = false ∧
    inBand (targetWith 3 0x3F000000).posX = true ∧
    (bounded.tracker.hist.get 4 = [] ∧ bounded.params.maxIds = some ([3] : List U32).length) ∧
    bounded.params.histDepth = some (bounded.tracker.hist.get 3).length ∧
    ¬(legalEmpty.tracker.hist.get 4 = [] ∧ legalEmpty.params.maxIds = some ([3] : List U32).length ∨
      legalEmpty.params.histDepth = some (legalEmpty.tracker.hist.get 4).length) := by decide

theorem witness_CommitOffABoundaryOnlyCollects :
    legalEmpty.tracker.hist.wf ∧ legalEmpty.params.maxIds = none ∧
    legalEmpty.params.histDepth = none ∧ (19 : U32).toNat % 20 ≠ 0 := by decide

/-- With `entered` one below the limit and one entry to count, and `exited` at the limit. -/
theorem witness_BoundaryCommitEvaluatesEveryTarget :
    legalEmpty.tracker.hist.wf ∧ (0xFFFFFFF0 : U32).toNat % 20 = 0 ∧
    (0xFFFFFFFE : U32).toNat +
      ((({ legalEmpty.tracker with entered := 0xFFFFFFFE, exited := 0xFFFFFFFF } : Tracker).sampleAll
        legalEmpty.params [targetWith 3 0x3E4CCCCD]).hist.filter
          fun e => firstCrossing e.2 = .negToPos).length < 2 ^ 32 ∧
    (0xFFFFFFFF : U32).toNat +
      ((({ legalEmpty.tracker with entered := 0xFFFFFFFE, exited := 0xFFFFFFFF } : Tracker).sampleAll
        legalEmpty.params [targetWith 3 0x3E4CCCCD]).hist.filter
          fun e => firstCrossing e.2 = .posToNeg).length < 2 ^ 32 := by decide

/-- A tracker with one history and both counters given. -/
def counting (h : List F32) (entered exited : U32) : Tracker :=
  { Tracker.reset with hist := [(3, h)], entered := entered, exited := exited }

/-- The last value below the limit for the counter the crossing increments, the other at the limit; and
both at the limit where nothing crosses. -/
theorem witness_EvaluateCountsTheFirstCrossingAndClears :
    (firstCrossing ((counting [0xBDCCCCCD, 0x3DCCCCCD] 0xFFFFFFFE 0xFFFFFFFF).hist.get 3) = .negToPos ∧
      (counting [0xBDCCCCCD, 0x3DCCCCCD] 0xFFFFFFFE 0xFFFFFFFF).entered.toNat + 1 < 2 ^ 32) ∧
    (firstCrossing ((counting [0x3DCCCCCD, 0xBDCCCCCD] 0xFFFFFFFF 0xFFFFFFFE).hist.get 3) = .posToNeg ∧
      (counting [0x3DCCCCCD, 0xBDCCCCCD] 0xFFFFFFFF 0xFFFFFFFE).exited.toNat + 1 < 2 ^ 32) ∧
    firstCrossing ((counting [0x3DCCCCCD] 0xFFFFFFFF 0xFFFFFFFF).hist.get 3) = .none := by decide

/-- Either counter at the limit, with the crossing that increments it. -/
theorem witness_EvaluationPastTheLimitStillClears :
    ((counting [0xBDCCCCCD, 0x3DCCCCCD] 0xFFFFFFFF 0).entered = BitVec.allOnes 32 ∧
      firstCrossing ((counting [0xBDCCCCCD, 0x3DCCCCCD] 0xFFFFFFFF 0).hist.get 3) = .negToPos) ∧
    (counting [0x3DCCCCCD, 0xBDCCCCCD] 0 0xFFFFFFFF).exited = BitVec.allOnes 32 ∧
      firstCrossing ((counting [0x3DCCCCCD, 0xBDCCCCCD] 0 0xFFFFFFFF).hist.get 3) = .posToNeg := by
  decide

theorem witness_CountersNeverDecreaseInAnIngest :
    legal.wf ∧ exec (.ingest [0x01]) legal = .next (legal.ingest [0x01]) ∧
    legal.tracker.entered.toNat + legal.tracker.hist.length + Config.cap < 2 ^ 32 ∧
    legal.tracker.exited.toNat + legal.tracker.hist.length + Config.cap < 2 ^ 32 :=
  ⟨wf_legal, rfl, by decide, by decide⟩

/-- Both clauses: the fault bit set, and no bound. -/
theorem witness_TrackFaultIsStickyUntilReset :
    exec (.ingest bare) bounded = .next (bounded.ingest bare) ∧
    (∀ c, Instr.ingest bare ≠ .reset c) ∧ bounded.tracker.trackFault = true ∧
    exec (.ingest bare) legalEmpty = .next afterBare ∧ legalEmpty.params.maxIds = none ∧
    legalEmpty.params.histDepth = none := by
  refine ⟨rfl, fun _ h => ?_, by decide, exec_bare, by decide, by decide⟩
  cases h

/-- A Frame with targets, a Frame without, and an outcome that is no Frame. -/
theorem witness_OutputsFollowTheOutcome :
    (({ emptyFrame w2Header with targets := some [targetWith 3 0] } : FrameRecord).targets =
      some [targetWith 3 0] ∧ ([targetWith 3 0] : List Target)[0]? = some (targetWith 3 0)) ∧
    (∀ f tl, Result.frame (emptyFrame w2Header) = .frame f → f.targets ≠ some tl) ∧
    ∀ f, Result.noData .noSync ≠ .frame f := by
  refine ⟨⟨rfl, rfl⟩, fun f tl h => ?_, fun f h => ?_⟩
  · cases h
    exact fun hn => nomatch hn
  · cases h

/-- Each clause: a pending transaction; a marker; a header; a record. -/
theorem witness_StepRunsTheDecodedInstruction :
    (({ legal with pending := [{ op := 0, chunk := [0x01] }] } : State).txn = none ∧
      ({ legal with pending := [{ op := 0, chunk := [0x01] }] } : State).pending =
        { op := 0, chunk := [0x01] } :: [] ∧
      decode .host (Transaction.bytes { op := 0, chunk := [0x01] }) = .ok (.ingest [0x01])) ∧
    ((inside w2 .seek).txn = some { overflow := false, stage := .seek } ∧
      (inside w2 .seek).fb.len ≤ Config.cap ∧ 0 ∈ (inside w2 .seek).fb.findSync ∧
      (∀ q ∈ (inside w2 .seek).fb.findSync, 0 ≤ q) ∧
      decode .marker ((inside w2 .seek).fb.cells.readBytes 0 8) = .ok .syncMarker) ∧
    ((inside w2 .header).txn = some { overflow := false, stage := .header } ∧
      (inside w2 .header).fb.len ≤ Config.cap ∧ 52 ≤ (inside w2 .header).fb.len ∧
      decode .header ((inside w2 .header).fb.cells.readBytes 0 52) = .ok (.frameHeader w2Header)) ∧
    (FrameDecode.start w2Header).cur + 8 ≤ w2Header.totalPacketLength.toNat ∧
      (FrameDecode.start w2Header).cur + 8 ≤ Config.cap ∧
      decode .record (atRecord.fb.cells.readBytes 52 8) = .ok (.tlvPointCloud 40) :=
  ⟨⟨by decide, by decide, rfl⟩, ⟨by decide, by decide, by decide, by decide, rfl⟩,
    ⟨by decide, by decide, by decide, rfl⟩, by decide, by decide, rfl⟩

theorem witness_IdleStepKeepsTheState : legal.txn = none ∧ legal.pending = [] := ⟨rfl, rfl⟩

/-- A step of a transaction in progress, from a legal state. -/
theorem witness_EveryStepKeepsLegalStates :
    atRecord.wf ∧ ∃ t, step atRecord = .next t := ⟨wf_atRecord, _, rfl⟩

theorem witness_NoStepOfALegalStateStops : atRecord.wf ∧ legal.wf ∧ bounded.wf :=
  ⟨wf_atRecord, wf_legal, wf_bounded⟩

theorem witness_TransientValuesEndWithTheTransaction :
    ({ legal with pending := [{ op := 0, chunk := [0x01] }] } : State).txn = none ∧
    ({ legal with pending := [{ op := 0, chunk := [0x01] }] } : State).pending ≠ [] ∧
    ∃ t, step { legal with pending := [{ op := 0, chunk := [0x01] }] } = .next t :=
  ⟨rfl, by decide, _, rfl⟩

/-- The full buffer. -/
theorem witness_LenNeverPassesTheCapacity :
    full.fb.len ≤ Config.cap ∧ ∃ t, step full = .next t := ⟨by decide, _, rfl⟩

theorem witness_RunsOfLegalStatesNeverStop : legal.wf := wf_legal

theorem witness_OverlappingTransactionsAreRefused :
    (inside w2 .seek).txn = some { overflow := false, stage := .seek } := rfl

/-- Each clause; the last at its edge, a record stage with no iteration left. -/
theorem witness_InternalOperationsRunOnlyInTheirStage :
    (legal.txn = none ∧ Instr.syncMarker.format ≠ .host) ∧
    ((inside w2 .header).txn = some { overflow := false, stage := .header } ∧
      Stage.header ≠ .seek) ∧
    ((inside w2 .seek).txn = some { overflow := false, stage := .seek } ∧ Stage.seek ≠ .header) ∧
    (inside w2 (.records { FrameDecode.start w2Header with left := 0 })).txn =
        some { overflow := false, stage := .records { FrameDecode.start w2Header with left := 0 } } ∧
      (∀ d, Stage.records { FrameDecode.start w2Header with left := 0 } = .records d → d.left = 0) ∧
      (Instr.tlvPointCloud 8).format = .record := by
  refine ⟨by decide, by decide, by decide, rfl, fun d h => ?_, rfl⟩
  cases h
  rfl

/-- The faults of the clauses occur: of an instruction, and of a step at each of its four places. -/
theorem witness_FaultsAreExactlyAccessesOutsideTheBuffer :
    exec (.ingest []) { State.reset with fb := { cells := [], len := 32769 } } = .fault .outsideBuffer ∧
    exec (.tlvUnknown 9 8)
      (inside [] (.records { FrameDecode.start (hdr 32769 0 1) with cur := 32761 })) =
        .fault .outsideBuffer ∧
    Instr.tlvUnknown 9 8 ∈
      [Instr.tlvPointCloud 8, .tlvTargetList 8, .tlvTargetIndex 8, .tlvUnknown 9 8] ∧
    step { State.reset with
      fb := { cells := [], len := 32769 }, pending := [{ op := 0, chunk := [] }] } =
        .fault .outsideBuffer ∧
    step { inside [] .seek with fb := { cells := [], len := 32769 } } = .fault .outsideBuffer ∧
    step (inside [] (.records { FrameDecode.start (hdr 32769 0 1) with cur := 32761 })) =
      .fault .outsideBuffer ∧
    step { inside [] (.records { FrameDecode.start (hdr 32769 0 1) with cur := 32760 }) with
      fb := { cells := [(32764, 9)], len := 32768 } } = .fault .outsideBuffer :=
  ⟨rfl, rfl, by decide, rfl, rfl, rfl, rfl⟩

theorem witness_ParametersAreNeverWritten : ∃ t, exec (.ingest []) legal = .next t := ⟨_, rfl⟩

end Sys2Proof.Tests
end

section
/-! PROOFS. The frame of the whole machine: no instruction writes a parameter (spec/00_scope.md R9) or
the host's queue. Every update an instruction is built of keeps the two fields; what each instruction
can do is said once, as an inversion lemma, and the claim follows case by case. -/

namespace Sys2Proof.Machine

/-! ## What an INGEST keeps, part by part -/

section hostFields
variable (ov : Bool) (s : State)

@[simp] theorem endWith_hostFields (r : Result) :
    (s.endWith ov r).params = s.params ∧ (s.endWith ov r).pending = s.pending := by
  cases r with
  | frame f => exact ⟨rfl, rfl⟩
  | noData n => exact ⟨rfl, rfl⟩
  | truncated t => exact ⟨rfl, rfl⟩

@[simp] theorem decodeFrame_hostFields (h : Header) :
    (s.decodeFrame ov h).params = s.params ∧ (s.decodeFrame ov h).pending = s.pending := by
  obtain ⟨r, -, he⟩ | ⟨d, -, -, -, he⟩ | ⟨d, -, -, he⟩ := decodeFrame_cases ov h s
  · simp [he]
  · simp [he]
  · simp [he]

@[simp] theorem decodeAligned_hostFields :
    (s.decodeAligned ov).params = s.params ∧ (s.decodeAligned ov).pending = s.pending := by
  obtain ⟨-, he⟩ | ⟨-, -, he⟩ | ⟨-, -, -, -, he⟩ | ⟨-, -, -, -, he⟩ := decodeAligned_cases ov s
  · simp [he]
  · simp [he]
  · simp [he]
  · simp [he]

@[simp] theorem syncAndDecode_hostFields :
    (s.syncAndDecode ov).params = s.params ∧ (s.syncAndDecode ov).pending = s.pending := by
  obtain ⟨-, he⟩ | ⟨p, -, he⟩ := syncAndDecode_cases ov s
  · simp [he]
  · simp [he]

@[simp] theorem ingest_hostFields (c : List Byte) :
    (s.ingest c).params = s.params ∧ (s.ingest c).pending = s.pending := by
  simp [State.ingest]

end hostFields

/-! ## Everything an instruction that answers a next state can have done -/

/-- The sync search of R104 and R105, at its stage only (R74). -/
theorem execSyncMarker_next_cases {s t : State} (h : exec .syncMarker s = .next t) :
    ∃ ov, s.txn = some { overflow := ov, stage := .seek } ∧ s.fb.len ≤ Config.cap ∧
      ((s.fb.trueSync = none ∧ t = s.noSync ov) ∨
       (∃ p, s.fb.trueSync = some p ∧
        t = { s with
          fb := s.fb.discardBefore p
          txn := some { overflow := ov, stage := .header } })) := by
  change execSyncMarker s = _ at h
  unfold execSyncMarker at h
  split at h
  · rename_i ov ht
    obtain ⟨hc, h⟩ := inBuffer_eq_next h
    refine ⟨ov, ht, hc, ?_⟩
    split at h
    · rename_i hp; cases h; exact .inl ⟨hp, rfl⟩
    · rename_i p hp; cases h; exact .inr ⟨p, hp, rfl⟩
  · cases h

/-- The header's checks and the start of the record loop (R121, R122, R107, R130), at their stage only
(R74). -/
theorem execFrameHeader_next_cases {s t : State} {hdr : Header}
    (h : exec (.frameHeader hdr) s = .next t) :
    ∃ ov, s.txn = some { overflow := ov, stage := .header } ∧ s.fb.len ≤ Config.cap ∧
      ((∃ r, s.fb.headerCheck hdr.totalPacketLength.toNat = some r ∧ t = s.endWith ov r) ∨
       (s.fb.headerCheck hdr.totalPacketLength.toNat = none ∧
        t = { s with txn := some { overflow := ov, stage := .records (.start hdr) } })) := by
  change execFrameHeader hdr s = _ at h
  unfold execFrameHeader at h
  split at h
  · rename_i ov ht
    obtain ⟨hc, h⟩ := inBuffer_eq_next h
    refine ⟨ov, ht, hc, ?_⟩
    split at h
    · rename_i r hr; cases h; exact .inl ⟨r, hr, rfl⟩
    · rename_i hr; cases h; exact .inr ⟨hr, rfl⟩
  · cases h

/-- When a RESET answers a next state, it is this one (R176). -/
theorem execReset_next {s t : State} {c : List Byte} (h : exec (.reset c) s = .next t) :
    s.txn = none ∧ t = s.resetS.noData false .resetDone := by
  change execReset c s = _ at h
  unfold execReset at h
  split at h
  · cases h
  · cases h; exact ⟨by assumption, rfl⟩

/-- One argument for the four record instructions: a raise and a record passed over keep both fields. -/
theorem runRecord_hostFields {s t : State} {run : FrameDecode → Except TruncReason FrameDecode}
    (h : s.runRecord run = .next t) : t.params = s.params ∧ t.pending = s.pending := by
  obtain ⟨ov, d, -, -, -, ⟨r, -, rfl⟩ | ⟨d', -, -, rfl⟩⟩ := runRecord_next_cases h
  · simp
  · exact ⟨rfl, rfl⟩

/-! ## The claim -/

/-- Settles O58, by cases on the instruction: each next state is one of those its inversion lemma
lists, and every one of them is built by updates of other fields. -/
theorem parametersAreNeverWritten : Obligations.ParametersAreNeverWritten := by
  intro i s t h
  cases i with
  | syncMarker =>
    obtain ⟨ov, -, -, ⟨-, rfl⟩ | ⟨p, -, rfl⟩⟩ := execSyncMarker_next_cases h
    · simp
    · exact ⟨rfl, rfl⟩
  | frameHeader hdr =>
    obtain ⟨ov, -, -, ⟨r, -, rfl⟩ | ⟨-, rfl⟩⟩ := execFrameHeader_next_cases h
    · exact endWith_hostFields ov s r
    · exact ⟨rfl, rfl⟩
  | tlvPointCloud length => exact runRecord_hostFields h
  | tlvTargetList length => exact runRecord_hostFields h
  | tlvTargetIndex length => exact runRecord_hostFields h
  | tlvUnknown type length => exact runRecord_hostFields h
  | ingest chunk =>
    obtain ⟨-, -, rfl⟩ := execIngest_next h
    exact ingest_hostFields s chunk
  | reset chunk =>
    obtain ⟨-, rfl⟩ := execReset_next h
    simp

end Sys2Proof.Machine
end

section
/-! PROOFS. The invariants of the state: what every step keeps (spec/20_memory.md R22 to R29, R31), and
the reset values (R32). Everything an instruction and a step can do is said once, as an inversion lemma
with two shapes: the transaction ends (`EndsIn`) or its INGEST goes on to the next internal operation
(`Advances`). Each invariant is then shown for these shapes. -/

namespace Sys2Proof.Machine

/-! ## The buffer after any discard -/

/-- Dropping all that is held, or more, is what recovery does (R103, R206). -/
theorem discardBefore_of_len_le {fb : FrameBuffer} {k : Nat} (hk : fb.len ≤ k) :
    fb.discardBefore k = fb.recover := by
  have hcell : Memory.compactCell k fb.len = Memory.compactCell fb.len fb.len := by
    funext c
    unfold Memory.compactCell
    by_cases hc : c.1 < fb.len
    · have hck : c.1 < k := by omega
      simp [hc, hck]
    · simp [hc]
  have hlen : fb.len - k = fb.len - fb.len := by omega
  simp only [FrameBuffer.recover, FrameBuffer.discardBefore, Memory.compact, hcell, hlen]

/-- A discard of any number of bytes keeps the buffer legal. -/
theorem wf_discardBefore {fb : FrameBuffer} (h : fb.wf) (k : Nat) : (fb.discardBefore k).wf := by
  rcases Nat.le_total k fb.len with hk | hk
  · exact discardBefore_wf h hk
  · rw [discardBefore_of_len_le hk]
    exact discardBefore_wf h (Nat.le_refl _)

/-- The trim is a discard, of no byte where at most 7 are held (R105). -/
theorem trim_eq_discardBefore (fb : FrameBuffer) :
    fb.trim = fb.discardBefore (fb.len - Config.trimKeep) := by
  unfold FrameBuffer.trim
  split
  · rfl
  · rw [Nat.sub_eq_zero_of_le (by omega), discardBefore_zero]

/-! ## The fault bit under sampling and commit -/

/-- R29 between two trackers: the fault bit is not cleared, and not set while nothing is bounded. -/
def Tracker.FaultKept (p : Config.Params) (tr tr' : Tracker) : Prop :=
  (tr.trackFault = true → tr'.trackFault = true) ∧
  (p.maxIds = none → p.histDepth = none → tr'.trackFault = tr.trackFault)

theorem Tracker.FaultKept.of_eq {p : Config.Params} {tr tr' : Tracker}
    (h : tr'.trackFault = tr.trackFault) : tr.FaultKept p tr' := ⟨fun hf => h.trans hf, fun _ _ => h⟩

theorem Tracker.FaultKept.trans {p : Config.Params} {tr tr' tr'' : Tracker} (h : tr.FaultKept p tr')
    (h' : tr'.FaultKept p tr'') : tr.FaultKept p tr'' :=
  ⟨fun hf => h'.1 (h.1 hf), fun hi hd => (h'.2 hi hd).trans (h.2 hi hd)⟩

/-- Nothing is full without bounds, so there a sample never takes the branch that sets the fault. -/
theorem sample_faultKept (p : Config.Params) (tr : Tracker) (t : Target) :
    tr.FaultKept p (tr.sample p t) := by
  rcases sample_cases p tr t with ⟨-, he⟩ | ⟨-, hfull, he⟩ | ⟨-, -, he⟩ <;> rw [he]
  · exact .of_eq rfl
  · refine ⟨fun _ => rfl, fun hi hd => ?_⟩
    simp [Tracker.full, hi, hd] at hfull
  · exact .of_eq rfl

theorem sampleAll_faultKept (p : Config.Params) (tr : Tracker) (tl : List Target) :
    tr.FaultKept p (tr.sampleAll p tl) := by
  induction tl generalizing tr with
  | nil => exact .of_eq rfl
  | cons t tl ih => exact (sample_faultKept p tr t).trans (ih _)

theorem afterFrame_faultKept (p : Config.Params) (tr : Tracker) (d : FrameDecode) :
    tr.FaultKept p (tr.afterFrame p d) := by
  unfold Tracker.afterFrame
  split
  · unfold Tracker.commit
    split
    · exact (sampleAll_faultKept p tr _).trans (.of_eq (evaluateAll_trackFault _))
    · exact sampleAll_faultKept p tr _
  · exact .of_eq rfl

/-! ## The end of a transaction -/

/-- The four ways a transaction comes to its outcome: `EndsIn s t` says that `t` is an end of a
transaction whose last operation started in `s`. -/
inductive State.EndsIn (s : State) : State → Prop where
  /-- An outcome and nothing else (R13). -/
  | noData (ov : Bool) (r : NoDataReason) : State.EndsIn s (s.noData ov r)
  /-- The no-sync trim (R105). -/
  | noSync (ov : Bool) : State.EndsIn s (s.noSync ov)
  /-- Recovery (R206). -/
  | truncate (ov : Bool) (r : TruncReason) : State.EndsIn s (s.truncate ov r)
  /-- The commit of a frame (R174). -/
  | commit (ov : Bool) (d : FrameDecode) : State.EndsIn s (s.commitFrame ov d)

section EndsIn
variable {s t : State}

theorem State.EndsIn.txn (h : s.EndsIn t) : t.txn = none := by cases h <;> rfl

theorem State.EndsIn.params (h : s.EndsIn t) : t.params = s.params := by cases h <;> rfl

/-- The record's status is read after every write of the transaction (R171). -/
theorem State.EndsIn.outcome (h : s.EndsIn t) : ∃ o, t.outcome = some o ∧ o.status = t.status := by
  cases h <;> exact ⟨_, rfl, rfl⟩

/-- Whatever the end, what is left of the buffer is what a discard leaves. -/
theorem State.EndsIn.fb (h : s.EndsIn t) : ∃ k, t.fb = s.fb.discardBefore k := by
  cases h with
  | noData ov r => exact ⟨0, (discardBefore_zero s.fb).symm⟩
  | noSync ov => exact ⟨_, trim_eq_discardBefore s.fb⟩
  | truncate ov r => exact ⟨_, rfl⟩
  | commit ov d => exact ⟨_, rfl⟩

/-- Only a frame's commit writes the tracker (R159). -/
theorem State.EndsIn.tracker (h : s.EndsIn t) :
    t.tracker = s.tracker ∨ ∃ d, t.tracker = s.tracker.afterFrame s.params d := by
  cases h with
  | noData ov r => exact .inl rfl
  | noSync ov => exact .inl rfl
  | truncate ov r => exact .inl rfl
  | commit ov d => exact .inr ⟨d, rfl⟩

theorem State.EndsIn.len_le (h : s.EndsIn t) : t.fb.len ≤ s.fb.len := by
  obtain ⟨k, hk⟩ := h.fb
  rw [hk, discardBefore_len]
  exact Nat.sub_le _ _

theorem State.EndsIn.faultKept (h : s.EndsIn t) : s.tracker.FaultKept s.params t.tracker := by
  obtain he | ⟨d, he⟩ := h.tracker <;> rw [he]
  · exact .of_eq rfl
  · exact afterFrame_faultKept s.params s.tracker d

/-- An end between transactions is legal as soon as buffer and tracker were. -/
theorem State.EndsIn.wf (h : s.EndsIn t) (hfb : s.fb.wf) (htr : s.tracker.wf s.params) : t.wf := by
  refine ⟨?_, ?_, by simp [h.txn]⟩
  · obtain ⟨k, hk⟩ := h.fb
    rw [hk]
    exact wf_discardBefore hfb k
  · rw [h.params]
    obtain he | ⟨d, he⟩ := h.tracker <;> rw [he]
    · exact htr
    · exact afterFrame_wf htr d

end EndsIn

theorem endWith_endsIn {fb : FrameBuffer} {T : Nat} {r : Result} (h : fb.headerCheck T = some r)
    (ov : Bool) (s : State) : s.EndsIn (s.endWith ov r) := by
  obtain ⟨-, he⟩ | ⟨-, -, he⟩ | ⟨-, -, -, -, he⟩ | ⟨-, -, -, -, he⟩ := headerCheck_cases fb T <;>
    rw [he] at h <;> cases h
  · exact .noData ov _
  · exact .truncate ov _
  · exact .noData ov _

theorem closeFrame_endsIn (ov : Bool) (d : FrameDecode) (s : State) :
    s.EndsIn (s.closeFrame ov d) := by
  unfold State.closeFrame
  split
  · exact .truncate ov _
  · exact .commit ov d

theorem decodeAligned_endsIn (ov : Bool) (s : State) : s.EndsIn (s.decodeAligned ov) := by
  obtain ⟨-, he⟩ | ⟨-, -, he⟩ | ⟨-, -, -, -, he⟩ | ⟨-, -, -, -, he⟩ := decodeAligned_cases ov s <;>
    rw [he]
  · exact .noData ov _
  · exact .truncate ov _
  · exact .noData ov _
  · obtain ⟨r, -, he⟩ | ⟨d, -, -, -, he⟩ | ⟨d, -, -, he⟩ :=
      decodeFrame_cases ov s.fb.cells.headerAt s <;> rw [he]
    · exact .truncate ov r
    · exact .truncate ov _
    · exact .commit ov d

/-- An INGEST appends, aligns by a discard, and ends from there (R171). -/
theorem ingest_endsIn (c : List Byte) (s : State) :
    ∃ p, State.EndsIn { s with fb := (s.fb.append c).discardBefore p } (s.ingest c) := by
  unfold State.ingest
  obtain ⟨-, he⟩ | ⟨p, -, he⟩ := syncAndDecode_cases (s.fb.overflows c) (s.appendChunk c) <;> rw [he]
  · refine ⟨0, ?_⟩
    rw [discardBefore_zero]
    exact .noSync _
  · exact ⟨p, decodeAligned_endsIn _ _⟩

/-! ## An internal operation that leaves its INGEST in progress -/

/-- An effect that counts at most one more unknown record (R137). -/
def CountEffect (effect : Nat → Nat → FrameDecode → FrameDecode) : Prop :=
  ∀ P m d, (effect P m d).unknownTlvs = d.unknownTlvs ∨
    (effect P m d).unknownTlvs = d.unknownTlvs + 1

/-- The three ways an internal operation hands its INGEST on to the next one (R171). -/
inductive Advances : Instr → State → State → Prop where
  /-- The marker is aligned to index 0 and the header is next (R106). -/
  | aligned {s : State} {ov : Bool} {p : Nat} (ht : s.txn = some { overflow := ov, stage := .seek })
      (hp : s.fb.trueSync = some p) :
      Advances .syncMarker s
        { s with fb := s.fb.discardBefore p, txn := some { overflow := ov, stage := .header } }
  /-- The header passes its checks and the records are next (R130). -/
  | started {s : State} {ov : Bool} {h : Header}
      (ht : s.txn = some { overflow := ov, stage := .header })
      (hc : s.fb.headerCheck h.totalPacketLength.toNat = none) :
      Advances (.frameHeader h) s
        { s with txn := some { overflow := ov, stage := .records (.start h) } }
  /-- A record is decoded and the one behind it is next (R130). -/
  | passed {i : Instr} {s : State} {ov : Bool} {d d' : FrameDecode} {L : U32}
      {effect : Nat → Nat → FrameDecode → FrameDecode} (hi : i.format = .record)
      (ht : s.txn = some { overflow := ov, stage := .records d }) (hl : d.left ≠ 0)
      (hs : SlotEffect effect) (hu : CountEffect effect) (hr : d.record L effect = .ok d') :
      Advances i s { s with txn := some { overflow := ov, stage := .records d' } }

section Advances
variable {i : Instr} {s t : State}

theorem Advances.txn_ne_none (h : Advances i s t) : s.txn ≠ none := by
  cases h with
  | aligned ht => simp [ht]
  | started ht => simp [ht]
  | passed _ ht => simp [ht]

theorem Advances.tracker (h : Advances i s t) : t.tracker = s.tracker := by cases h <;> rfl

theorem Advances.len_le (h : Advances i s t) : t.fb.len ≤ s.fb.len := by
  cases h with
  | aligned => exact Nat.sub_le _ _
  | started => exact Nat.le_refl _
  | passed => exact Nat.le_refl _

end Advances

/-- The loop's start is a legal decode of the header that passed (R107, R130). -/
theorem start_wf {fb : FrameBuffer}
    (h : fb.headerCheck fb.cells.headerAt.totalPacketLength.toNat = none) :
    FrameDecode.wf fb (.start fb.cells.headerAt) := by
  obtain ⟨-, h52, -, hT⟩ := headerCheck_eq_none_iff.mp h
  exact ⟨rfl, Nat.le_refl _, h52, hT, by simp [FrameDecode.start]⟩

/-- A decoded record keeps the frame decode legal: the cursor stays within `T`, and a record is counted
as unknown only in exchange for an iteration (R27, R130). -/
theorem record_wf {fb : FrameBuffer} {d d' : FrameDecode} {L : U32}
    {effect : Nat → Nat → FrameDecode → FrameDecode} (hs : SlotEffect effect)
    (hu : CountEffect effect) (hl : d.left ≠ 0) (hd : FrameDecode.wf fb d)
    (h : d.record L effect = .ok d') : FrameDecode.wf fb d' := by
  obtain ⟨hh, h52, -, hT, hn⟩ := hd
  obtain ⟨hhdr, hcur, hleft, hend⟩ := record_ok_frame hs h
  have hT' : d'.frameEnd = d.frameEnd := by unfold FrameDecode.frameEnd; rw [hhdr]
  have hcount : d'.unknownTlvs.toNat ≤ d.unknownTlvs.toNat + 1 := by
    obtain ⟨-, -, -, rfl⟩ := record_ok_iff.mp h
    rcases hu (d.cur + Config.tlvHdrLen) (L.toNat - Config.tlvHdrLen) d with he | he
    · simp [he]
    · simp only [he, BitVec.toNat_add]
      exact Nat.mod_le _ _
  refine ⟨hhdr.trans hh, by omega, by omega, by omega, ?_⟩
  rw [hhdr, hleft]
  omega

/-- An operation that hands on keeps the state legal; the header that starts the records has to be the
one in the buffer (R120). -/
theorem Advances.wf {i : Instr} {s t : State} (h : Advances i s t) (hw : s.wf)
    (hi : ∀ hdr, i = .frameHeader hdr → hdr = s.fb.cells.headerAt) : t.wf := by
  obtain ⟨hfb, htr, hstage⟩ := hw
  cases h with
  | aligned ht hp =>
    refine ⟨wf_discardBefore hfb _, htr, ?_⟩
    rintro x ⟨⟩
    exact syncAt_zero_of_trueSync hp
  | started ht hc =>
    obtain rfl := hi _ rfl
    refine ⟨hfb, htr, ?_⟩
    rintro x ⟨⟩
    exact ⟨hstage _ ht, start_wf hc⟩
  | passed _ ht hl hs hu hr =>
    obtain ⟨hsync, hd⟩ := hstage _ ht
    refine ⟨hfb, htr, ?_⟩
    rintro x ⟨⟩
    exact ⟨hsync, record_wf hs hu hl hd hr⟩

/-! ## Everything an instruction can do -/

/-- One argument for the four record instructions: a raise ends the INGEST, a record passed over hands
it on. -/
theorem runRecord_endsIn_or_advances {i : Instr} {s t : State} {L : U32}
    {effect : Nat → Nat → FrameDecode → FrameDecode} (hi : i.format = .record)
    (hs : SlotEffect effect) (hu : CountEffect effect)
    (h : s.runRecord (fun d => d.record L effect) = .next t) :
    s.EndsIn t ∨ Advances i s t := by
  obtain ⟨ov, d, ht, hl, -, ⟨r, -, rfl⟩ | ⟨d', hr, -, rfl⟩⟩ := runRecord_next_cases h
  · exact .inl (.truncate ov r)
  · exact .inr (.passed hi ht hl hs hu hr)

/-- An instruction that answers a next state is a RESET, an INGEST, or an internal operation that ends
its INGEST or hands it on. -/
theorem exec_next_cases {i : Instr} {s t : State} (h : exec i s = .next t) :
    (∃ c, i = .reset c ∧ s.resetS.EndsIn t) ∨
    (∃ c p, i = .ingest c ∧ State.EndsIn { s with fb := (s.fb.append c).discardBefore p } t) ∨
    s.EndsIn t ∨ Advances i s t := by
  cases i with
  | syncMarker =>
    obtain ⟨ov, ht, -, ⟨-, rfl⟩ | ⟨p, hp, rfl⟩⟩ := execSyncMarker_next_cases h
    · exact .inr (.inr (.inl (.noSync ov)))
    · exact .inr (.inr (.inr (.aligned ht hp)))
  | frameHeader hdr =>
    obtain ⟨ov, ht, -, ⟨r, hr, rfl⟩ | ⟨hc, rfl⟩⟩ := execFrameHeader_next_cases h
    · exact .inr (.inr (.inl (endWith_endsIn hr ov s)))
    · exact .inr (.inr (.inr (.started ht hc)))
  | tlvPointCloud L =>
    exact .inr (.inr (runRecord_endsIn_or_advances rfl (slotEffect_pointCloud _)
      (fun P m d => .inl (unknownTlvs_pointCloud _ P m d)) h))
  | tlvTargetList L =>
    exact .inr (.inr (runRecord_endsIn_or_advances rfl (slotEffect_targetList _)
      (fun P m d => .inl (unknownTlvs_targetList _ P m d)) h))
  | tlvTargetIndex L =>
    exact .inr (.inr (runRecord_endsIn_or_advances rfl (slotEffect_targetIndex _)
      (fun _ _ _ => .inl rfl) h))
  | tlvUnknown type L =>
    exact .inr (.inr (runRecord_endsIn_or_advances rfl slotEffect_unknown
      (fun _ _ _ => .inr rfl) h))
  | ingest c =>
    obtain ⟨-, -, rfl⟩ := execIngest_next h
    obtain ⟨p, hp⟩ := ingest_endsIn c s
    exact .inr (.inl ⟨c, p, rfl, hp⟩)
  | reset c =>
    obtain ⟨-, rfl⟩ := execReset_next h
    exact .inl ⟨c, rfl, .noData _ _⟩

/-- A RESET between transactions completes (R176). -/
theorem execReset_eq {s : State} (ht : s.txn = none) (c : List Byte) :
    exec (.reset c) s = .next (s.resetS.noData false .resetDone) := by
  show execReset c s = _
  unfold execReset
  rw [ht]

/-! ## Everything a step can do -/

/-- What the fetch runs is what the bytes decode to, on the state as it is. -/
theorem fetchDecoded_eq_run {format : Format} {bytes : List Byte} {s s' : State} {i : Instr}
    (h : fetchDecoded format bytes s = .run i s') : decode format bytes = .ok i ∧ s' = s := by
  unfold fetchDecoded at h
  split at h
  · cases h; exact ⟨by assumption, rfl⟩
  · cases h

theorem fetchDecoded_ne_settle {format : Format} {bytes : List Byte} {s t : State} :
    fetchDecoded format bytes s ≠ .settle t := by
  unfold fetchDecoded
  split <;> exact fun h => nomatch h

/-- A decoded header is the one the bytes hold, and no other wire format decodes to a header (R63). -/
theorem decode_eq_frameHeader {format : Format} {bs : List Byte} {h : Header}
    (hd : decode format bs = .ok (.frameHeader h)) : format = .header ∧ h = headerOfBytes bs := by
  cases format with
  | host =>
    cases bs with
    | nil => cases hd
    | cons b chunk =>
      simp only [decode, decodeHost, decodeTransaction] at hd
      split at hd <;> cases hd
  | marker =>
    simp only [decode, decodeMarker] at hd
    split_ifs at hd
    cases hd
  | header =>
    simp only [decode, decodeHeader] at hd
    split_ifs at hd
    cases hd
    exact ⟨rfl, rfl⟩
  | record =>
    simp only [decode, decodeRecord, recordInstr] at hd
    split_ifs at hd
    split at hd <;> cases hd

/-- Inside an INGEST the state is the instruction's as it is, and a fetched header is the one in the
buffer (R120). -/
theorem fetchStage_eq_run {ov : Bool} {stage : Stage} {s s' : State} {i : Instr}
    (h : fetchStage ov stage s = .run i s') :
    s' = s ∧ ∀ hdr, i = .frameHeader hdr → hdr = s.fb.cells.headerAt := by
  cases stage with
  | seek =>
    simp only [fetchStage, fetchMarker] at h
    split at h
    · cases h
    · obtain ⟨hd, rfl⟩ := fetchDecoded_eq_run h
      refine ⟨rfl, ?_⟩
      rintro hdr rfl
      exact nomatch (decode_eq_frameHeader hd).1
  | header =>
    simp only [fetchStage, fetchHeader] at h
    split at h
    · cases h
    · obtain ⟨hd, rfl⟩ := fetchDecoded_eq_run h
      refine ⟨rfl, ?_⟩
      rintro hdr rfl
      exact (decode_eq_frameHeader hd).2
  | records d =>
    simp only [fetchStage, fetchRecord] at h
    split_ifs at h
    obtain ⟨hd, rfl⟩ := fetchDecoded_eq_run h
    refine ⟨rfl, ?_⟩
    rintro hdr rfl
    exact nomatch (decode_eq_frameHeader hd).1

/-- Where the sequence itself ends the INGEST, it ends in one of the known ways. -/
theorem fetchStage_eq_settle {ov : Bool} {stage : Stage} {s t : State}
    (h : fetchStage ov stage s = .settle t) : s.EndsIn t := by
  cases stage with
  | seek =>
    simp only [fetchStage, fetchMarker] at h
    split at h
    · cases h; exact .noSync ov
    · exact absurd h fetchDecoded_ne_settle
  | header =>
    simp only [fetchStage, fetchHeader] at h
    split at h
    · cases h; exact .noData ov _
    · exact absurd h fetchDecoded_ne_settle
  | records d =>
    simp only [fetchStage, fetchRecord] at h
    split_ifs at h
    · cases h; exact closeFrame_endsIn ov d s
    · cases h; exact .truncate ov _
    · exact absurd h fetchDecoded_ne_settle

/-- A step is idle, or one transaction of the host; inside an INGEST it is one internal operation, or
the end the sequence itself takes. -/
theorem step_cases {s t : State} (h : step s = .next t) :
    (s.txn = none ∧ s.pending = [] ∧ t = s) ∨
    (∃ x rest, s.txn = none ∧ s.pending = x :: rest ∧
      exec (decodeTransaction x) { s with pending := rest } = .next t) ∨
    (∃ i, s.txn ≠ none ∧ (∀ hdr, i = .frameHeader hdr → hdr = s.fb.cells.headerAt) ∧
      exec i s = .next t) ∨
    (s.txn ≠ none ∧ s.EndsIn t) := by
  obtain ht | ⟨x, ht⟩ := Option.eq_none_or_eq_some s.txn
  · cases hp : s.pending with
    | nil =>
      obtain ⟨i, s', hf, -⟩ | hf := step_next_cases h <;> rw [fetch_of_idle ht hp] at hf <;> cases hf
      exact .inl ⟨ht, rfl, rfl⟩
    | cons x rest =>
      obtain ⟨i, s', hf, he⟩ | hf := step_next_cases h <;>
        rw [fetch_of_pending ht hp] at hf <;> cases hf
      exact .inr (.inl ⟨x, rest, ht, rfl, he⟩)
  · have hn : s.txn ≠ none := by simp [ht]
    by_cases hc : s.fb.len ≤ Config.cap
    · obtain ⟨i, s', hf, he⟩ | hf := step_next_cases h <;> rw [fetch_of_stage ht hc] at hf
      · obtain ⟨rfl, hi⟩ := fetchStage_eq_run hf
        exact .inr (.inr (.inl ⟨i, hn, hi, he⟩))
      · exact .inr (.inr (.inr ⟨hn, fetchStage_eq_settle hf⟩))
    · have hfault : fetch s = .fault .outsideBuffer := by
        unfold fetch
        rw [ht]
        exact if_pos (Nat.lt_of_not_le hc)
      obtain ⟨i, s', hf, -⟩ | hf := step_next_cases h <;> rw [hfault] at hf <;> cases hf

/-! ## What every instruction and every step keep -/

theorem decodeTransaction_ne_frameHeader (x : Transaction) (hdr : Header) :
    decodeTransaction x ≠ .frameHeader hdr := by
  unfold decodeTransaction
  split <;> exact fun h => nomatch h

theorem wf_empty_fb : FrameBuffer.wf { cells := [], len := 0 } := by
  simp [FrameBuffer.wf, Memory.wf]

/-- Every instruction keeps a legal state legal, a FRAME_HEADER when it is the header in the buffer. -/
theorem exec_wf {i : Instr} {s t : State} (h : exec i s = .next t) (hw : s.wf)
    (hi : ∀ hdr, i = .frameHeader hdr → hdr = s.fb.cells.headerAt) : t.wf := by
  have ⟨hfb, htr, _⟩ := hw
  obtain ⟨c, -, he⟩ | ⟨c, p, -, he⟩ | he | ha := exec_next_cases h
  · exact he.wf wf_empty_fb (wf_of_hist_nil rfl fun _ _ => rfl)
  · exact he.wf (wf_discardBefore (append_wf hfb c) p) htr
  · exact he.wf hfb htr
  · exact ha.wf hw hi

theorem exec_len_le {i : Instr} {s t : State} (h : exec i s = .next t)
    (hc : s.fb.len ≤ Config.cap) : t.fb.len ≤ Config.cap := by
  obtain ⟨c, -, he⟩ | ⟨c, p, -, he⟩ | he | ha := exec_next_cases h
  · exact he.len_le.trans (Nat.zero_le _)
  · calc t.fb.len ≤ (s.fb.append c).len - p := he.len_le
      _ ≤ (s.fb.append c).len := Nat.sub_le _ _
      _ ≤ Config.cap := append_len_le hc c
  · exact he.len_le.trans hc
  · exact ha.len_le.trans hc

/-- Between transactions an instruction runs a whole transaction (R49). -/
theorem exec_ends_of_txn_none {i : Instr} {s t : State} (h : exec i s = .next t)
    (ht : s.txn = none) : ∃ u : State, u.EndsIn t := by
  obtain ⟨c, -, he⟩ | ⟨c, p, -, he⟩ | he | ha := exec_next_cases h
  · exact ⟨_, he⟩
  · exact ⟨_, he⟩
  · exact ⟨_, he⟩
  · exact absurd ht ha.txn_ne_none

/-! ## The claims -/

/-- Settles O49, by cases on what the step was. -/
theorem everyStepKeepsLegalStates : Obligations.EveryStepKeepsLegalStates := by
  intro s t hw h
  obtain ⟨-, -, rfl⟩ | ⟨x, rest, -, -, he⟩ | ⟨i, -, hi, he⟩ | ⟨-, he⟩ := step_cases h
  · exact hw
  · exact exec_wf he hw fun hdr hx => absurd hx (decodeTransaction_ne_frameHeader x hdr)
  · exact exec_wf he hw hi
  · exact he.wf hw.1 hw.2.1

/-- Settles O45: only a commit writes the bit, by its samples, and only where the store is full. -/
theorem trackFaultIsStickyUntilReset : Obligations.TrackFaultIsStickyUntilReset := by
  intro i s t h hne
  change s.tracker.FaultKept s.params t.tracker
  obtain ⟨c, hi, -⟩ | ⟨c, p, -, he⟩ | he | ha := exec_next_cases h
  · exact absurd hi (hne c)
  · exact he.faultKept
  · exact he.faultKept
  · exact .of_eq (by rw [ha.tracker])

/-- Settles O52: a step between transactions is idle or a whole transaction. -/
theorem transientValuesEndWithTheTransaction : Obligations.TransientValuesEndWithTheTransaction := by
  intro s t ht h
  obtain ⟨-, hp, rfl⟩ | ⟨x, rest, -, -, he⟩ | ⟨i, hn, -⟩ | ⟨hn, -⟩ := step_cases h
  · exact ⟨ht, fun hne => absurd hp hne⟩
  · obtain ⟨u, hu⟩ := exec_ends_of_txn_none he ht
    exact ⟨hu.txn, fun _ => hu.outcome⟩
  · exact absurd ht hn
  · exact absurd ht hn

/-- Settles O53: only an append makes the buffer longer, and it drops a chunk that does not fit. -/
theorem lenNeverPassesTheCapacity : Obligations.LenNeverPassesTheCapacity := by
  intro s t hc h
  obtain ⟨-, -, rfl⟩ | ⟨x, rest, -, -, he⟩ | ⟨i, -, -, he⟩ | ⟨-, he⟩ := step_cases h
  · exact hc
  · exact exec_len_le he hc
  · exact exec_len_le he hc
  · exact he.len_le.trans hc

/-- Settles O34: the fields a RESET writes are those of the reset state. -/
theorem resetLeavesTheStateOfTheTable : Obligations.ResetLeavesTheStateOfTheTable := by
  refine ⟨fun s c ht => ⟨_, execReset_eq ht c, ?_⟩, ?_⟩
  · exact ⟨fun _ => rfl, rfl, fun _ => rfl, rfl, rfl, rfl⟩
  · exact ⟨fun _ => rfl, rfl, fun _ => rfl, rfl, rfl, rfl⟩

/-- Legality at reset does not depend on the parameters: the store is empty and the fault bit 0. -/
theorem wf_reset_with_params (p : Config.Params) : State.wf { State.reset with params := p } :=
  ⟨wf_empty_fb, wf_of_hist_nil rfl fun _ _ => rfl, fun _ h => nomatch h⟩

/-- Settles O50. -/
theorem resetStateIsLegal : Obligations.ResetStateIsLegal :=
  ⟨wf_reset_with_params Config.defaults, wf_reset_with_params⟩

end Sys2Proof.Machine
end

section
/-! PROOFS. The buffer's memory: the byte order of its fields (spec/20_memory.md R44), and where an
operation faults because it would access an index outside it (R40; log 8). What an operation needs to
fault is said once per instruction and per stage of the fetch; R22 and R27 exclude all of it. -/

namespace Sys2Proof.Machine

/-! ## Little-endian reads -/

theorem Memory.memRead_zero (m : Memory) (a : Nat) : m.memRead a 0 = 0 := rfl

/-- The first byte of a field is its least significant one (R44). -/
theorem Memory.memRead_succ (m : Memory) (a n : Nat) :
    m.memRead a (n + 1) = (m.read a).toNat + 256 * m.memRead (a + 1) n := by
  have hbytes : m.readBytes a (n + 1) = m.read a :: m.readBytes (a + 1) n := by
    simp only [Memory.readBytes, List.range_succ_eq_map, List.map_cons, List.map_map]
    congr 1
    exact List.map_congr_left fun k _ => congrArg m.read (by simp only [Nat.succ_eq_add_one]; omega)
  rw [Memory.memRead, hbytes, leNat, Memory.memRead]

/-- A u32 field holds the whole value read: four bytes do not wrap (R44). -/
theorem Memory.toNat_u32At (m : Memory) (a : Nat) : (m.u32At a).toNat = m.memRead a 4 := by
  have hlt : m.memRead a 4 < 2 ^ 32 := by
    have h := leNat_lt (m.readBytes a 4)
    rw [Memory.readBytes_length] at h
    exact h
  rw [Memory.u32At, BitVec.toNat_ofNat, Nat.mod_eq_of_lt hlt]

/-! ## Where an instruction faults -/

/-- A guarded operation faults by the guard or by itself. -/
theorem inBuffer_eq_fault_iff {s : State} {k : Host.Outcome State Fault Refusal} :
    s.inBuffer k = .fault .outsideBuffer ↔
      Config.cap < s.fb.len ∨ k = .fault .outsideBuffer := by
  unfold State.inBuffer
  split_ifs with hc <;> simp [hc]

theorem execIngest_eq_fault_iff {s : State} {c : List Byte} :
    exec (.ingest c) s = .fault .outsideBuffer ↔ s.txn = none ∧ Config.cap < s.fb.len := by
  change execIngest c s = _ ↔ _
  unfold execIngest
  split
  · rename_i ht; simp [ht]
  · rename_i ht; simp [ht, inBuffer_eq_fault_iff]

theorem execReset_ne_fault (s : State) (c : List Byte) (r : Fault) :
    exec (.reset c) s ≠ .fault r := by
  change execReset c s ≠ _
  unfold execReset
  split <;> exact fun h => nomatch h

theorem execSyncMarker_eq_fault_iff {s : State} :
    exec .syncMarker s = .fault .outsideBuffer ↔
      (∃ ov, s.txn = some { overflow := ov, stage := .seek }) ∧ Config.cap < s.fb.len := by
  change execSyncMarker s = _ ↔ _
  unfold execSyncMarker
  split
  · rename_i ov ht
    rw [inBuffer_eq_fault_iff]
    split <;> simp [ht]
  · rename_i hstage
    exact ⟨(fun h => nomatch h), fun ⟨⟨ov, ht⟩, _⟩ => (hstage ov ht).elim⟩

theorem execFrameHeader_eq_fault_iff {s : State} {hdr : Header} :
    exec (.frameHeader hdr) s = .fault .outsideBuffer ↔
      (∃ ov, s.txn = some { overflow := ov, stage := .header }) ∧ Config.cap < s.fb.len := by
  change execFrameHeader hdr s = _ ↔ _
  unfold execFrameHeader
  split
  · rename_i ov ht
    rw [inBuffer_eq_fault_iff]
    split <;> simp [ht]
  · rename_i hstage
    exact ⟨(fun h => nomatch h), fun ⟨⟨ov, ht⟩, _⟩ => (hstage ov ht).elim⟩

/-- A record operation faults on a buffer past its capacity, or on a decoded record that ends past it
(R40). -/
theorem runRecord_eq_fault_iff {s : State} {run : FrameDecode → Except TruncReason FrameDecode} :
    s.runRecord run = .fault .outsideBuffer ↔
      ∃ ov d, s.txn = some { overflow := ov, stage := .records d } ∧ d.left ≠ 0 ∧
        (Config.cap < s.fb.len ∨ ∃ d', run d = .ok d' ∧ Config.cap < d'.cur) := by
  unfold State.runRecord
  split
  · rename_i ov d ht
    by_cases hl : d.left = 0
    · simp [ht, hl]
    · rw [if_neg hl, inBuffer_eq_fault_iff]
      cases hr : run d with
      | error r => simp [ht, hl, hr]
      | ok d' => simp [ht, hl, hr]
  · rename_i hstage
    exact ⟨(fun h => nomatch h), fun ⟨ov, d, ht, _⟩ => (hstage ov d ht).elim⟩

/-- A record of length `L` at the cursor is within the frame and ends past the capacity: the case R27
excludes. -/
def FrameDecode.RecordPastCap (d : FrameDecode) (L : Nat) : Prop :=
  8 ≤ L ∧ d.cur + L ≤ d.hdr.totalPacketLength.toNat ∧ Config.cap < d.cur + L

/-- The cursor after a decoded record is the record's end (R130). -/
theorem record_ok_past_cap_iff {d : FrameDecode} {L : U32}
    {effect : Nat → Nat → FrameDecode → FrameDecode} :
    (∃ d', d.record L effect = .ok d' ∧ Config.cap < d'.cur) ↔ d.RecordPastCap L.toNat := by
  simp only [record_ok_iff, FrameDecode.frameEnd, show Config.tlvHdrLen = 8 from rfl]
  constructor
  · rintro ⟨d', ⟨-, hL, hend, rfl⟩, hcap⟩
    exact ⟨hL, hend, hcap⟩
  · rintro ⟨hL, hend, hcap⟩
    exact ⟨_, ⟨by omega, hL, hend, rfl⟩, hcap⟩

/-- The four record instructions differ in their effect only (R134 to R137). -/
theorem exec_record_eq {type L : U32} {i : Instr}
    (hi : i ∈ [.tlvPointCloud L, .tlvTargetList L, .tlvTargetIndex L, .tlvUnknown type L])
    (s : State) : ∃ effect, exec i s = s.runRecord fun d => d.record L effect := by
  simp only [List.mem_cons, List.not_mem_nil, or_false] at hi
  obtain rfl | rfl | rfl | rfl := hi
  · exact ⟨decodePointCloud s.fb.cells, rfl⟩
  · exact ⟨decodeTargetList s.fb.cells, rfl⟩
  · exact ⟨decodeTargetIndex s.fb.cells, rfl⟩
  · exact ⟨fun _ _ => skipUnknown, rfl⟩

theorem execRecord_eq_fault_iff {type L : U32} {i : Instr} {s : State}
    (hi : i ∈ [.tlvPointCloud L, .tlvTargetList L, .tlvTargetIndex L, .tlvUnknown type L]) :
    exec i s = .fault .outsideBuffer ↔ ∃ (ov : Bool) (d : FrameDecode),
      s.txn = some { overflow := ov, stage := .records d } ∧ d.left ≠ 0 ∧
      (Config.cap < s.fb.len ∨ d.RecordPastCap L.toNat) := by
  obtain ⟨effect, he⟩ := exec_record_eq hi s
  simp only [he, runRecord_eq_fault_iff, record_ok_past_cap_iff]

/-- Within the capacity only a record can reach past it, so only the record stage faults. -/
theorem exec_ne_fault_of_len_le {i : Instr} {s : State} (hc : s.fb.len ≤ Config.cap)
    (hstage : ∀ ov d, s.txn ≠ some { overflow := ov, stage := .records d }) :
    exec i s ≠ .fault .outsideBuffer := by
  intro h
  have hrecord : ∀ run, s.runRecord run ≠ .fault .outsideBuffer := fun run hr => by
    obtain ⟨ov, d, ht, -⟩ := runRecord_eq_fault_iff.mp hr
    exact hstage ov d ht
  cases i with
  | syncMarker => exact absurd (execSyncMarker_eq_fault_iff.mp h).2 (Nat.not_lt.mpr hc)
  | frameHeader hdr => exact absurd (execFrameHeader_eq_fault_iff.mp h).2 (Nat.not_lt.mpr hc)
  | tlvPointCloud L => exact hrecord _ h
  | tlvTargetList L => exact hrecord _ h
  | tlvTargetIndex L => exact hrecord _ h
  | tlvUnknown type L => exact hrecord _ h
  | ingest c => exact absurd (execIngest_eq_fault_iff.mp h).2 (Nat.not_lt.mpr hc)
  | reset c => exact execReset_ne_fault s c _ h

/-! ## Where a step faults -/

/-- A step faults in its fetch or in the instruction fetched. -/
theorem step_eq_fault_cases {s : State} {r : Fault} (h : step s = .fault r) :
    fetch s = .fault r ∨ ∃ i s', fetch s = .run i s' ∧ exec i s' = .fault r := by
  unfold step at h
  split at h
  · exact .inr ⟨_, _, by assumption, h⟩
  · cases h
  · cases h; exact .inl (by assumption)
  · cases h

theorem step_of_fetch_run {s s' : State} {i : Instr} (h : fetch s = .run i s') :
    step s = exec i s' := by
  unfold step
  rw [h]

theorem step_of_fetch_settle {s t : State} (h : fetch s = .settle t) : step s = .next t := by
  unfold step
  rw [h]

theorem step_of_fetch_fault {s : State} {r : Fault} (h : fetch s = .fault r) :
    step s = .fault r := by
  unfold step
  rw [h]

/-- Between transactions a step faults where the INGEST it takes from the queue does. -/
theorem step_eq_fault_iff_of_txn_none {s : State} (ht : s.txn = none) :
    step s = .fault .outsideBuffer ↔
      Config.cap < s.fb.len ∧ ∃ (c : List Byte) (rest : List Transaction),
        s.pending = { op := 0, chunk := c } :: rest := by
  cases hp : s.pending with
  | nil => simp [step_of_fetch_settle (fetch_of_idle ht hp)]
  | cons x rest =>
    obtain ⟨op, c⟩ := x
    rw [step_of_fetch_run (fetch_of_pending ht hp)]
    by_cases hop : op = 0
    · simp [decodeTransaction, hop, execIngest_eq_fault_iff, ht]
    · have hreset : decodeTransaction { op := op, chunk := c } = .reset c := if_neg hop
      simp [hreset, execReset_ne_fault, show ¬op = 0#1 from hop]

/-- Inside an INGEST every step on a buffer past its capacity faults. -/
theorem fetch_of_cap_lt {s : State} (ht : s.txn ≠ none) (hc : Config.cap < s.fb.len) :
    fetch s = .fault .outsideBuffer := by
  obtain ⟨x, hx⟩ := Option.ne_none_iff_exists'.mp ht
  unfold fetch
  rw [hx]
  exact if_pos hc

theorem fetchDecoded_ne_fault {format : Format} {bytes : List Byte} {s : State} {r : Fault} :
    fetchDecoded format bytes s ≠ .fault r := by
  unfold fetchDecoded
  split <;> exact fun h => nomatch h

/-- The fetch itself faults at a sub-header only (R130, R131). -/
theorem fetchStage_ne_fault {ov : Bool} {stage : Stage} {s : State} {r : Fault}
    (hstage : ∀ d, stage ≠ .records d) : fetchStage ov stage s ≠ .fault r := by
  cases stage with
  | seek =>
    simp only [fetchStage, fetchMarker]
    split
    · exact fun h => nomatch h
    · exact fetchDecoded_ne_fault
  | header =>
    simp only [fetchStage, fetchHeader]
    split
    · exact fun h => nomatch h
    · exact fetchDecoded_ne_fault
  | records d => exact absurd rfl (hstage d)

/-- The sync search and the header read what is held, so within the capacity neither faults. -/
theorem step_ne_fault_of_not_records {s : State} {x : Txn} (ht : s.txn = some x)
    (hc : s.fb.len ≤ Config.cap) (hstage : ∀ d, x.stage ≠ .records d) :
    step s ≠ .fault .outsideBuffer := by
  intro h
  obtain hf | ⟨i, s', hf, he⟩ := step_eq_fault_cases h <;> rw [fetch_of_stage ht hc] at hf
  · exact fetchStage_ne_fault hstage hf
  · obtain ⟨rfl, -⟩ := fetchStage_eq_run hf
    refine exec_ne_fault_of_len_le hc (fun ov d htd => ?_) he
    rw [ht, Option.some.injEq] at htd
    exact hstage d (by rw [htd])

/-- The dispatch of R66 gives one of the four record instructions, with the record's length. -/
theorem recordInstr_mem (type L : U32) :
    recordInstr type L ∈
      [.tlvPointCloud L, .tlvTargetList L, .tlvTargetIndex L, .tlvUnknown type L] := by
  unfold recordInstr
  split <;> simp

/-- An iteration is left, and the sub-header at the cursor or the record it declares is within the frame
and ends past the capacity (R130, R131). -/
def FrameDecode.CursorPastCap (d : FrameDecode) (mem : Memory) : Prop :=
  d.left ≠ 0 ∧ d.cur + 8 ≤ d.hdr.totalPacketLength.toNat ∧
    (Config.cap < d.cur + 8 ∨ d.RecordPastCap (mem.memRead (d.cur + 4) 4))

/-- In the record stage the fetch checks the sub-header and the instruction checks the record. -/
theorem step_eq_fault_iff_of_records {s : State} {ov : Bool} {d : FrameDecode}
    (ht : s.txn = some { overflow := ov, stage := .records d }) (hc : s.fb.len ≤ Config.cap) :
    step s = .fault .outsideBuffer ↔ d.CursorPastCap s.fb.cells := by
  have hfetch : fetch s = fetchRecord ov d s := fetch_of_stage ht hc
  unfold fetchRecord at hfetch
  unfold FrameDecode.CursorPastCap
  change _ ↔ _ ∧ d.cur + Config.tlvHdrLen ≤ d.frameEnd ∧ (Config.cap < d.cur + Config.tlvHdrLen ∨ _)
  split_ifs at hfetch with hleft hend hcap
  · simp [step_of_fetch_settle hfetch, hleft]
  · simp [step_of_fetch_settle hfetch, Nat.not_le.mpr hend]
  · simp [step_of_fetch_fault hfetch, hleft, Nat.not_lt.mp hend, hcap]
  · rw [fetchDecoded, decode_record_at] at hfetch
    rw [step_of_fetch_run hfetch, execRecord_eq_fault_iff (recordInstr_mem _ _), ht,
      Memory.toNat_u32At]
    simp [hleft, hcap, Nat.not_lt.mp hend, Nat.not_lt.mpr hc]

/-- A step faults on the transaction it takes, on a buffer past its capacity, or at a record. -/
theorem step_eq_fault_iff {s : State} :
    step s = .fault .outsideBuffer ↔
      (s.txn = none ∧ Config.cap < s.fb.len ∧ ∃ (c : List Byte) (rest : List Transaction),
        s.pending = { op := 0, chunk := c } :: rest) ∨
      (s.txn ≠ none ∧ Config.cap < s.fb.len) ∨
      ∃ (ov : Bool) (d : FrameDecode), s.txn = some { overflow := ov, stage := .records d } ∧
        d.CursorPastCap s.fb.cells := by
  obtain ht | ⟨⟨ov, stage⟩, ht⟩ := Option.eq_none_or_eq_some s.txn
  · simp [ht, step_eq_fault_iff_of_txn_none ht]
  · by_cases hc : Config.cap < s.fb.len
    · have hn : s.txn ≠ none := by simp [ht]
      simp [step_of_fetch_fault (fetch_of_cap_lt hn hc), hn, hc]
    · cases stage with
      | seek => simp [ht, hc, step_ne_fault_of_not_records ht (Nat.not_lt.mp hc)]
      | header => simp [ht, hc, step_ne_fault_of_not_records ht (Nat.not_lt.mp hc)]
      | records d => simp [ht, hc, step_eq_fault_iff_of_records ht (Nat.not_lt.mp hc)]

/-! ## The claims -/

/-- Settles O5, byte by byte. -/
theorem fieldsAreLittleEndian : Obligations.FieldsAreLittleEndian := by
  intro m a
  simp only [Memory.memRead_succ, Memory.memRead_zero, Nat.add_assoc, Nat.reduceAdd]
  constructor <;> omega

/-- Settles O57, from the condition of each instruction and of the step. -/
theorem faultsAreExactlyAccessesOutsideTheBuffer :
    Obligations.FaultsAreExactlyAccessesOutsideTheBuffer := fun s =>
  ⟨fun _ => execIngest_eq_fault_iff, fun c => execReset_ne_fault s c _,
    execSyncMarker_eq_fault_iff, fun _ => execFrameHeader_eq_fault_iff,
    fun _ _ _ hi => execRecord_eq_fault_iff hi, step_eq_fault_iff⟩

end Sys2Proof.Machine
end

section
/-! PROOFS. Encoding and decoding (spec/30_encoding.md): a layout is a concatenation of fields, and a
field is read back where the concatenation puts it. `HoldsAt` says of bytes, and `Memory.HoldsAt` of the
buffer, that a sequence stands at an offset; both split along `++`, so each structure is read back field
by field, a payload element by element, and a whole frame record by record. The outcome codes, the outputs
that follow the outcome, and the stages of the internal operations stand in between. -/

namespace Sys2Proof.Machine

/-! ## Numbers and their bytes -/

/-- The bytes of the value of a byte sequence are that sequence (R44). -/
theorem leBytes_leNat (bs : List Byte) : leBytes bs.length (leNat bs) = bs := by
  induction bs with
  | nil => rfl
  | cons b bs ih =>
    have hb : b.toNat < 256 := b.isLt
    have hlow : BitVec.ofNat 8 (b.toNat + 256 * leNat bs) = b := by
      apply BitVec.eq_of_toNat_eq
      rw [BitVec.toNat_ofNat]
      omega
    have hhigh : (b.toNat + 256 * leNat bs) / 256 = leNat bs := by omega
    rw [List.length_cons, leNat, leBytes, hlow, hhigh, ih]

theorem slice_length {bs : List Byte} {o n : Nat} (h : o + n ≤ bs.length) :
    (slice bs o n).length = n := by
  simp only [slice, List.length_take, List.length_drop]
  omega

theorem slice_zero (bs : List Byte) (n : Nat) : slice bs 0 n = bs.take n := rfl

/-- Neighbouring parts make one part. -/
theorem slice_append_slice {bs : List Byte} {o o' n k : Nat} (h : o' = o + n) :
    slice bs o n ++ slice bs o' k = slice bs o (n + k) := by
  rw [h, slice, slice, slice, ← List.drop_drop, ← List.take_add]

/-- A u32 read and written again is the four bytes read (R44). -/
theorem u32Bytes_leU32 {bs : List Byte} {o : Nat} (h : o + 4 ≤ bs.length) :
    u32Bytes (leU32 bs o) = slice bs o 4 := by
  have hback := leBytes_leNat (slice bs o 4)
  have hlt : leNat (slice bs o 4) < 2 ^ 32 := by
    simpa [slice_length h] using leNat_lt (slice bs o 4)
  rw [slice_length h] at hback
  rw [u32Bytes, leU32, BitVec.toNat_ofNat, Nat.mod_eq_of_lt hlt, hback]

/-- A u16 read and written again is the two bytes read (R44). -/
theorem u16Bytes_leU16 {bs : List Byte} {o : Nat} (h : o + 2 ≤ bs.length) :
    u16Bytes (leU16 bs o) = slice bs o 2 := by
  have hback := leBytes_leNat (slice bs o 2)
  have hlt : leNat (slice bs o 2) < 2 ^ 16 := by
    simpa [slice_length h] using leNat_lt (slice bs o 2)
  rw [slice_length h] at hback
  rw [u16Bytes, leU16, BitVec.toNat_ofNat, Nat.mod_eq_of_lt hlt, hback]

/-! ## A sequence at an offset of bytes -/

/-- The bytes `xs` stand at offset `o` of `bs`. -/
def HoldsAt (bs : List Byte) (o : Nat) (xs : List Byte) : Prop := slice bs o xs.length = xs

theorem holdsAt_self (bs : List Byte) : HoldsAt bs 0 bs := List.take_length

theorem holdsAt_append_right (xs ys : List Byte) : HoldsAt (xs ++ ys) 0 xs := by
  simp [HoldsAt, slice]

/-- What stands at an offset stands there part by part. -/
theorem HoldsAt.split {bs xs ys : List Byte} {o : Nat} (h : HoldsAt bs o (xs ++ ys)) :
    HoldsAt bs o xs ∧ HoldsAt bs (o + xs.length) ys := by
  have hlen := congrArg List.length h
  simp only [slice, List.length_take, List.length_drop, List.length_append] at hlen
  rw [HoldsAt, List.length_append, ← slice_append_slice rfl] at h
  apply List.append_inj h
  simp only [slice, List.length_take, List.length_drop]
  omega

theorem HoldsAt.leU32 {bs : List Byte} {o : Nat} {v : U32} (h : HoldsAt bs o (u32Bytes v)) :
    leU32 bs o = v := by
  rw [HoldsAt, u32Bytes_length] at h
  rw [Sys2Proof.leU32, h, ofNat_leNat_u32Bytes]

theorem HoldsAt.leU16 {bs : List Byte} {o : Nat} {v : U16} (h : HoldsAt bs o (u16Bytes v)) :
    leU16 bs o = v := by
  rw [HoldsAt, u16Bytes_length] at h
  rw [Sys2Proof.leU16, h, ofNat_leNat_u16Bytes]

/-! ## The header's layout -/

/-- A header is read back from the bytes that hold it, field by field (R63). -/
theorem HoldsAt.headerOfBytes {bs : List Byte} {h : Header} (hm : h.magic.length = 8)
    (hb : HoldsAt bs 0 (encodeHeader h)) : headerOfBytes bs = h := by
  obtain ⟨hb, hchecksum⟩ := hb.split
  obtain ⟨hb, hnumTlvs⟩ := hb.split
  obtain ⟨hb, htrack⟩ := hb.split
  obtain ⟨hb, huart⟩ := hb.split
  obtain ⟨hb, hframeMargin⟩ := hb.split
  obtain ⟨hb, hchirpMargin⟩ := hb.split
  obtain ⟨hb, hsubFrame⟩ := hb.split
  obtain ⟨hb, hframe⟩ := hb.split
  obtain ⟨hb, htotal⟩ := hb.split
  obtain ⟨hb, htimestamp⟩ := hb.split
  obtain ⟨hb, hplatform⟩ := hb.split
  obtain ⟨hmagic, hversion⟩ := hb.split
  rw [HoldsAt, hm] at hmagic
  simp only [List.length_append, hm, u32Bytes_length, u16Bytes_length, Nat.reduceAdd] at *
  rw [Sys2Proof.headerOfBytes, hmagic, hversion.leU32, hplatform.leU32, htimestamp.leU32,
    htotal.leU32, hframe.leU32, hsubFrame.leU32, hchirpMargin.leU32, hframeMargin.leU32,
    huart.leU32, htrack.leU32, hnumTlvs.leU16, hchecksum.leU16]

/-- A header read and written again is the 52 bytes read: its fields lie end to end (R63). -/
theorem encodeHeader_headerOfBytes {bs : List Byte} (h : 52 ≤ bs.length) :
    encodeHeader (headerOfBytes bs) = bs.take 52 := by
  have h32 : ∀ o, o + 4 ≤ 52 → u32Bytes (leU32 bs o) = slice bs o 4 :=
    fun o ho => u32Bytes_leU32 (by omega)
  have h16 : ∀ o, o + 2 ≤ 52 → u16Bytes (leU16 bs o) = slice bs o 2 :=
    fun o ho => u16Bytes_leU16 (by omega)
  rw [← slice_zero]
  simp [encodeHeader, headerOfBytes, h32, h16, slice_append_slice]

theorem encodeHeader_length {h : Header} (hm : h.magic.length = 8) :
    (encodeHeader h).length = 52 := by
  simp [encodeHeader, hm]

theorem wellFormed_iff {h : Header} : h.wellFormed = true ↔ h.magic = Config.marker := by
  simp [Header.wellFormed]

/-! ## Type dispatch -/

/-- The dispatch of R66, type by type. -/
theorem recordInstr_eq (type L : U32) :
    recordInstr type L =
      if type = 6 then .tlvPointCloud L
      else if type = 7 then .tlvTargetList L
      else if type = 8 then .tlvTargetIndex L
      else .tlvUnknown type L := by
  unfold recordInstr tlvKind Config.typePointCloud Config.typeTargetList Config.typeTargetIndex
  split_ifs <;> rfl

/-- What a type must be to select a kind (R66). -/
theorem tlvKind_eq_unknown_iff {type : U32} : tlvKind type = .unknown ↔ knownType type = false := by
  unfold tlvKind knownType
  split_ifs <;> simp_all

theorem recordInstr_unknown {type : U32} (h : knownType type = false) (L : U32) :
    recordInstr type L = .tlvUnknown type L := by
  unfold recordInstr
  rw [tlvKind_eq_unknown_iff.mpr h]

/-- Whatever the dispatch selects, the sub-header and the well-formedness are those of the type. -/
theorem recordInstr_sound (type L : U32) :
    (recordInstr type L).wellFormed = true ∧ (recordInstr type L).format = .record ∧
      encode (recordInstr type L) = encodeSubHeader type L := by
  unfold recordInstr
  cases hk : tlvKind type with
  | unknown =>
    have hn : knownType type = false := tlvKind_eq_unknown_iff.mp hk
    exact ⟨by simp [Instr.wellFormed, hn], rfl, rfl⟩
  | pointCloud =>
    obtain rfl : type = Config.typePointCloud := by
      unfold tlvKind at hk; split_ifs at hk; assumption
    exact ⟨rfl, rfl, rfl⟩
  | targetList =>
    obtain rfl : type = Config.typeTargetList := by
      unfold tlvKind at hk; split_ifs at hk; assumption
    exact ⟨rfl, rfl, rfl⟩
  | targetIndex =>
    obtain rfl : type = Config.typeTargetIndex := by
      unfold tlvKind at hk; split_ifs at hk; assumption
    exact ⟨rfl, rfl, rfl⟩

/-! ## What each format decodes -/

/-- A sub-header decodes to the record of its type and length, whatever follows (R65, R67). -/
theorem decode_subHeader (type L : U32) (rest : List Byte) :
    decode .record (encodeSubHeader type L ++ rest) = .ok (recordInstr type L) := by
  obtain ⟨htype, hL⟩ := (holdsAt_append_right (encodeSubHeader type L) rest).split
  rw [u32Bytes_length] at hL
  have hlen : ¬(encodeSubHeader type L ++ rest).length < Config.tlvHdrLen := by
    simp [encodeSubHeader, Config.tlvHdrLen]
    omega
  change decodeRecord _ = _
  rw [decodeRecord, if_neg hlen, htype.leU32, hL.leU32]

/-- A header with the marker decodes from its own bytes (R63, R120). -/
theorem decode_encodeHeader {h : Header} (hm : h.magic = Config.marker) :
    decode .header (encodeHeader h) = .ok (.frameHeader h) := by
  have hlen8 : h.magic.length = 8 := by rw [hm]; rfl
  have hb : headerOfBytes (encodeHeader h) = h :=
    (holdsAt_self (encodeHeader h)).headerOfBytes hlen8
  have hmarker : isMarker (encodeHeader h) = true := by
    have hmagic : slice (encodeHeader h) 0 8 = h.magic := congrArg Header.magic hb
    rw [isMarker, hmagic, hm]
    rfl
  have hlen : ¬(encodeHeader h).length < Config.hdrLen := by
    rw [encodeHeader_length hlen8]
    decide
  change decodeHeader _ = _
  rw [decodeHeader, if_neg hlen, if_pos hmarker, hb]

/-- Everything the three wire formats can decode (R61, R63, R65). -/
theorem decode_wire_cases {f : Format} {bs : List Byte} {i : Instr} (hf : f ≠ .host)
    (h : decode f bs = .ok i) :
    (f = .marker ∧ bs.take 8 = Config.marker ∧ i = .syncMarker) ∨
    (f = .header ∧ 52 ≤ bs.length ∧ bs.take 8 = Config.marker ∧
      i = .frameHeader (headerOfBytes bs)) ∨
    (f = .record ∧ 8 ≤ bs.length ∧ i = recordInstr (leU32 bs 0) (leU32 bs 4)) := by
  have hmarker : isMarker bs = true ↔ bs.take 8 = Config.marker := by simp [isMarker, slice_zero]
  cases f with
  | marker =>
    simp only [decode, decodeMarker, hmarker] at h
    split_ifs at h with hlen hm
    exact .inl ⟨rfl, hm, (Except.ok.inj h).symm⟩
  | header =>
    simp only [decode, decodeHeader, hmarker] at h
    split_ifs at h with hlen hm
    exact .inr (.inl ⟨rfl, Nat.not_lt.mp hlen, hm, (Except.ok.inj h).symm⟩)
  | record =>
    simp only [decode, decodeRecord] at h
    split_ifs at h with hlen
    exact .inr (.inr ⟨rfl, Nat.not_lt.mp hlen, (Except.ok.inj h).symm⟩)
  | host => exact absurd rfl hf

/-- What the first bytes are, they are at their own length. -/
theorem eq_take_length_of_eq_take {xs bs : List Byte} {n : Nat} (h : xs = bs.take n) :
    xs = bs.take xs.length := by
  rw [h, List.length_take, ← List.take_eq_take_min]

/-! ## Claims about the decoder -/

/-- Settles O1, by cases on the instruction. -/
theorem decodeOfEncodeIsTheInstruction : Obligations.DecodeOfEncodeIsTheInstruction := by
  have hrecord : ∀ type L : U32, decode .record (encodeSubHeader type L) = .ok (recordInstr type L) :=
    fun type L => by simpa using decode_subHeader type L []
  intro i hw
  cases i with
  | syncMarker => rfl
  | frameHeader h => exact decode_encodeHeader (wellFormed_iff.mp hw)
  | tlvPointCloud L => exact hrecord Config.typePointCloud L
  | tlvTargetList L => exact hrecord Config.typeTargetList L
  | tlvTargetIndex L => exact hrecord Config.typeTargetIndex L
  | tlvUnknown type L =>
    have hn : knownType type = false := by simpa [Instr.wellFormed] using hw
    exact (hrecord type L).trans (congrArg Except.ok (recordInstr_unknown hn L))
  | ingest chunk => rfl
  | reset chunk => rfl

/-- Settles O2: each wire format's fields cover its bytes without a gap. -/
theorem wireDecodingLosesNoBit : Obligations.WireDecodingLosesNoBit := by
  intro f bs i hf h
  obtain ⟨rfl, hm, rfl⟩ | ⟨rfl, hlen, hm, rfl⟩ | ⟨rfl, hlen, rfl⟩ := decode_wire_cases hf h
  · exact ⟨rfl, rfl, hm.symm⟩
  · exact ⟨wellFormed_iff.mpr hm, rfl, eq_take_length_of_eq_take (encodeHeader_headerOfBytes hlen)⟩
  · obtain ⟨hw, hformat, henc⟩ := recordInstr_sound (leU32 bs 0) (leU32 bs 4)
    refine ⟨hw, hformat, eq_take_length_of_eq_take (n := 8) ?_⟩
    rw [henc, encodeSubHeader, u32Bytes_leU32 (by omega), u32Bytes_leU32 hlen,
      slice_append_slice rfl, slice_zero]

/-- Settles O3. -/
theorem typeDispatchComparesAllBits : Obligations.TypeDispatchComparesAllBits := by
  intro type L rest
  rw [← recordInstr_eq]
  exact decode_subHeader type L rest

/-- Settles O4. -/
theorem sampleWordsDecodeAsWritten : Obligations.SampleWordsDecodeAsWritten :=
  ⟨rfl, rfl, rfl, rfl, rfl, rfl, rfl⟩

/-! ## A sequence at an index of the buffer -/

/-- The bytes `xs` stand at index `a` of the buffer. -/
def Memory.HoldsAt (m : Memory) (a : Nat) (xs : List Byte) : Prop := m.readBytes a xs.length = xs

section holdsAt
variable {m : Memory} {a : Nat}

/-- What is written is held (R41). -/
theorem Memory.holdsAt_writeBytes (m : Memory) (a : Nat) (bs : List Byte) :
    (m.writeBytes a bs).HoldsAt a bs := by
  apply List.ext_getElem (Memory.readBytes_length _ _ _)
  intro k hk hk'
  have hwithin : a ≤ a + k ∧ a + k < a + bs.length := by omega
  rw [Memory.getElem_readBytes, Memory.read_writeBytes, if_pos hwithin]
  simp [hk']

/-- A block is read part by part (R64). -/
theorem Memory.readBytes_add (m : Memory) (a n k : Nat) :
    m.readBytes a (n + k) = m.readBytes a n ++ m.readBytes (a + n) k := by
  simp [Memory.readBytes, List.range_add, Nat.add_assoc]

/-- What stands at an index stands there part by part. -/
theorem Memory.HoldsAt.split {xs ys : List Byte} (h : m.HoldsAt a (xs ++ ys)) :
    m.HoldsAt a xs ∧ m.HoldsAt (a + xs.length) ys := by
  rw [Memory.HoldsAt, List.length_append, Memory.readBytes_add] at h
  exact List.append_inj h (Memory.readBytes_length _ _ _)

theorem Memory.HoldsAt.u32At {v : U32} (h : m.HoldsAt a (u32Bytes v)) : m.u32At a = v := by
  rw [Memory.HoldsAt, u32Bytes_length] at h
  rw [Memory.u32At, Memory.memRead, h, ofNat_leNat_u32Bytes]

/-- A u16 field holds the whole value read: two bytes do not wrap (R44). -/
theorem Memory.toNat_u16At (m : Memory) (a : Nat) :
    (BitVec.ofNat 16 (m.memRead a 2)).toNat = m.memRead a 2 := by
  have hlt : m.memRead a 2 < 2 ^ 16 := by
    simpa [Memory.memRead] using leNat_lt (m.readBytes a 2)
  rw [BitVec.toNat_ofNat, Nat.mod_eq_of_lt hlt]

/-- A u32 field of a block is the buffer's u32 at the field's index (R64). -/
theorem Memory.leU32_readBytes {n o : Nat} (h : o + 4 ≤ n) :
    leU32 (m.readBytes a n) o = m.u32At (a + o) := by
  rw [leU32, Memory.slice_readBytes _ _ _ _ _ h]
  rfl

theorem Memory.leU16_readBytes {n o : Nat} (h : o + 2 ≤ n) :
    leU16 (m.readBytes a n) o = BitVec.ofNat 16 (m.memRead (a + o) 2) := by
  rw [leU16, Memory.slice_readBytes _ _ _ _ _ h]
  rfl

/-- A header written at index 0 is the header read there (R63, R120). -/
theorem Memory.HoldsAt.headerAt {h : Header} (hm : h.magic.length = 8)
    (hb : m.HoldsAt 0 (encodeHeader h)) : m.headerAt = h := by
  rw [Memory.HoldsAt, encodeHeader_length hm] at hb
  rw [Memory.headerAt, show Config.hdrLen = 52 from rfl, hb]
  exact (holdsAt_self (encodeHeader h)).headerOfBytes hm

end holdsAt

/-! ## Points and targets -/

@[simp] theorem Point.bytes_length (p : Point) : p.bytes.length = Config.pointSize := by
  simp [Point.bytes, Config.pointSize]

@[simp] theorem Covariance.bytes_length (e : Covariance) : e.bytes.length = 36 := by
  simp [Covariance.bytes]

@[simp] theorem Target.bytes_length (t : Target) : t.bytes.length = Config.targetSize := by
  simp [Target.bytes, Config.targetSize]

/-- A point is read back from where it stands (R69). -/
theorem Memory.HoldsAt.pointAt {m : Memory} {a : Nat} {p : Point} (h : m.HoldsAt a p.bytes) :
    m.pointAt a = p := by
  obtain ⟨h, hsnr⟩ := h.split
  obtain ⟨h, hdoppler⟩ := h.split
  obtain ⟨hrange, hazimuth⟩ := h.split
  simp only [List.length_append, u32Bytes_length, Nat.reduceAdd] at *
  rw [Memory.pointAt, hrange.u32At, hazimuth.u32At, hdoppler.u32At, hsnr.u32At]

/-- A covariance matrix is read back from where it stands, row by row (R70). -/
theorem Memory.HoldsAt.covarianceAt {m : Memory} {a : Nat} {e : Covariance}
    (h : m.HoldsAt a e.bytes) : m.covarianceAt a = e := by
  obtain ⟨h, h22⟩ := h.split
  obtain ⟨h, h21⟩ := h.split
  obtain ⟨h, h20⟩ := h.split
  obtain ⟨h, h12⟩ := h.split
  obtain ⟨h, h11⟩ := h.split
  obtain ⟨h, h10⟩ := h.split
  obtain ⟨h, h02⟩ := h.split
  obtain ⟨h00, h01⟩ := h.split
  simp only [List.length_append, u32Bytes_length, Nat.reduceAdd] at *
  rw [Memory.covarianceAt, h00.u32At, h01.u32At, h02.u32At, h10.u32At, h11.u32At, h12.u32At,
    h20.u32At, h21.u32At, h22.u32At]

/-- A target is read back from where it stands (R70). -/
theorem Memory.HoldsAt.targetAt {m : Memory} {a : Nat} {t : Target} (h : m.HoldsAt a t.bytes) :
    m.targetAt a = t := by
  obtain ⟨h, hgain⟩ := h.split
  obtain ⟨h, hec⟩ := h.split
  obtain ⟨h, haccY⟩ := h.split
  obtain ⟨h, haccX⟩ := h.split
  obtain ⟨h, hvelY⟩ := h.split
  obtain ⟨h, hvelX⟩ := h.split
  obtain ⟨h, hposY⟩ := h.split
  obtain ⟨hid, hposX⟩ := h.split
  simp only [List.length_append, u32Bytes_length, Covariance.bytes_length, Nat.reduceAdd] at *
  rw [Memory.targetAt, hid.u32At, hposX.u32At, hposY.u32At, hvelX.u32At, hvelY.u32At, haccX.u32At,
    haccY.u32At, hec.covarianceAt, hgain.u32At]

/-! ## Payloads of many elements -/

section elements
variable {α : Type} {enc : α → List Byte} {size : Nat}

theorem flatMap_length (hsize : ∀ x, (enc x).length = size) (xs : List α) :
    (xs.flatMap enc).length = size * xs.length := by
  induction xs with
  | nil => rfl
  | cons x xs ih =>
    rw [List.flatMap_cons, List.length_append, hsize, ih, List.length_cons, Nat.mul_succ,
      Nat.add_comm]

/-- Elements of one size, written one after another, are read back in order by what reads one back. -/
theorem Memory.HoldsAt.elements {m : Memory} {read : Nat → α} (hsize : ∀ x, (enc x).length = size)
    (hread : ∀ {a x}, m.HoldsAt a (enc x) → read a = x) {xs : List α} {a : Nat}
    (h : m.HoldsAt a (xs.flatMap enc)) :
    (List.range xs.length).map (fun i => read (a + size * i)) = xs := by
  induction xs generalizing a with
  | nil => rfl
  | cons x xs ih =>
    obtain ⟨hx, hxs⟩ := Memory.HoldsAt.split h
    rw [hsize] at hxs
    rw [List.length_cons, List.range_succ_eq_map, List.map_cons, List.map_map]
    congr 1
    · exact hread hx
    · refine (List.map_congr_left fun i _ => ?_).trans (ih hxs)
      exact congrArg read (by rw [Nat.mul_succ]; omega)

end elements

theorem points_length (ps : List Point) :
    (ps.flatMap Point.bytes).length = Config.pointSize * ps.length :=
  flatMap_length Point.bytes_length ps

theorem targets_length (ts : List Target) :
    (ts.flatMap Target.bytes).length = Config.targetSize * ts.length :=
  flatMap_length Target.bytes_length ts

theorem Memory.HoldsAt.pointsAt {m : Memory} {a : Nat} {ps : List Point}
    (h : m.HoldsAt a (ps.flatMap Point.bytes)) : m.pointsAt a ps.length = ps :=
  h.elements Point.bytes_length fun hp => hp.pointAt

theorem Memory.HoldsAt.targetsAt {m : Memory} {a : Nat} {ts : List Target}
    (h : m.HoldsAt a (ts.flatMap Target.bytes)) : m.targetsAt a ts.length = ts :=
  h.elements Target.bytes_length fun ht => ht.targetAt

/-! ## Claims about what the buffer holds -/

/-- Settles O6: a header is a block, and each of its fields is a read at the field's offset. -/
theorem headerFieldsAreReadAtTheirOffsets : Obligations.HeaderFieldsAreReadAtTheirOffsets := by
  intro m hm
  have hsync : FrameBuffer.syncAt { cells := m, len := 52 } 0 = true :=
    syncAt_iff.mpr ⟨by simp [Config.markerLen], hm⟩
  refine ⟨m.headerAt, decode_header_of_syncAt hsync, Memory.slice_readBytes m 0 52 0 8 (by decide), ?_⟩
  have h32 : ∀ o, o + 4 ≤ 52 → (leU32 (m.readBytes 0 52) o).toNat = m.memRead o 4 := fun o ho => by
    rw [Memory.leU32_readBytes ho, Memory.toNat_u32At, Nat.zero_add]
  have h16 : ∀ o, o + 2 ≤ 52 → (leU16 (m.readBytes 0 52) o).toNat = m.memRead o 2 := fun o ho => by
    rw [Memory.leU16_readBytes ho, Memory.toNat_u16At, Nat.zero_add]
  exact ⟨h32 8 (by decide), h32 12 (by decide), h32 16 (by decide), h32 20 (by decide),
    h32 24 (by decide), h32 28 (by decide), h32 32 (by decide), h32 36 (by decide),
    h32 40 (by decide), h32 44 (by decide), h16 48 (by decide), h16 50 (by decide)⟩

/-- Settles O7. -/
theorem payloadRecordsReadBackAsWritten : Obligations.PayloadRecordsReadBackAsWritten :=
  ⟨fun m a ps => ⟨(Memory.holdsAt_writeBytes m a _).pointsAt, points_length ps⟩,
    fun m a ts => ⟨(Memory.holdsAt_writeBytes m a _).targetsAt, targets_length ts⟩⟩

/-! ## Outcomes and what follows from them -/

/-- Among the NoData outcomes the reason code tells the reason (R81). -/
theorem reasonCode_noData_inj {n n' : NoDataReason}
    (h : (Result.noData n).reasonCode = (Result.noData n').reasonCode) : n = n' := by
  cases n <;> cases n' <;> simp_all [Result.reasonCode]

/-- Among the Truncated outcomes the reason code tells the reason (R81). -/
theorem reasonCode_truncated_inj {n n' : TruncReason}
    (h : (Result.truncated n).reasonCode = (Result.truncated n').reasonCode) : n = n' := by
  cases n <;> cases n' <;> simp_all [Result.reasonCode]

theorem reasonCode_le (r : Result) : r.reasonCode.toNat ≤ 4 := by
  cases r with
  | noData n => cases n <;> decide
  | frame f => exact Nat.zero_le 4
  | truncated n => cases n <;> decide

/-- The kind code is below 3, and 1 for a Frame only (R80). -/
theorem kindCode_cases (r : Result) :
    (r.kindCode = 0 ∧ r.isFrame = false ∧ ∃ n, r = .noData n) ∨
    (r.kindCode = 1 ∧ r.isFrame = true ∧ ∃ f, r = .frame f) ∨
    (r.kindCode = 2 ∧ r.isFrame = false ∧ ∃ n, r = .truncated n) := by
  cases r with
  | noData n => exact .inl ⟨rfl, rfl, n, rfl⟩
  | frame f => exact .inr (.inl ⟨rfl, rfl, f, rfl⟩)
  | truncated n => exact .inr (.inr ⟨rfl, rfl, n, rfl⟩)

/-- Kind and reason code tell every outcome but the contents of a Frame. -/
theorem eq_of_codes {r r' : Result} (hf : r.isFrame = false) (hk : r.kindCode = r'.kindCode)
    (hr : r.reasonCode = r'.reasonCode) : r = r' := by
  obtain ⟨hc, -, n, rfl⟩ | ⟨-, ht, -⟩ | ⟨hc, -, n, rfl⟩ := kindCode_cases r
  · obtain ⟨-, -, n', rfl⟩ | ⟨hc', -⟩ | ⟨hc', -⟩ := kindCode_cases r'
    · rw [reasonCode_noData_inj hr]
    · simp [hc, hc'] at hk
    · simp [hc, hc'] at hk
  · simp [ht] at hf
  · obtain ⟨hc', -⟩ | ⟨hc', -⟩ | ⟨-, -, n', rfl⟩ := kindCode_cases r'
    · simp [hc, hc'] at hk
    · simp [hc, hc'] at hk
    · rw [reasonCode_truncated_inj hr]

/-- Settles O8. -/
theorem outcomeCodesAreThoseOfTheTable : Obligations.OutcomeCodesAreThoseOfTheTable := by
  refine ⟨⟨fun _ => rfl, fun _ => rfl, fun _ => rfl⟩,
    ⟨rfl, rfl, rfl, rfl, rfl, rfl, rfl, rfl, rfl, fun _ => rfl⟩, fun r => ?_,
    fun _ _ => eq_of_codes⟩
  obtain ⟨hk, hf, -⟩ | ⟨hk, hf, f, rfl⟩ | ⟨hk, hf, -⟩ := kindCode_cases r
  · exact ⟨by simp [hk], reasonCode_le r, by simp [hk, hf], by simp [hf]⟩
  · exact ⟨by simp [hk], reasonCode_le _, by simp [hk, hf], fun _ => rfl⟩
  · exact ⟨by simp [hk], reasonCode_le r, by simp [hk, hf], by simp [hf]⟩

section outputs
variable {D : Type} {dev : D} {o : OutcomeRecord}

/-- A Frame with targets has one row per target (R83). -/
theorem persistenceRows_of_targets {f : FrameRecord} {tl : List Target} (hr : o.result = .frame f)
    (ht : f.targets = some tl) :
    o.persistenceRows dev = tl.map (persistenceRow dev f tl o.status) := by
  simp only [OutcomeRecord.persistenceRows, hr, ht]

/-- Without targets there is no row (R83). -/
theorem persistenceRows_eq_nil (h : ∀ f tl, o.result = .frame f → f.targets ≠ some tl) :
    o.persistenceRows dev = [] := by
  unfold OutcomeRecord.persistenceRows
  split
  · rename_i f hr
    split
    · rename_i tl ht; exact absurd ht (h f tl hr)
    · rfl
  · rfl
  · rfl

theorem visualisation_of_frame {f : FrameRecord} (hr : o.result = .frame f) :
    o.visualisation = some (f.points, f.targets) := by
  simp only [OutcomeRecord.visualisation, hr]

theorem visualisation_eq_none (h : ∀ f, o.result ≠ .frame f) : o.visualisation = none := by
  unfold OutcomeRecord.visualisation
  split
  · rename_i f hr; exact absurd hr (h f)
  · rfl
  · rfl

end outputs

/-- Settles O46. -/
theorem outputsFollowTheOutcome : Obligations.OutputsFollowTheOutcome := by
  intro dev o
  refine ⟨fun f tl hr ht => ?_, persistenceRows_eq_nil, fun f => visualisation_of_frame,
    visualisation_eq_none⟩
  rw [persistenceRows_of_targets hr ht]
  refine ⟨List.length_map .., fun j t hj => ?_⟩
  rw [List.getElem?_map, hj]
  rfl

/-! ## An internal operation outside its stage -/

section notInStage
variable {s : State}

theorem execSyncMarker_notInStage (h : ∀ x, s.txn = some x → x.stage ≠ .seek) :
    exec .syncMarker s = .refused .notInStage := by
  change execSyncMarker s = _
  unfold execSyncMarker
  split
  · rename_i ov ht; exact absurd rfl (h _ ht)
  · rfl

theorem execFrameHeader_notInStage (h : ∀ x, s.txn = some x → x.stage ≠ .header) (hdr : Header) :
    exec (.frameHeader hdr) s = .refused .notInStage := by
  change execFrameHeader hdr s = _
  unfold execFrameHeader
  split
  · rename_i ov ht; exact absurd rfl (h _ ht)
  · rfl

/-- A record operation needs the record stage and an iteration that is left (R130). -/
theorem runRecord_notInStage (h : ∀ x d, s.txn = some x → x.stage = .records d → d.left = 0)
    (run : FrameDecode → Except TruncReason FrameDecode) :
    s.runRecord run = .refused .notInStage := by
  unfold State.runRecord
  split
  · rename_i ov d ht; exact if_pos (h _ d ht rfl)
  · rfl

theorem execRecord_notInStage (h : ∀ x d, s.txn = some x → x.stage = .records d → d.left = 0)
    {i : Instr} (hi : i.format = .record) : exec i s = .refused .notInStage := by
  cases i with
  | tlvPointCloud L => exact runRecord_notInStage h _
  | tlvTargetList L => exact runRecord_notInStage h _
  | tlvTargetIndex L => exact runRecord_notInStage h _
  | tlvUnknown type L => exact runRecord_notInStage h _
  | syncMarker => cases hi
  | frameHeader hdr => cases hi
  | ingest c => cases hi
  | reset c => cases hi

end notInStage

/-- Settles O56: between transactions there is no stage at all. -/
theorem internalOperationsRunOnlyInTheirStage :
    Obligations.InternalOperationsRunOnlyInTheirStage := by
  intro s
  refine ⟨fun i ht hi => ?_, fun x ht hx => ?_, fun x hdr ht hx => ?_, fun x i ht hx hi => ?_⟩
  · have hrecord : i.format = .record → exec i s = .refused .notInStage :=
      execRecord_notInStage (by simp [ht])
    cases i with
    | syncMarker => exact execSyncMarker_notInStage (by simp [ht])
    | frameHeader hdr => exact execFrameHeader_notInStage (by simp [ht]) hdr
    | tlvPointCloud L => exact hrecord rfl
    | tlvTargetList L => exact hrecord rfl
    | tlvTargetIndex L => exact hrecord rfl
    | tlvUnknown type L => exact hrecord rfl
    | ingest c => exact absurd rfl hi
    | reset c => exact absurd rfl hi
  · exact execSyncMarker_notInStage fun y hy => by cases ht.symm.trans hy; exact hx
  · exact execFrameHeader_notInStage (fun y hy => by cases ht.symm.trans hy; exact hx) hdr
  · exact execRecord_notInStage (fun y d hy => by cases ht.symm.trans hy; exact hx d) hi

/-! ## The record loop on a stream -/

/-- What a record of a kind does to the slots, flags and count, from where its payload starts and how
long it is (R134 to R137). -/
def kindEffect (mem : Memory) : TlvKind → Nat → Nat → FrameDecode → FrameDecode
  | .pointCloud => decodePointCloud mem
  | .targetList => decodeTargetList mem
  | .targetIndex => decodeTargetIndex mem
  | .unknown => fun _ _ => skipUnknown

theorem recordAtCursor_eq_record {mem : Memory} {d : FrameDecode}
    (h : d.cur + Config.tlvHdrLen ≤ d.frameEnd) :
    recordAtCursor mem d =
      d.record (mem.u32At (d.cur + 4)) (kindEffect mem (tlvKind (mem.u32At d.cur))) := by
  rw [recordAtCursor_eq h]
  cases tlvKind (mem.u32At d.cur) <;> rfl

/-- A record that stands at the cursor, within the frame and with its length counted, is decoded: its
effect is that of its kind on its payload, and the cursor is behind it (R130). -/
theorem recordAtCursor_of_streamTlv {mem : Memory} {d : FrameDecode} {type L : U32}
    {payload : List Byte} (hL : L.toNat = Config.tlvHdrLen + payload.length)
    (hm : mem.HoldsAt d.cur (streamTlv type L payload)) (hend : d.cur + L.toNat ≤ d.frameEnd) :
    mem.HoldsAt (d.cur + Config.tlvHdrLen) payload ∧
    recordAtCursor mem d = .ok
      { kindEffect mem (tlvKind type) (d.cur + Config.tlvHdrLen) payload.length d with
        cur := d.cur + L.toNat
        left := d.left - 1 } := by
  obtain ⟨hsub, hpayload⟩ := hm.split
  obtain ⟨htype, hlength⟩ := hsub.split
  rw [u32Bytes_length] at hlength
  refine ⟨by simpa [encodeSubHeader, Config.tlvHdrLen] using hpayload, ?_⟩
  rw [recordAtCursor_eq_record (by omega), htype.u32At, hlength.u32At]
  refine record_ok_iff.mpr ⟨by omega, by omega, hend, ?_⟩
  rw [hL, Nat.add_sub_cancel_left]

theorem streamTlv_length (type L : U32) (payload : List Byte) :
    (streamTlv type L payload).length = Config.tlvHdrLen + payload.length := by
  rw [streamTlv, encodeSubHeader, List.length_append, List.length_append, u32Bytes_length,
    u32Bytes_length]
  rfl

/-- `r` is written as this type, length and payload, the length counts the payload, and the effect of the
type's kind on the payload is what `r` adds to a frame. -/
structure StreamRecord.WrittenAs (r : StreamRecord) (type L : U32) (payload : List Byte) : Prop where
  bytes_eq : r.bytes = streamTlv type L payload
  counted : L.toNat = Config.tlvHdrLen + payload.length
  effect {mem : Memory} {a : Nat} (d : FrameDecode) : mem.HoldsAt a payload →
    (kindEffect mem (tlvKind type) a payload.length d).frameRecord = r.addTo d.frameRecord

/-- The counted length of a known kind does not wrap when the record fits 32 bits. -/
theorem toNat_sizedLength {type : U32} {payload : List Byte}
    (h : (streamSized type payload).length < 2 ^ 32) :
    (BitVec.ofNat 32 (Config.tlvHdrLen + payload.length)).toNat =
      Config.tlvHdrLen + payload.length := by
  rw [streamSized, streamTlv_length] at h
  rw [BitVec.toNat_ofNat, Nat.mod_eq_of_lt h]

theorem malformed_mul (size n : Nat) : malformed (size * n) size = false := by
  simp [malformed]

/-- A written-out record that counts its payload is of unknown type, or of a kind whose payload is no
whole number of elements (R137, R139). -/
theorem writtenAs_tlv {type L : U32} {payload : List Byte}
    (hs : (StreamRecord.tlv type L payload).sound = true) :
    (StreamRecord.tlv type L payload).WrittenAs type L payload := by
  simp only [StreamRecord.sound, Bool.and_eq_true, beq_iff_eq] at hs
  obtain ⟨hL, hkind⟩ := hs
  refine ⟨rfl, hL, fun d _ => ?_⟩
  cases hk : tlvKind type with
  | pointCloud =>
    rw [hk] at hkind
    simp only [kindEffect, decodePointCloud, StreamRecord.addTo, hk, if_pos hkind]
    rfl
  | targetList =>
    rw [hk] at hkind
    simp only [kindEffect, decodeTargetList, StreamRecord.addTo, hk, if_pos hkind]
    rfl
  | targetIndex =>
    rw [hk] at hkind
    exact absurd hkind Bool.false_ne_true
  | unknown =>
    simp only [kindEffect, StreamRecord.addTo, hk]
    rfl

/-- Every sound record is written in a way that decodes to what it adds (R134 to R137, R139). -/
theorem exists_writtenAs {r : StreamRecord} (hs : r.sound = true) (hlen : r.bytes.length < 2 ^ 32) :
    ∃ type L payload, r.WrittenAs type L payload := by
  cases r with
  | pc points =>
    refine ⟨_, _, _, rfl, toNat_sizedLength hlen, fun d hm => ?_⟩
    change (decodePointCloud _ _ _ d).frameRecord = _
    rw [decodePointCloud, points_length, malformed_mul, if_neg Bool.false_ne_true,
      Nat.mul_div_cancel_left _ (by decide), hm.pointsAt]
    rfl
  | tl targets =>
    refine ⟨_, _, _, rfl, toNat_sizedLength hlen, fun d hm => ?_⟩
    change (decodeTargetList _ _ _ d).frameRecord = _
    rw [decodeTargetList, targets_length, malformed_mul, if_neg Bool.false_ne_true,
      Nat.mul_div_cancel_left _ (by decide), hm.targetsAt]
    rfl
  | ti indices =>
    refine ⟨_, _, _, rfl, toNat_sizedLength hlen, fun d hm => ?_⟩
    change (decodeTargetIndex _ _ _ d).frameRecord = _
    rw [decodeTargetIndex, Memory.indicesAt, hm]
    rfl
  | tlv type L payload => exact ⟨type, L, payload, writtenAs_tlv hs⟩

theorem frameEnd_lt (d : FrameDecode) : d.frameEnd < 2 ^ 32 := d.hdr.totalPacketLength.isLt

/-- One iteration on a sound record of the stream adds that record to the frame. -/
theorem recordAtCursor_of_sound {mem : Memory} {d : FrameDecode} {r : StreamRecord}
    (hs : r.sound = true) (hm : mem.HoldsAt d.cur r.bytes)
    (hend : d.cur + r.bytes.length ≤ d.frameEnd) :
    ∃ d', recordAtCursor mem d = .ok d' ∧ d'.frameRecord = r.addTo d.frameRecord ∧
      d'.cur = d.cur + r.bytes.length := by
  have hlt := frameEnd_lt d
  obtain ⟨type, L, payload, hw⟩ := exists_writtenAs hs (by omega)
  have hlen : r.bytes.length = L.toNat := by rw [hw.bytes_eq, streamTlv_length, hw.counted]
  rw [hw.bytes_eq] at hm
  rw [hlen] at hend ⊢
  obtain ⟨hpayload, hrec⟩ := recordAtCursor_of_streamTlv hw.counted hm hend
  exact ⟨_, hrec, hw.effect d hpayload, rfl⟩

@[simp] theorem addTo_header (r : StreamRecord) (f : FrameRecord) :
    (r.addTo f).header = f.header := by
  cases r with
  | pc points => rfl
  | tl targets => rfl
  | ti indices => rfl
  | tlv type L payload =>
    simp only [StreamRecord.addTo]
    split <;> rfl

/-- The record loop on a stream of sound records adds them to the frame, one after another (R130). -/
theorem recordLoop_of_sound {mem : Memory} {rs : List StreamRecord} {d : FrameDecode}
    (hs : ∀ r ∈ rs, r.sound = true) (hm : mem.HoldsAt d.cur (streamRecords rs))
    (hend : d.cur + (streamRecords rs).length ≤ d.frameEnd) :
    ∃ d', recordLoop mem rs.length d = .ok d' ∧
      d'.frameRecord = rs.foldl StreamRecord.addTo d.frameRecord ∧
      d'.cur = d.cur + (streamRecords rs).length := by
  induction rs generalizing d with
  | nil => exact ⟨d, rfl, rfl, rfl⟩
  | cons r rs ih =>
    have hcons : streamRecords (r :: rs) = r.bytes ++ streamRecords rs := rfl
    rw [hcons, List.length_append, ← Nat.add_assoc] at hend ⊢
    obtain ⟨hr, hrs⟩ := Memory.HoldsAt.split (hcons ▸ hm)
    obtain ⟨d₁, hrec, hframe, hcur⟩ :=
      recordAtCursor_of_sound (hs r (by simp)) hr (Nat.le_of_add_right_le hend)
    have hT : d₁.frameEnd = d.frameEnd := by
      change d₁.frameRecord.header.totalPacketLength.toNat = _
      rw [hframe, addTo_header]
      rfl
    rw [← hcur] at hrs hend ⊢
    obtain ⟨d', hloop, hframe', hcur'⟩ := ih (fun x hx => hs x (by simp [hx])) hrs (by omega)
    refine ⟨d', ?_, by rw [hframe', hframe]; rfl, hcur'⟩
    rw [List.length_cons, recordLoop, hrec]
    exact hloop

/-! ## A whole frame -/

theorem bytes_length_ge (r : StreamRecord) : Config.tlvHdrLen ≤ r.bytes.length := by
  cases r <;> simp [StreamRecord.bytes, streamSized, streamTlv_length]

/-- Every record has a sub-header, so a frame that fits the buffer has few of them. -/
theorem streamRecords_length_ge (rs : List StreamRecord) :
    Config.tlvHdrLen * rs.length ≤ (streamRecords rs).length := by
  induction rs with
  | nil => exact Nat.zero_le _
  | cons r rs ih =>
    have hr := bytes_length_ge r
    have hcons : streamRecords (r :: rs) = r.bytes ++ streamRecords rs := rfl
    rw [hcons, List.length_append, List.length_cons, Nat.mul_succ]
    omega

section frame
variable {h : Header} {rs : List StreamRecord}
variable (hfit : Config.hdrLen + (streamRecords rs).length ≤ Config.cap)

theorem streamFrame_length (h : Header) (rs : List StreamRecord) :
    (streamFrame h rs).length = Config.hdrLen + (streamRecords rs).length := by
  have hhdr : (encodeHeader (frameHeaderFor h rs)).length = 52 := encodeHeader_length rfl
  rw [streamFrame, List.length_append, hhdr]
  rfl

include hfit

theorem totalPacketLength_frameHeaderFor :
    (frameHeaderFor h rs).totalPacketLength.toNat =
      Config.hdrLen + (streamRecords rs).length := by
  have hcap : Config.cap < 2 ^ 32 := by decide
  exact (BitVec.toNat_ofNat ..).trans (Nat.mod_eq_of_lt (by omega))

theorem numTlvs_frameHeaderFor : (frameHeaderFor h rs).numTlvs.toNat = rs.length := by
  have hge := streamRecords_length_ge rs
  simp only [Config.tlvHdrLen, Config.hdrLen, Config.cap] at hge hfit
  exact (BitVec.toNat_ofNat ..).trans (Nat.mod_eq_of_lt (by omega))

/-- The record loop, the length check and the commit on a whole frame at index 0: every byte is
covered, so the frame is committed (R138, R174). -/
theorem decodeFrame_of_streamFrame {s : State} (ov : Bool)
    (hm : s.fb.cells.HoldsAt 0 (streamFrame h rs)) (hs : ∀ r ∈ rs, r.sound = true) :
    ∃ d, d.frameRecord = frameOf h rs ∧
      d.frameEnd = Config.hdrLen + (streamRecords rs).length ∧
      s.decodeFrame ov (frameHeaderFor h rs) = s.commitFrame ov d := by
  have hhdr : (encodeHeader (frameHeaderFor h rs)).length = 52 := encodeHeader_length rfl
  have hT : (FrameDecode.start (frameHeaderFor h rs)).frameEnd =
      Config.hdrLen + (streamRecords rs).length := totalPacketLength_frameHeaderFor hfit
  obtain ⟨-, hrs⟩ := hm.split
  rw [hhdr, Nat.zero_add] at hrs
  obtain ⟨d, hloop, hframe, hcur⟩ :=
    recordLoop_of_sound (d := .start (frameHeaderFor h rs)) hs hrs (Nat.le_of_eq hT.symm)
  obtain ⟨hhdrd, -, -⟩ := recordLoop_ok hloop
  have hend : d.frameEnd = Config.hdrLen + (streamRecords rs).length := by
    rw [← hT, FrameDecode.frameEnd, hhdrd]
    rfl
  have hcovered : ¬(d.cur < d.frameEnd ∧ s.params.acceptTrailing = false) := by
    rintro ⟨hlt, -⟩
    rw [hcur, hend] at hlt
    exact Nat.lt_irrefl _ hlt
  refine ⟨d, hframe, hend, ?_⟩
  rw [State.decodeFrame, numTlvs_frameHeaderFor hfit, hloop]
  exact if_neg hcovered

end frame

/-! ## INGEST of a whole frame -/

/-- With the marker at index 0 the alignment moves nothing (R104, R106). -/
theorem syncAndDecode_of_syncAt_zero {s : State} (h : s.fb.syncAt 0 = true) (ov : Bool) :
    s.syncAndDecode ov = s.decodeAligned ov := by
  simp only [State.syncAndDecode, trueSync_of_syncAt_zero h, discardBefore_zero]

/-- A whole frame of a legal length passes the header checks (R171 step 3). -/
theorem decodeAligned_of_complete {s : State} (ov : Bool)
    (hmin : Config.hdrLen ≤ s.fb.cells.headerAt.totalPacketLength.toNat)
    (hcap : s.fb.cells.headerAt.totalPacketLength.toNat ≤ Config.cap)
    (hlen : s.fb.cells.headerAt.totalPacketLength.toNat ≤ s.fb.len) :
    s.decodeAligned ov = s.decodeFrame ov s.fb.cells.headerAt := by
  have hcheck := headerCheck_eq_none_iff.mpr ⟨hmin.trans hlen, hmin, hcap, hlen⟩
  rw [State.decodeAligned, ← memRead_totalPacketLength, hcheck]

/-- A header with the marker, held at index 0, makes index 0 a valid sync offset (R61). -/
theorem syncAt_zero_of_holdsAt {fb : FrameBuffer} {h : Header} (hmagic : h.magic = Config.marker)
    (hlen : Config.hdrLen ≤ fb.len) (hm : fb.cells.HoldsAt 0 (encodeHeader h)) :
    fb.syncAt 0 = true := by
  have hread : fb.cells.headerAt.magic = fb.cells.readBytes 0 8 :=
    Memory.slice_readBytes _ 0 52 0 8 (by decide)
  rw [hm.headerAt (by rw [hmagic]; rfl), hmagic] at hread
  refine syncAt_iff.mpr ⟨?_, hread.symm⟩
  rw [Config.hdrLen] at hlen
  rw [Config.markerLen]
  omega

/-- An empty buffer takes a chunk that fits at index 0 (R100). -/
theorem append_of_len_zero {fb : FrameBuffer} {c : List Byte} (hl : fb.len = 0)
    (hc : c.length ≤ Config.cap) :
    (fb.append c).len = c.length ∧ (fb.append c).cells.HoldsAt 0 c ∧ fb.overflows c = false := by
  have hov : fb.overflows c = false := overflows_eq_false_iff.mpr (by omega)
  rw [append_of_fits hov, hl, Nat.zero_add]
  exact ⟨rfl, Memory.holdsAt_writeBytes _ _ _, hov⟩

/-- A buffer that holds one whole frame is aligned, passes the header checks, and its frame is
committed (R171). -/
theorem syncAndDecode_streamFrame {s : State} {h : Header} {rs : List StreamRecord} (ov : Bool)
    (hlen : s.fb.len = Config.hdrLen + (streamRecords rs).length)
    (hm : s.fb.cells.HoldsAt 0 (streamFrame h rs)) (hs : ∀ r ∈ rs, r.sound = true)
    (hfit : Config.hdrLen + (streamRecords rs).length ≤ Config.cap) :
    ∃ d, d.frameRecord = frameOf h rs ∧ d.frameEnd = s.fb.len ∧
      s.syncAndDecode ov = s.commitFrame ov d := by
  have hheld : s.fb.cells.HoldsAt 0 (encodeHeader (frameHeaderFor h rs)) := hm.split.1
  have hhdr : s.fb.cells.headerAt = frameHeaderFor h rs := hheld.headerAt rfl
  have hT : s.fb.cells.headerAt.totalPacketLength.toNat = s.fb.len := by
    rw [hhdr, totalPacketLength_frameHeaderFor hfit, hlen]
  obtain ⟨d, hframe, hend, hdecode⟩ := decodeFrame_of_streamFrame hfit ov hm hs
  refine ⟨d, hframe, hend.trans hlen.symm, ?_⟩
  rw [syncAndDecode_of_syncAt_zero (syncAt_zero_of_holdsAt rfl (by omega) hheld),
    decodeAligned_of_complete ov (by omega) (by omega) (by omega), hhdr, hdecode]

/-- Tracker and targets of a frame decode are those of its frame (R159). -/
theorem afterFrame_eq_afterRecords (p : Config.Params) (tr : Tracker) (d : FrameDecode) :
    tr.afterFrame p d = tr.afterRecords p d.frameRecord := rfl

/-- Consuming every byte held empties a legal buffer (R108). -/
theorem consume_len_of_wf {fb : FrameBuffer} (h : fb.wf) :
    fb.consume fb.len = { cells := [], len := 0 } := recover_of_wf h

/-- Settles O23: the frame is committed, and consuming as many bytes as were put in leaves none. -/
theorem ingestOfAFrameDecodesItsRecords : Obligations.IngestOfAFrameDecodesItsRecords := by
  intro s h rs ht hwf hl hs hfit
  change Config.hdrLen + (streamRecords rs).length ≤ Config.cap at hfit
  have hlen := streamFrame_length h rs
  obtain ⟨hfblen, hm, hov⟩ := append_of_len_zero hl (hlen.trans_le hfit)
  obtain ⟨d, hframe, hend, hrun⟩ :=
    syncAndDecode_streamFrame (s := s.appendChunk (streamFrame h rs)) false (hfblen.trans hlen) hm
      hs hfit
  have hingest : s.ingest (streamFrame h rs) =
      (s.appendChunk (streamFrame h rs)).commitFrame false d := by
    rw [State.ingest, hov, hrun]
  refine ⟨(s.appendChunk (streamFrame h rs)).commitFrame false d, ?_, ?_, ?_, ?_, by simp, by simp,
    by simp⟩
  · rw [execIngest_eq ht hwf.2.1, hingest]
  · rw [commitFrame_fb, hend, appendChunk_fb, consume_len_of_wf (append_wf hwf _)]
  · rw [commitFrame_tracker, afterFrame_eq_afterRecords, hframe, appendChunk_tracker,
      appendChunk_params]
  · rw [commitFrame_outcome, hframe]

end Sys2Proof.Machine
end

section
/-! PROOFS. The frame buffer and the sync search (spec/40_framebuffer.md): what `append` and
`discardBefore` leave at each index, where the search finds markers, and what SYNC_MARKER and a whole
Frame INGEST do to the buffer. Every later change of the buffer is one discard of the bytes appended, so
its contents are read off the compaction rule (R103). -/

namespace Sys2Proof.Machine

/-! ## Claims about the buffer -/

/-- Settles O9: the write of a chunk that fits covers its own indices only. -/
theorem appendTakesAllOfAChunkOrNone : Obligations.AppendTakesAllOfAChunkOrNone := by
  intro fb bs
  refine ⟨overflows_iff, fun hover => append_of_overflows (overflows_iff.mpr hover), fun hfit => ?_⟩
  rw [append_of_fits (overflows_eq_false_iff.mpr hfit)]
  refine ⟨rfl, fun k b hk => ?_, fun i hi => ?_⟩
  · have hlt : k < bs.length := (List.getElem?_eq_some_iff.mp hk).1
    rw [Memory.read_writeBytes, if_pos ⟨by omega, by omega⟩, Nat.add_sub_cancel_left,
      List.getD_eq_getElem?_getD, hk, Option.getD_some]
  · rw [Memory.read_writeBytes, if_neg (by omega)]

/-- Settles O10: an index lies among the bytes kept, in the vacated tail, or behind the old `len`. -/
theorem compactionMovesDownAndZeroFills : Obligations.CompactionMovesDownAndZeroFills := by
  intro fb k hk
  refine ⟨fun i hi => ?_, fun i hlo hhi => ?_, fun i hi => ?_, rfl⟩
  · rw [discardBefore_read hk, if_pos hi]
  · rw [discardBefore_read hk, if_neg (by omega), if_pos hhi, unlistedByte]
  · rw [discardBefore_read hk, if_neg (by omega), if_neg (by omega)]

/-! ## One discard after another -/

/-- A byte that `discardBefore(j)` and then `discardBefore(k)` move ends where one discard of `j + k`
takes it. -/
theorem compactCell_bind_compactCell (j k len : Nat) (c : Host.Cell) :
    (Memory.compactCell j len c).bind (Memory.compactCell k (len - j)) =
      Memory.compactCell (j + k) len c := by
  unfold Memory.compactCell
  by_cases hheld : c.1 < len
  · by_cases hj : c.1 < j
    · simp [hheld, hj, show c.1 < j + k by omega]
    · by_cases hk : c.1 < j + k
      · simp [hheld, hj, hk, show c.1 - j < len - j by omega, show c.1 - j < k by omega]
      · simp [hheld, hj, hk, show c.1 - j < len - j by omega, show ¬ c.1 - j < k by omega,
          Nat.sub_sub]
  · simp [hheld, show ¬ c.1 < len - j by omega]

/-- Two discards are one (R103). -/
theorem discardBefore_discardBefore (fb : FrameBuffer) (j k : Nat) :
    (fb.discardBefore j).discardBefore k = fb.discardBefore (j + k) := by
  simp only [FrameBuffer.discardBefore, Memory.compact, List.filterMap_filterMap,
    compactCell_bind_compactCell, Nat.sub_sub]

/-! ## The marker's bytes -/

/-- A block holds a byte sequence exactly when it does so index by index. -/
theorem Memory.readBytes_eq_iff (m : Memory) (a : Nat) (bs : List Byte) :
    m.readBytes a bs.length = bs ↔ ∀ k < bs.length, m.read (a + k) = bs.getD k 0 := by
  constructor
  · intro h k hk
    have hk' : k < (m.readBytes a bs.length).length := by rwa [Memory.readBytes_length]
    rw [← Memory.getElem_readBytes m a bs.length k hk', List.getD_eq_getElem bs 0 hk]
    simp only [h]
  · intro h
    refine List.ext_getElem (by simp) fun k _ hk => ?_
    rw [Memory.getElem_readBytes, h k hk, List.getD_eq_getElem bs 0 hk]

/-- The valid sync offsets byte by byte (R104). -/
theorem syncAt_iff_read {fb : FrameBuffer} {p : Nat} :
    fb.syncAt p = true ↔
      p + 8 ≤ fb.len ∧ ∀ k < 8, fb.cells.read (p + k) = Config.marker.getD k 0 :=
  syncAt_iff.trans (and_congr_right fun _ => Memory.readBytes_eq_iff fb.cells p Config.marker)

/-- The marker's first byte stands nowhere else in it (R61). -/
theorem marker_first_byte_unique :
    ∀ k < 8, Config.marker.getD k 0 = Config.marker.getD 0 0 → k = 0 := by decide

/-- Two markers do not overlap: the first byte of the later one would be a later byte of the earlier
(R104). -/
theorem syncAt_apart {fb : FrameBuffer} {p q : Nat} (hp : fb.syncAt p = true)
    (hq : fb.syncAt q = true) (hpq : p < q) : p + 8 ≤ q := by
  by_contra hnear
  have hlater := (syncAt_iff_read.mp hp).2 (q - p) (by omega)
  have hfirst := (syncAt_iff_read.mp hq).2 0 (by omega)
  rw [Nat.add_sub_cancel' hpq.le] at hlater
  have := marker_first_byte_unique (q - p) (by omega) (hlater.symm.trans hfirst)
  omega

/-! ## What the sync search returns -/

theorem mem_findSync_iff {fb : FrameBuffer} {p : Nat} : p ∈ fb.findSync ↔ fb.syncAt p = true := by
  simp only [FrameBuffer.findSync, List.mem_filter, List.mem_range, and_iff_right_iff_imp]
  intro hp
  have := (syncAt_iff_read.mp hp).1
  omega

/-- The true sync offset is the least element of what the search returns (R17, R106). -/
theorem trueSync_eq_some_iff_least {fb : FrameBuffer} {p : Nat} :
    fb.trueSync = some p ↔ p ∈ fb.findSync ∧ ∀ q ∈ fb.findSync, p ≤ q := by
  rw [trueSync_eq_some_iff, mem_findSync_iff]
  refine and_congr_right fun _ => ⟨fun h q hq => ?_, fun h q hlt => ?_⟩
  · by_contra hlt
    exact absurd (mem_findSync_iff.mp hq) (by simp [h q (by omega)])
  · by_contra hq
    have := h q (mem_findSync_iff.mpr (by simpa using hq))
    omega

theorem trueSync_eq_none_iff_findSync {fb : FrameBuffer} : fb.trueSync = none ↔ fb.findSync = [] :=
  List.head?_eq_none_iff

/-- Settles O11: the search is a filter of the ascending indices, and markers do not overlap. -/
theorem findSyncFindsExactlyTheMarkers : Obligations.FindSyncFindsExactlyTheMarkers := by
  refine ⟨by decide, fun fb => ⟨fun p => mem_findSync_iff.trans syncAt_iff_read, ?_⟩⟩
  have hascending : fb.findSync.Pairwise (· < ·) := List.pairwise_lt_range.filter fb.syncAt
  exact hascending.imp_of_mem fun hp hq hlt =>
    syncAt_apart (mem_findSync_iff.mp hp) (mem_findSync_iff.mp hq) hlt

/-! ## SYNC_MARKER -/

/-- What SYNC_MARKER does at its stage: it aligns where a marker is held and trims where none is (R105,
R106). -/
theorem execSyncMarker_eq {s : State} {ov : Bool}
    (ht : s.txn = some { overflow := ov, stage := .seek }) (hc : s.fb.len ≤ Config.cap) :
    (s.fb.trueSync = none → exec .syncMarker s = .next (s.noSync ov)) ∧
    ∀ p, s.fb.trueSync = some p →
      exec .syncMarker s =
        .next { s with
          fb := s.fb.discardBefore p
          txn := some { overflow := ov, stage := .header } } := by
  change (_ → execSyncMarker s = _) ∧ ∀ p, _ → execSyncMarker s = _
  unfold execSyncMarker
  rw [ht]
  simp only [inBuffer_of_le hc]
  exact ⟨fun hp => by rw [hp], fun p hp => by rw [hp]⟩

/-- Settles O12: the least offset found is the true one, and aligning to it is one compaction. -/
theorem syncMarkerAlignsToTheSmallestOffset : Obligations.SyncMarkerAlignsToTheSmallestOffset := by
  intro s ov p ht hc hp hleast
  have htrue : s.fb.trueSync = some p := trueSync_eq_some_iff_least.mpr ⟨hp, hleast⟩
  have hroom : p ≤ s.fb.len := by have := trueSync_le htrue; omega
  obtain ⟨hmoved, hvacated, hbehind, hlen⟩ := compactionMovesDownAndZeroFills s.fb p hroom
  have hmarker := (syncAt_iff_read.mp (syncAt_zero_of_trueSync htrue)).2
  simp only [Nat.zero_add] at hmarker
  exact ⟨s.fb.discardBefore p, (execSyncMarker_eq ht hc).2 p htrue, hlen, hmoved, hvacated, hbehind,
    hmarker⟩

/-- Settles O13: the trim is the compaction that leaves `min len 7` bytes. -/
theorem syncMarkerWithoutAMarkerTrims : Obligations.SyncMarkerWithoutAMarkerTrims := by
  intro s ov ht hc hnone
  have hkeep : Config.trimKeep = 7 := rfl
  have htrimLen : s.fb.trim.len = min s.fb.len 7 := trim_len s.fb
  have hdropped : s.fb.len - Config.trimKeep = s.fb.len - s.fb.trim.len := by omega
  obtain ⟨hmoved, hvacated, hbehind, hlen⟩ :=
    compactionMovesDownAndZeroFills s.fb (s.fb.len - Config.trimKeep) (by omega)
  rw [← trim_eq_discardBefore] at hmoved hvacated hbehind hlen
  rw [← hlen] at hmoved hvacated
  rw [hdropped] at hmoved
  exact ⟨s.fb.trim, (execSyncMarker_eq ht hc).1 (trueSync_eq_none_iff_findSync.mpr hnone), htrimLen,
    hmoved, hvacated, hbehind⟩

/-! ## An INGEST that ends as Frame -/

section frame
variable {s : State} {ov ov' : Bool} {f : FrameRecord} {st : Status}

/-- Only the commit answers a Frame (R174). -/
theorem decodeFrame_eq_frame {h : Header}
    (ho : (s.decodeFrame ov h).outcome =
      some { result := .frame f, overflow := ov', status := st }) :
    f.header = h ∧ (s.decodeFrame ov h).fb = s.fb.consume h.totalPacketLength.toNat := by
  obtain ⟨r, -, he⟩ | ⟨d, -, -, -, he⟩ | ⟨d, hloop, -, he⟩ := decodeFrame_cases ov h s <;>
    rw [he] at ho
  · simp at ho
  · simp at ho
  · have hhdr : d.hdr = h := (recordLoop_ok hloop).1
    rw [commitFrame_outcome, Option.some.injEq, OutcomeRecord.mk.injEq, Result.frame.injEq] at ho
    obtain ⟨rfl, -, -⟩ := ho
    exact ⟨hhdr, by rw [he, commitFrame_fb, FrameDecode.frameEnd, hhdr]⟩

/-- A Frame has passed the header checks, and its declared length is consumed (R121, R107, R108). -/
theorem decodeAligned_eq_frame
    (ho : (s.decodeAligned ov).outcome =
      some { result := .frame f, overflow := ov', status := st }) :
    f.header = s.fb.cells.headerAt ∧ Config.hdrLen ≤ f.header.totalPacketLength.toNat ∧
      f.header.totalPacketLength.toNat ≤ Config.cap ∧
      f.header.totalPacketLength.toNat ≤ s.fb.len ∧
      (s.decodeAligned ov).fb = s.fb.consume f.header.totalPacketLength.toNat := by
  obtain ⟨-, he⟩ | ⟨-, -, he⟩ | ⟨-, -, -, -, he⟩ | ⟨-, hmin, hmax, hheld, he⟩ :=
    decodeAligned_cases ov s <;> rw [he] at ho
  · simp at ho
  · simp at ho
  · simp at ho
  · obtain ⟨hhdr, hfb⟩ := decodeFrame_eq_frame ho
    rw [← memRead_totalPacketLength] at hmin hmax hheld
    rw [he, hfb, hhdr]
    exact ⟨rfl, hmin, hmax, hheld, rfl⟩

/-- A Frame was found at the true sync offset (R106). -/
theorem ingest_eq_frame {c : List Byte}
    (ho : (s.ingest c).outcome = some { result := .frame f, overflow := ov', status := st }) :
    ∃ p, (s.fb.append c).trueSync = some p ∧
      f.header = ((s.fb.append c).discardBefore p).cells.headerAt ∧
      Config.hdrLen ≤ f.header.totalPacketLength.toNat ∧
      f.header.totalPacketLength.toNat ≤ Config.cap ∧
      f.header.totalPacketLength.toNat ≤ (s.fb.append c).len - p ∧
      (s.ingest c).fb =
        ((s.fb.append c).discardBefore p).consume f.header.totalPacketLength.toNat := by
  unfold State.ingest at ho ⊢
  obtain ⟨-, he⟩ | ⟨p, hp, he⟩ := syncAndDecode_cases (s.fb.overflows c) (s.appendChunk c) <;>
    rw [he] at ho
  · simp at ho
  · rw [he]
    exact ⟨p, hp, decodeAligned_eq_frame ho⟩

end frame

/-- The header at a valid sync offset 0 carries the marker (R120). -/
theorem headerAt_magic_of_syncAt_zero {fb : FrameBuffer} (h : fb.syncAt 0 = true) :
    fb.cells.headerAt.magic = Config.marker :=
  (Memory.slice_readBytes fb.cells 0 52 0 8 (by decide)).trans (syncAt_iff.mp h).2

/-- Settles O29: the alignment and the consume are one discard, of the garbage and the frame. -/
theorem frameConsumesExactlyItsBytes : Obligations.FrameConsumesExactlyItsBytes := by
  intro s t c f ov st _ h ho
  obtain ⟨-, -, rfl⟩ := execIngest_next h
  obtain ⟨p, hp, hhdr, hmin, hmax, hheld, hfb⟩ := ingest_eq_frame ho
  obtain ⟨hmem, hleast⟩ := trueSync_eq_some_iff_least.mp hp
  have hroom := trueSync_le hp
  have hfit : p + f.header.totalPacketLength.toNat ≤ (s.fb.append c).len := by omega
  obtain ⟨hmoved, -, -, hlen⟩ := compactionMovesDownAndZeroFills (s.fb.append c) _ hfit
  rw [FrameBuffer.consume, discardBefore_discardBefore] at hfb
  refine ⟨?_, hmin, hmax, p, hmem, hleast, hfit, ?_, fun i hi => ?_⟩
  · rw [hhdr]
    exact headerAt_magic_of_syncAt_zero (syncAt_zero_of_trueSync hp)
  · rw [hfb, hlen, Nat.sub_sub]
  · rw [hfb] at hi ⊢
    exact hmoved i hi

end Sys2Proof.Machine
end

section
/-! PROOFS. FRAME_HEADER (spec/41_header.md): what it answers at its stage for each result of the header
checks, in their order (spec/60_exceptions.md R207), and what recovery leaves (R206). -/

namespace Sys2Proof.Machine

/-! ## What recovery leaves -/

/-- Recovery vacates every index held and writes none behind them (R206, R103). -/
theorem recover_read (fb : FrameBuffer) (i : Nat) :
    fb.recover.cells.read i = if i < fb.len then 0 else fb.cells.read i := by
  rw [FrameBuffer.recover, discardBefore_read (Nat.le_refl _), Nat.sub_self, if_neg (Nat.not_lt_zero i),
    unlistedByte]

@[simp] theorem recover_len (fb : FrameBuffer) : fb.recover.len = 0 := Nat.sub_self fb.len

/-- The status of a Truncated outcome is the one before it but for `LEN`, which is 0 (R206, R30). -/
theorem truncate_eq (ov : Bool) (r : TruncReason) (s : State) :
    s.truncate ov r =
      { s with
        fb := s.fb.recover
        txn := none
        outcome := some
          { result := .truncated r, overflow := ov, status := { s.status with len := 0 } } } := by
  simp [State.truncate, State.finish, State.status]

/-! ## What the header checks answer -/

section headerCheck
variable {fb : FrameBuffer} {T : Nat}

/-- The first check: completeness (R122). -/
theorem headerCheck_of_len_lt (hshort : fb.len < Config.hdrLen) :
    fb.headerCheck T = some (.noData .incompleteHeader) := if_pos hshort

/-- The second check: the declared length, for a complete header (R121). -/
theorem headerCheck_of_illegal_total (hheld : Config.hdrLen ≤ fb.len)
    (hT : T < Config.hdrLen ∨ Config.cap < T) :
    fb.headerCheck T = some (.truncated .badTotalLength) := by
  rw [FrameBuffer.headerCheck, if_neg (Nat.not_lt.mpr hheld), if_pos hT]

/-- The third check: readiness, for a legal declared length (R107). -/
theorem headerCheck_of_len_lt_total (hheld : Config.hdrLen ≤ fb.len) (hmin : Config.hdrLen ≤ T)
    (hmax : T ≤ Config.cap) (hpart : fb.len < T) :
    fb.headerCheck T = some (.noData .incompleteFrame) := by
  have hlegal : ¬(T < Config.hdrLen ∨ Config.cap < T) := by omega
  have hready : fb.readyForDecode T = false := by simp [FrameBuffer.readyForDecode, hpart]
  rw [FrameBuffer.headerCheck, if_neg (Nat.not_lt.mpr hheld), if_neg hlegal, hready]
  rfl

end headerCheck

/-! ## FRAME_HEADER -/

/-- What FRAME_HEADER does at its stage: the check that fails ends the INGEST (R207), and a header that
passes them all starts the record loop (R130). -/
theorem execFrameHeader_eq {s : State} {ov : Bool}
    (ht : s.txn = some { overflow := ov, stage := .header }) (hc : s.fb.len ≤ Config.cap)
    (h : Header) :
    (∀ r, s.fb.headerCheck h.totalPacketLength.toNat = some r →
      exec (.frameHeader h) s = .next (s.endWith ov r)) ∧
    (s.fb.headerCheck h.totalPacketLength.toNat = none →
      exec (.frameHeader h) s =
        .next { s with txn := some { overflow := ov, stage := .records (.start h) } }) := by
  change (∀ r, _ → execFrameHeader h s = _) ∧ (_ → execFrameHeader h s = _)
  unfold execFrameHeader
  rw [ht]
  simp only [inBuffer_of_le hc]
  exact ⟨fun r hr => by rw [hr], fun hpass => by rw [hpass]⟩

/-- Settles O15: each clause meets the check that decides it, and only the illegal length recovers. -/
theorem frameHeaderChecksComeInOrder : Obligations.FrameHeaderChecksComeInOrder := by
  intro s ov h ht hc
  obtain ⟨hfails, -⟩ := execFrameHeader_eq ht hc h
  refine ⟨fun hshort => ?incompleteHeader, fun hheld hT => ?badTotalLength,
    fun hheld hmin hmax hpart => ?incompleteFrame⟩
  case incompleteHeader => exact hfails _ (headerCheck_of_len_lt hshort)
  case badTotalLength =>
    refine ⟨s.fb.recover, recover_len s.fb, fun i hi => ?_, fun i hi => ?_, ?_⟩
    · rw [recover_read, if_pos hi]
    · rw [recover_read, if_neg (Nat.not_lt.mpr hi)]
    · rw [hfails _ (headerCheck_of_illegal_total hheld hT), State.endWith, truncate_eq]
  case incompleteFrame => exact hfails _ (headerCheck_of_len_lt_total hheld hmin hmax hpart)

/-- Settles O14: a whole frame of a legal declared length holds a complete header, so every check
passes. -/
theorem frameHeaderStartsTheRecordLoop : Obligations.FrameHeaderStartsTheRecordLoop := by
  intro s ov h ht hc hmin hheld
  obtain ⟨-, hpasses⟩ := execFrameHeader_eq ht hc h
  exact hpasses (headerCheck_eq_none_iff.mpr ⟨hmin.trans hheld, hmin, hheld.trans hc, hheld⟩)

end Sys2Proof.Machine
end

section
/-! PROOFS. The TLV records (spec/42_tlv.md): the four record instructions differ in one effect on the
slots, so what each answers is what the record's checks answer (R131 to R133, R207) and its own effect on
the payload (R134 to R137, R139); after the last record the frame-length check ends the INGEST (R138,
R174). -/

namespace Sys2Proof.Machine

/-! ## What the payloads read -/

/-- A list of one element per index below a bound has at each index that index's element. -/
theorem eq_of_getElem?_map_range {α : Type} {f : Nat → α} {n i : Nat} {x : α}
    (h : ((List.range n).map f)[i]? = some x) : x = f i := by
  obtain ⟨hi, hx⟩ := List.getElem?_eq_some_iff.mp h
  rw [← hx, List.getElem_map, List.getElem_range]

@[simp] theorem Memory.pointsAt_length (m : Memory) (a n : Nat) : (m.pointsAt a n).length = n := by
  simp [Memory.pointsAt]

@[simp] theorem Memory.targetsAt_length (m : Memory) (a n : Nat) :
    (m.targetsAt a n).length = n := by
  simp [Memory.targetsAt]

/-- Points stand 16 bytes apart (R69). -/
theorem Memory.eq_pointAt_of_pointsAt {m : Memory} {a n i : Nat} {p : Point}
    (h : (m.pointsAt a n)[i]? = some p) : p = m.pointAt (a + 16 * i) :=
  eq_of_getElem?_map_range (f := fun i => m.pointAt (a + 16 * i)) h

/-- Targets stand 68 bytes apart (R70). -/
theorem Memory.eq_targetAt_of_targetsAt {m : Memory} {a n j : Nat} {t : Target}
    (h : (m.targetsAt a n)[j]? = some t) : t = m.targetAt (a + 68 * j) :=
  eq_of_getElem?_map_range (f := fun j => m.targetAt (a + 68 * j)) h

/-- Target indices are single bytes (R71). -/
theorem Memory.eq_read_of_indicesAt {m : Memory} {a n i : Nat} {b : Byte}
    (h : (m.indicesAt a n)[i]? = some b) : b = m.read (a + i) :=
  eq_of_getElem?_map_range (f := fun i => m.read (a + i)) h

/-! ## The effect of each kind on its payload -/

section payload
variable {mem : Memory} {P m : Nat} {d : FrameDecode}

theorem malformed_eq_true_iff {m size : Nat} : malformed m size = true ↔ m % size ≠ 0 := by
  simp [malformed]

/-- A whole number of points fills the slot (R134). -/
theorem decodePointCloud_of_whole (h : m % 16 = 0) :
    decodePointCloud mem P m d = { d with points := some (mem.pointsAt P (m / 16)) } :=
  if_neg fun hbad => malformed_eq_true_iff.mp hbad h

/-- Any other payload sets the flag (R139). -/
theorem decodePointCloud_of_malformed (h : m % 16 ≠ 0) :
    decodePointCloud mem P m d = { d with pcMalformed := true } :=
  if_pos (malformed_eq_true_iff.mpr h)

/-- A whole number of targets fills the slot (R135). -/
theorem decodeTargetList_of_whole (h : m % 68 = 0) :
    decodeTargetList mem P m d = { d with targets := some (mem.targetsAt P (m / 68)) } :=
  if_neg fun hbad => malformed_eq_true_iff.mp hbad h

/-- Any other payload sets the flag (R139). -/
theorem decodeTargetList_of_malformed (h : m % 68 ≠ 0) :
    decodeTargetList mem P m d = { d with tlMalformed := true } :=
  if_pos (malformed_eq_true_iff.mpr h)

end payload

/-! ## A record instruction at its stage -/

/-- A record that passes its checks has its effect on the payload, is passed over by its length and uses
up one iteration; nothing else of the state changes (R130). -/
theorem runRecord_of_fits {s : State} {ov : Bool} {d : FrameDecode} {L : U32}
    (ht : s.txn = some { overflow := ov, stage := .records d }) (hl : d.left ≠ 0)
    (hc : s.fb.len ≤ Config.cap) (hL : 8 ≤ L.toNat)
    (hend : d.cur + L.toNat ≤ d.hdr.totalPacketLength.toNat)
    (hcap : d.hdr.totalPacketLength.toNat ≤ Config.cap)
    {effect : Nat → Nat → FrameDecode → FrameDecode} {e : FrameDecode}
    (he : effect (d.cur + 8) (L.toNat - 8) d = e) :
    s.runRecord (fun d => d.record L effect) =
      .next
        { s with
          txn := some
            { overflow := ov
              stage := .records { e with cur := d.cur + L.toNat, left := d.left - 1 } } } := by
  have hsub : d.cur + 8 ≤ d.frameEnd := (Nat.add_le_add_left hL d.cur).trans hend
  rw [runRecord_eq ht hl hc, record_ok_iff.mpr ⟨hsub, hL, hend, rfl⟩]
  refine (if_neg (Nat.not_lt.mpr (hend.trans hcap))).trans ?_
  rw [← he]
  rfl

/-- Settles O16: the record fits and is not malformed, so its points are those at the payload. -/
theorem pointCloudRecordFillsItsSlot : Obligations.PointCloudRecordFillsItsSlot := by
  intro s ov d L ht hl hc hL hend hcap hwhole
  refine ⟨s.fb.cells.pointsAt (d.cur + 8) ((L.toNat - 8) / 16),
    runRecord_of_fits ht hl hc hL hend hcap (decodePointCloud_of_whole hwhole),
    Memory.pointsAt_length .., fun i p hp => ?_⟩
  obtain rfl := Memory.eq_pointAt_of_pointsAt hp
  have hfield := s.fb.cells.toNat_u32At
  exact ⟨hfield _, hfield _, hfield _, hfield _⟩

/-- Settles O17: the record fits and is not malformed, so its targets are those at the payload. -/
theorem targetListRecordFillsItsSlot : Obligations.TargetListRecordFillsItsSlot := by
  intro s ov d L ht hl hc hL hend hcap hwhole
  refine ⟨s.fb.cells.targetsAt (d.cur + 8) ((L.toNat - 8) / 68),
    runRecord_of_fits ht hl hc hL hend hcap (decodeTargetList_of_whole hwhole),
    Memory.targetsAt_length .., fun j t htgt => ?_⟩
  obtain rfl := Memory.eq_targetAt_of_targetsAt htgt
  have hfield := s.fb.cells.toNat_u32At
  exact ⟨hfield _, hfield _, hfield _, hfield _, hfield _, hfield _, hfield _, hfield _, hfield _,
    hfield _, hfield _, hfield _, hfield _, hfield _, hfield _, hfield _, hfield _⟩

/-- Settles O18: neither kind has a malformed payload. -/
theorem targetIndexAndUnknownRecordsComplete :
    Obligations.TargetIndexAndUnknownRecordsComplete := by
  intro s ov d L ht hl hc hL hend hcap
  refine ⟨⟨s.fb.cells.indicesAt (d.cur + 8) (L.toNat - 8), ?targetIndex,
    Memory.readBytes_length .., fun i b hb => Memory.eq_read_of_indicesAt hb⟩, fun type => ?unknown⟩
  case targetIndex =>
    exact runRecord_of_fits (effect := decodeTargetIndex s.fb.cells) ht hl hc hL hend hcap rfl
  case unknown =>
    exact runRecord_of_fits (effect := fun _ _ => skipUnknown) ht hl hc hL hend hcap rfl

/-- Settles O19: for a record that fits, the effect of a malformed payload is its flag alone. -/
theorem malformedRecordSetsItsFlagAndIsPassedOver :
    Obligations.MalformedRecordSetsItsFlagAndIsPassedOver := by
  intro s ov d L ht hl hc hL hend hcap
  exact ⟨fun hbad => runRecord_of_fits ht hl hc hL hend hcap (decodePointCloud_of_malformed hbad),
    fun hbad => runRecord_of_fits ht hl hc hL hend hcap (decodeTargetList_of_malformed hbad)⟩

/-- Settles O20: the checks come before the effect, so the four instructions truncate alike. -/
theorem recordChecksTruncateInOrder : Obligations.RecordChecksTruncateInOrder := by
  intro s ov d type L i r ht hl hc hi hcheck
  refine ⟨s.fb.recover, recover_len s.fb, fun k hk => ?_, fun k hk => ?_, ?_⟩
  · rw [recover_read, if_pos hk]
  · rw [recover_read, if_neg (Nat.not_lt.mpr hk)]
  · obtain ⟨effect, he⟩ := exec_record_eq hi s
    have hfails : d.record L effect = .error r := record_error_iff.mpr hcheck
    rw [he, runRecord_eq ht hl hc, hfails, ← truncate_eq]

/-! ## After the last record -/

/-- With no iteration left the next step is the frame-length check (R138; log 2). -/
theorem step_of_no_record_left {s : State} {ov : Bool} {d : FrameDecode}
    (ht : s.txn = some { overflow := ov, stage := .records d }) (hc : s.fb.len ≤ Config.cap)
    (hl : d.left = 0) : step s = .next (s.closeFrame ov d) :=
  step_of_fetch_settle ((fetch_of_stage ht hc).trans (if_pos hl))

theorem State.EndsIn.pending {s t : State} (h : s.EndsIn t) : t.pending = s.pending := by
  cases h <;> rfl

/-- The bytes of a legal buffer behind those held are 0 (R23). -/
theorem read_of_len_le {fb : FrameBuffer} (h : fb.wf) {i : Nat} (hi : fb.len ≤ i) :
    fb.cells.read i = 0 := by
  obtain ⟨-, -, hheld⟩ := h
  exact Memory.read_eq_unlisted fun c hc => ((hheld c hc).trans_le hi).ne

theorem afterFrame_of_targets_none {d : FrameDecode} (h : d.targets = none) (p : Config.Params)
    (tr : Tracker) : tr.afterFrame p d = tr := by
  rw [Tracker.afterFrame, h]

theorem afterFrame_of_targets_some {d : FrameDecode} {tl : List Target} (h : d.targets = some tl)
    (p : Config.Params) (tr : Tracker) :
    tr.afterFrame p d = tr.commit p d.hdr.frameNumber tl := by
  rw [Tracker.afterFrame, h]

/-- Settles O21: the end is a recovery or a commit, and both leave a legal buffer. -/
theorem frameLengthCheckEndsTheRecords : Obligations.FrameLengthCheckEndsTheRecords := by
  intro s ov d ht hwf hl hcur hheld
  have hend := closeFrame_endsIn ov d s
  have ⟨_, hc, _⟩ := hwf
  refine ⟨s.closeFrame ov d, step_of_no_record_left ht hc hl, hend.txn, hend.params,
    hend.pending, fun htrailing => ?mismatch, fun hcovered => ?frame⟩
  case mismatch =>
    have hclose : s.closeFrame ov d = s.truncate ov .lengthMismatch := if_pos htrailing
    rw [hclose]
    exact ⟨recover_of_wf hwf, truncate_tracker .., truncate_outcome ..⟩
  case frame =>
    have hclose : s.closeFrame ov d = s.commitFrame ov d := if_neg hcovered
    have hleft : (s.fb.consume d.frameEnd).wf := discardBefore_wf hwf hheld
    obtain ⟨hmoved, -, -, hlen⟩ := compactionMovesDownAndZeroFills s.fb d.frameEnd hheld
    rw [hclose]
    exact ⟨hlen, hmoved, fun i => read_of_len_le hleft,
      fun hnone => afterFrame_of_targets_none hnone _ _,
      fun tl hsome => afterFrame_of_targets_some hsome _ _, commitFrame_outcome ..⟩

end Sys2Proof.Machine
end

section
/-! PROOFS. The predicates on samples (spec/43_occupancy.md R151 to R154). The band and the sign are read
off the exponent and fraction of a pattern, and the first crossing is where a crossing-free start of the
history ends. -/

namespace Sys2Proof.Machine

/-! ## The band and the sign of a pattern -/

/-- The magnitude is all but the sign bit (R14). -/
theorem toNat_magnitude (x : F32) : (magnitude x).toNat = x.toNat % 2 ^ 31 := by
  rw [magnitude, BitVec.toNat_and]
  exact Nat.and_two_pow_sub_one_eq_mod x.toNat 31

/-- The magnitude is the exponent followed by the fraction (R14). -/
theorem toNat_magnitude_fields (x : F32) :
    (magnitude x).toNat = 2 ^ 23 * (x.toNat / 2 ^ 23 % 2 ^ 8) + x.toNat % 2 ^ 23 := by
  rw [toNat_magnitude]
  omega

theorem inBand_iff {x : F32} : inBand x = true ↔ (magnitude x).toNat ≤ 0x3F000000 :=
  decide_eq_true_iff

/-- Below exponent 126 every value is in the band, at 126 only 0.5 itself, above it none (R151). -/
theorem inBand_iff_fields {x : F32} :
    inBand x = true ↔
      x.toNat / 2 ^ 23 % 2 ^ 8 < 126 ∨
        x.toNat / 2 ^ 23 % 2 ^ 8 = 126 ∧ x.toNat % 2 ^ 23 = 0 := by
  rw [inBand_iff, toNat_magnitude_fields]
  have : x.toNat % 2 ^ 23 < 2 ^ 23 := Nat.mod_lt _ (by decide)
  omega

/-- `|x| ≤ 0.5` for the value with exponent `e` and fraction `f`: its significand is below `2^24`, so the
exponent decides, but for the end of the band. -/
theorem value_le_half_iff {e f : Nat} (hf : f < 2 ^ 23) :
    (if e = 0 then f else 2 ^ 23 + f) * 2 ^ max e 1 ≤ 2 ^ 149 ↔ e < 126 ∨ e = 126 ∧ f = 0 := by
  rcases Nat.lt_trichotomy e 126 with hlow | rfl | hhigh
  · have hm : (if e = 0 then f else 2 ^ 23 + f) ≤ 2 ^ 24 := by split <;> omega
    have hfits := Nat.mul_le_mul hm (Nat.pow_le_pow_right (n := 2) (by decide)
      (show max e 1 ≤ 125 by omega))
    exact iff_of_true hfits (.inl hlow)
  · have hend : (2 ^ 23 + f) * 2 ^ 126 ≤ 2 ^ 149 ↔ f = 0 := by omega
    simpa using hend
  · have hm : 2 ^ 23 ≤ (if e = 0 then f else 2 ^ 23 + f) := by split <;> omega
    have hpast := Nat.mul_le_mul hm (Nat.pow_le_pow_right (n := 2) (by decide)
      (show 127 ≤ max e 1 by omega))
    refine iff_of_false (fun hle => absurd (hpast.trans hle) (by decide)) (by omega)

theorem sample_of_not_inBand {t : Target} (h : inBand t.posX = false) (p : Config.Params)
    (tr : Tracker) : tr.sample p t = tr := by
  rw [Tracker.sample, h]
  rfl

/-- Settles O36, by the exponent: below that of 0.5, equal to it, or above. -/
theorem bandTestIsExactlyHalfClosed : Obligations.BandTestIsExactlyHalfClosed := by
  refine ⟨fun x => inBand_iff, ?value, ?notStored, by decide⟩
  case value =>
    rintro x e f m rfl rfl rfl
    rw [value_le_half_iff (Nat.mod_lt _ (by decide)), inBand_iff_fields]
    omega
  case notStored =>
    intro p tr t he
    refine sample_of_not_inBand (Bool.eq_false_iff.mpr fun hin => ?_) p tr
    rw [BitVec.extractLsb'_toNat, Nat.shiftRight_eq_div_pow] at he
    have := inBand_iff_fields.mp hin
    omega

/-- Only the sign bit can be set in a zero (R153). -/
theorem magnitude_eq_zero_iff {x : F32} : magnitude x = 0 ↔ x = 0 ∨ x = 0x80000000 := by
  simp only [← BitVec.toNat_inj, toNat_magnitude, BitVec.toNat_ofNat, BitVec.ofNat_eq_ofNat]
  omega

/-- Settles O37: no sign on a zero magnitude, and the sign bit's elsewhere. -/
theorem signIsStrictAndZerosHaveNone : Obligations.SignIsStrictAndZerosHaveNone := by
  intro x
  rw [← magnitude_eq_zero_iff]
  change (_ ↔ _ ∧ magnitude x ≠ 0) ∧ (_ ↔ _ ∧ magnitude x ≠ 0) ∧ _
  by_cases hzero : magnitude x = 0
  · have hsgn : sgn x = .zero := if_pos hzero
    simp [hsgn, hzero]
  · have hsgn : sgn x = if x.getLsbD 31 then .neg else .pos := if_neg hzero
    simp only [hsgn, hzero, ne_eq, not_false_eq_true, and_true, iff_false]
    cases x.getLsbD 31 <;> decide

/-! ## The first crossing -/

section pairCrossing
variable {a b : F32}

theorem pairCrossing_eq_negToPos_iff :
    pairCrossing a b = .negToPos ↔ sgn a = .neg ∧ sgn b = .pos := by
  unfold pairCrossing
  cases sgn a <;> cases sgn b <;> decide

theorem pairCrossing_eq_posToNeg_iff :
    pairCrossing a b = .posToNeg ↔ sgn a = .pos ∧ sgn b = .neg := by
  unfold pairCrossing
  cases sgn a <;> cases sgn b <;> decide

theorem pairCrossing_eq_none_iff :
    pairCrossing a b = .none ↔
      ¬(sgn a = .neg ∧ sgn b = .pos) ∧ ¬(sgn a = .pos ∧ sgn b = .neg) := by
  rw [← pairCrossing_eq_negToPos_iff, ← pairCrossing_eq_posToNeg_iff]
  cases pairCrossing a b <;> decide

end pairCrossing

/-- No two consecutive samples have opposite signs (R154). -/
abbrev Uncrossed (h : List F32) : Prop := h.IsChain fun a b => pairCrossing a b = .none

theorem uncrossed_iff {h : List F32} :
    Uncrossed h ↔ ∀ i x y, h[i]? = some x → h[i + 1]? = some y →
      ¬(sgn x = .neg ∧ sgn y = .pos) ∧ ¬(sgn x = .pos ∧ sgn y = .neg) := by
  simp only [← pairCrossing_eq_none_iff, List.isChain_iff_getElem]
  constructor
  · intro hpairs i x y hx hy
    obtain ⟨_, rfl⟩ := List.getElem?_eq_some_iff.mp hx
    obtain ⟨hlt, rfl⟩ := List.getElem?_eq_some_iff.mp hy
    exact hpairs i hlt
  · intro hpairs i hlt
    exact hpairs i _ _ (List.getElem?_eq_getElem _) (List.getElem?_eq_getElem hlt)

/-- A pair that crosses decides, and one that does not is passed over (R154). -/
theorem firstCrossing_cons_cons (a b : F32) (r : List F32) :
    firstCrossing (a :: b :: r) =
      if pairCrossing a b = .none then firstCrossing (b :: r) else pairCrossing a b := by
  rw [firstCrossing]
  cases pairCrossing a b <;> rfl

/-- A crossing-free start has no say. -/
theorem firstCrossing_append {l : List F32} {a : F32} (h : Uncrossed (l ++ [a])) (r : List F32) :
    firstCrossing (l ++ a :: r) = firstCrossing (a :: r) := by
  induction l with
  | nil => rfl
  | cons x l ih =>
    cases l with
    | nil =>
      obtain ⟨hpair, -⟩ := List.isChain_cons_cons.mp h
      exact (firstCrossing_cons_cons x a r).trans (if_pos hpair)
    | cons y l =>
      obtain ⟨hpair, htail⟩ := List.isChain_cons_cons.mp h
      exact ((firstCrossing_cons_cons x y _).trans (if_pos hpair)).trans (ih htail)

theorem firstCrossing_eq_none_iff {h : List F32} : firstCrossing h = .none ↔ Uncrossed h := by
  induction h with
  | nil => exact iff_of_true rfl .nil
  | cons a h ih =>
    cases h with
    | nil => exact iff_of_true rfl (.singleton a)
    | cons b r =>
      rw [firstCrossing_cons_cons, Uncrossed, List.isChain_cons_cons, ← Uncrossed, ← ih]
      by_cases hpair : pairCrossing a b = .none <;> simp [hpair]

/-- Where a crossing is found, the samples up to it are crossing-free (R154). -/
theorem firstCrossing_eq_iff {h : List F32} {c : Crossing} (hc : c ≠ .none) :
    firstCrossing h = c ↔
      ∃ l a b r, h = l ++ a :: b :: r ∧ pairCrossing a b = c ∧ Uncrossed (l ++ [a]) := by
  constructor
  · induction h with
    | nil => exact fun hfirst => absurd hfirst.symm hc
    | cons a h ih =>
      cases h with
      | nil => exact fun hfirst => absurd hfirst.symm hc
      | cons b r =>
        rw [firstCrossing_cons_cons]
        split
        case isTrue hpair =>
          intro hfirst
          obtain ⟨l, a', b', r', heq, hcross, hfree⟩ := ih hfirst
          refine ⟨a :: l, a', b', r', by rw [heq]; rfl, hcross, ?_⟩
          cases l with
          | nil | cons x l =>
            obtain ⟨rfl, -⟩ := List.cons.inj heq
            exact .cons_cons hpair hfree
        case isFalse => exact fun hpair => ⟨[], a, b, r, rfl, hpair, .singleton a⟩
  · rintro ⟨l, a, b, r, rfl, rfl, hfree⟩
    rw [firstCrossing_append hfree, firstCrossing_cons_cons, if_neg hc]

/-- Settles O38: the samples before the first opposite pair are a crossing-free start. -/
theorem firstCrossingIsTheFirstOppositePair : Obligations.FirstCrossingIsTheFirstOppositePair := by
  intro h
  have hup := firstCrossing_eq_iff (h := h) (c := .negToPos) (by decide)
  have hdown := firstCrossing_eq_iff (h := h) (c := .posToNeg) (by decide)
  simp only [pairCrossing_eq_negToPos_iff, uncrossed_iff, and_assoc] at hup
  simp only [pairCrossing_eq_posToNeg_iff, uncrossed_iff, and_assoc] at hdown
  exact ⟨hup, hdown, firstCrossing_eq_none_iff.trans uncrossed_iff⟩

end Sys2Proof.Machine
end

section
/-! PROOFS. The occupancy tracker (spec/43_occupancy.md R152 to R161). The two counters follow one rule,
stated once for the counter a crossing increments; a window evaluation adds up its evaluations, because
each id is evaluated once and clearing one history leaves the others; and an INGEST writes the tracker
only in the commit of a frame. -/

namespace Sys2Proof.Machine

/-! ## Sampling -/

theorem nodup_ids {h : Hist} (hw : h.wf) : h.ids.Nodup :=
  List.pairwise_map.mpr (hw.1.imp U32.ne_of_lt)

/-- The store is full for an id when one of the two bounds is met (R152). -/
theorem full_eq_true_iff {p : Config.Params} {tr : Tracker} {id : U32} :
    tr.full p id = true ↔
      tr.hist.get id = [] ∧ p.maxIds = some tr.hist.idCount ∨
        p.histDepth = some (tr.hist.get id).length := by
  simp [Tracker.full]

section sample
variable {p : Config.Params} {tr : Tracker} {t : Target}

theorem sample_of_full (hband : inBand t.posX = true) (hfull : tr.full p t.id = true) :
    tr.sample p t = { tr with trackFault := true } := by
  rw [Tracker.sample, if_pos hband, if_pos hfull]

theorem sample_of_room (hband : inBand t.posX = true) (hroom : tr.full p t.id = false) :
    tr.sample p t = { tr with hist := tr.hist.push t.id t.posX } := by
  rw [Tracker.sample, if_pos hband, hroom]
  rfl

theorem sample_hist_wf (hw : tr.hist.wf) (p : Config.Params) (t : Target) :
    (tr.sample p t).hist.wf := by
  obtain ⟨-, he⟩ | ⟨-, -, he⟩ | ⟨-, -, he⟩ := sample_cases p tr t <;> rw [he]
  · exact hw
  · exact hw
  · exact Hist.wf_push hw _ _

/-- A sample lists at most one id more (R152). -/
theorem sample_hist_length_le (hw : tr.hist.wf) (p : Config.Params) (t : Target) :
    (tr.sample p t).hist.length ≤ tr.hist.length + 1 := by
  obtain ⟨-, he⟩ | ⟨-, -, he⟩ | ⟨-, -, he⟩ := sample_cases p tr t <;> rw [he]
  · exact Nat.le_succ _
  · exact Nat.le_succ _
  · have hpush : (tr.hist.push t.id t.posX).length = tr.hist.length + _ :=
      Hist.idCount_push hw t.id t.posX
    rw [hpush]
    split <;> omega

end sample

/-- Settles O39: the ids listed are those with samples, and the three outcomes are the branches of
`sample`. -/
theorem sampleAppendsOrSetsTheFault : Obligations.SampleAppendsOrSetsTheFault := by
  intro p tr t hw
  have hcount : tr.hist.ids.length = tr.hist.idCount := List.length_map _
  refine ⟨tr.hist.ids, nodup_ids hw, fun id => (Hist.get_ne_nil_iff hw).symm,
    fun hout => sample_of_not_inBand hout p tr, fun hband hbound => ?full, fun hband hbound => ?room⟩
  case full =>
    rw [hcount, ← full_eq_true_iff] at hbound
    exact sample_of_full hband hbound
  case room =>
    rw [hcount, ← full_eq_true_iff, Bool.not_eq_true] at hbound
    rw [sample_of_room hband hbound]
    refine ⟨?_, fun id hne => ?_, rfl, rfl, rfl, Hist.wf_push hw _ _⟩
    · exact (Hist.get_push hw _ _ _).trans (if_pos rfl)
    · exact (Hist.get_push hw _ _ _).trans (if_neg hne)

/-! ## Samples one after another -/

@[simp] theorem sampleAll_entered (p : Config.Params) (tr : Tracker) (tl : List Target) :
    (tr.sampleAll p tl).entered = tr.entered := by
  induction tl generalizing tr with
  | nil => rfl
  | cons t tl ih => exact (ih _).trans (sample_entered p tr t)

@[simp] theorem sampleAll_exited (p : Config.Params) (tr : Tracker) (tl : List Target) :
    (tr.sampleAll p tl).exited = tr.exited := by
  induction tl generalizing tr with
  | nil => rfl
  | cons t tl ih => exact (ih _).trans (sample_exited p tr t)

section sampleAll
variable {p : Config.Params} {tr : Tracker} (tl : List Target)

theorem sampleAll_hist_wf (hw : tr.hist.wf) : (tr.sampleAll p tl).hist.wf := by
  induction tl generalizing tr with
  | nil => exact hw
  | cons t tl ih => exact ih (sample_hist_wf hw p t)

/-- Samples list at most one id more for each target (R152). -/
theorem sampleAll_hist_length_le (hw : tr.hist.wf) :
    (tr.sampleAll p tl).hist.length ≤ tr.hist.length + tl.length := by
  induction tl generalizing tr with
  | nil => exact Nat.le_refl _
  | cons t tl ih =>
    have hone := sample_hist_length_le hw p t
    have hrest : ((tr.sample p t).sampleAll p tl).hist.length ≤ _ := ih (sample_hist_wf hw p t)
    exact hrest.trans (by rw [List.length_cons]; omega)

end sampleAll

/-- The banded `posX` values of one id, in record order (R152, R158). -/
abbrev bandedSamples (id : U32) (tl : List Target) : List F32 :=
  (tl.filter fun t => t.id = id ∧ inBand t.posX = true).map Target.posX

section unbounded
variable {p : Config.Params} {tr : Tracker} (hids : p.maxIds = none) (hdepth : p.histDepth = none)
include hids hdepth

/-- Without bounds every banded sample is stored (R152). -/
theorem get_sample_of_unbounded (hw : tr.hist.wf) (t : Target) (id : U32) :
    (tr.sample p t).hist.get id = tr.hist.get id ++ bandedSamples id [t] := by
  cases hband : inBand t.posX
  · simp [sample_of_not_inBand hband, bandedSamples, hband]
  · have hroom : tr.full p t.id = false := by simp [Tracker.full, hids, hdepth]
    rw [sample_of_room hband hroom, Hist.get_push hw]
    by_cases hid : id = t.id
    · simp [bandedSamples, hid, hband]
    · simp [bandedSamples, hid, Ne.symm hid]

theorem get_sampleAll_of_unbounded (hw : tr.hist.wf) (tl : List Target) (id : U32) :
    (tr.sampleAll p tl).hist.get id = tr.hist.get id ++ bandedSamples id tl := by
  induction tl generalizing tr with
  | nil => simp [Tracker.sampleAll]
  | cons t tl ih =>
    have hsplit : bandedSamples id (t :: tl) = bandedSamples id [t] ++ bandedSamples id tl := by
      rw [← List.map_append, ← List.filter_append, List.singleton_append]
    calc ((tr.sample p t).sampleAll p tl).hist.get id
        = (tr.sample p t).hist.get id ++ bandedSamples id tl := ih (sample_hist_wf hw p t)
      _ = tr.hist.get id ++ bandedSamples id (t :: tl) := by
        rw [get_sample_of_unbounded hids hdepth hw, hsplit, List.append_assoc]

end unbounded

/-! ## The commit on and off a boundary -/

theorem commit_of_boundary {fn : U32} (h : fn.toNat % 20 = 0) (p : Config.Params) (tr : Tracker)
    (tl : List Target) : tr.commit p fn tl = (tr.sampleAll p tl).evaluateAll :=
  if_pos (beq_iff_eq.mpr h)

theorem commit_of_not_boundary {fn : U32} (h : fn.toNat % 20 ≠ 0) (p : Config.Params) (tr : Tracker)
    (tl : List Target) : tr.commit p fn tl = tr.sampleAll p tl :=
  if_neg (mt beq_iff_eq.mp h)

/-- Settles O40: off a boundary the commit is the samples alone. -/
theorem commitOffABoundaryOnlyCollects : Obligations.CommitOffABoundaryOnlyCollects := by
  intro p tr fn tl hw hids hdepth hfn
  rw [commit_of_not_boundary hfn]
  exact ⟨get_sampleAll_of_unbounded hids hdepth hw tl, sampleAll_entered p tr tl,
    sampleAll_exited p tr tl, (sampleAll_faultKept p tr tl).2 hids hdepth⟩

/-! ## One evaluation -/

/-- The counter a crossing increments (R155); no counter for no crossing. -/
def Tracker.counter (tr : Tracker) : Crossing → U32
  | .negToPos => tr.entered
  | .posToNeg => tr.exited
  | .none => 0

@[simp] theorem counter_negToPos (tr : Tracker) : tr.counter .negToPos = tr.entered := rfl
@[simp] theorem counter_posToNeg (tr : Tracker) : tr.counter .posToNeg = tr.exited := rfl

section evaluate
variable {tr : Tracker} {id : U32} {c : Crossing}

@[simp] theorem get_evaluate_self (tr : Tracker) (id : U32) : (tr.evaluate id).hist.get id = [] := by
  rw [evaluate_hist, Hist.get_clear, if_pos rfl]

theorem get_evaluate_of_ne {id' : U32} (h : id' ≠ id) :
    (tr.evaluate id).hist.get id' = tr.hist.get id' := by
  rw [evaluate_hist, Hist.get_clear, if_neg h]

/-- The first crossing increments its own counter and no other (R155). -/
theorem evaluate_counter (hc : c ≠ .none) :
    (tr.evaluate id).counter c =
      if firstCrossing (tr.hist.get id) = c then bump (tr.counter c) tr.freeCount
      else tr.counter c := by
  cases c with
  | none => exact absurd rfl hc
  | negToPos | posToNeg =>
    obtain ⟨hfirst, hentered, hexited⟩ | ⟨hfirst, hentered, hexited⟩ | ⟨hfirst, hentered, hexited⟩ :=
      evaluate_counters tr id <;> simp [hfirst, hentered, hexited]

theorem evaluate_freeCount (hc : c ≠ .none) (hfirst : firstCrossing (tr.hist.get id) = c) :
    (tr.evaluate id).freeCount = tr.freeCount + bumpDraws (tr.counter c) := by
  unfold Tracker.evaluate
  rw [hfirst]
  cases c with
  | none => exact absurd rfl hc
  | negToPos | posToNeg => rfl

/-- Below its limit the counter goes up by one or stays (R155, R28). -/
theorem toNat_evaluate_counter (hc : c ≠ .none)
    (hlim : firstCrossing (tr.hist.get id) = c → (tr.counter c).toNat + 1 < 2 ^ 32) :
    ((tr.evaluate id).counter c).toNat =
      (tr.counter c).toNat + (if firstCrossing (tr.hist.get id) = c then 1 else 0) := by
  rw [evaluate_counter hc]
  split
  case isTrue hfirst =>
    rw [bump_of_lt (hlim hfirst), BitVec.toNat_add]
    exact Nat.mod_eq_of_lt (hlim hfirst)
  case isFalse => rfl

/-- At a counter's limit the evaluation still clears its id, leaves the other counter, and counts the
draw (R28; log 5). -/
theorem evaluate_at_limit (hc : c ≠ .none) (hmax : tr.counter c = BitVec.allOnes 32)
    (hfirst : firstCrossing (tr.hist.get id) = c) {c' : Crossing} (hc' : c' ≠ .none)
    (hother : c ≠ c') :
    (tr.evaluate id).hist.get id = [] ∧
      (∀ id', id' ≠ id → (tr.evaluate id).hist.get id' = tr.hist.get id') ∧
      (tr.evaluate id).counter c' = tr.counter c' ∧
      (tr.evaluate id).trackFault = tr.trackFault ∧
      (tr.evaluate id).freeCount = tr.freeCount + 1 := by
  refine ⟨get_evaluate_self tr id, fun id' hne => get_evaluate_of_ne hne, ?_,
    evaluate_trackFault tr id, ?_⟩
  · rw [evaluate_counter hc', if_neg (hfirst ▸ hother)]
  · rw [evaluate_freeCount hc hfirst, hmax, bumpDraws, if_pos rfl]

end evaluate

/-- Settles O42: either counter by the rule of its crossing, the histories by the clear. -/
theorem evaluateCountsTheFirstCrossingAndClears :
    Obligations.EvaluateCountsTheFirstCrossingAndClears := fun tr id hentered hexited =>
  ⟨toNat_evaluate_counter (c := .negToPos) (by decide) hentered,
    toNat_evaluate_counter (c := .posToNeg) (by decide) hexited, get_evaluate_self tr id,
    fun _ hne => get_evaluate_of_ne hne, evaluate_trackFault tr id⟩

/-- Settles O43: one rule for either counter. -/
theorem evaluationPastTheLimitStillClears : Obligations.EvaluationPastTheLimitStillClears :=
  fun _ _ =>
    ⟨fun hmax hfirst =>
      evaluate_at_limit (c := .negToPos) (c' := .posToNeg) (by decide) hmax hfirst (by decide)
        (by decide),
    fun hmax hfirst =>
      evaluate_at_limit (c := .posToNeg) (c' := .negToPos) (by decide) hmax hfirst (by decide)
        (by decide)⟩

/-! ## A window evaluation -/

/-- How many of the ids have `c` as their first crossing. -/
def Tracker.crossings (tr : Tracker) (c : Crossing) (ids : List U32) : Nat :=
  ids.countP fun id => firstCrossing (tr.hist.get id) = c

theorem crossings_cons (tr : Tracker) (c : Crossing) (id : U32) (ids : List U32) :
    tr.crossings c (id :: ids) =
      tr.crossings c ids + if firstCrossing (tr.hist.get id) = c then 1 else 0 := by
  simp [Tracker.crossings, List.countP_cons]

/-- Evaluating one id leaves the crossings of the others. -/
theorem crossings_evaluate {tr : Tracker} {id : U32} {ids : List U32} (h : id ∉ ids) (c : Crossing) :
    (tr.evaluate id).crossings c ids = tr.crossings c ids := by
  refine List.countP_congr fun id' hmem => ?_
  rw [get_evaluate_of_ne (ne_of_mem_of_not_mem hmem h)]

/-- The crossings of the ids listed are those of the histories listed (R156). -/
theorem crossings_ids {tr : Tracker} (hw : tr.hist.wf) (c : Crossing) :
    tr.crossings c tr.hist.ids = (tr.hist.filter fun e => firstCrossing e.2 = c).length := by
  rw [Tracker.crossings, Hist.ids, List.countP_map, ← List.countP_eq_length_filter]
  refine List.countP_congr fun e he => ?_
  simp [Hist.get_of_mem hw he]

/-- Evaluating ids one after another adds up their crossings, while the sum is within the limit (R155,
R28). -/
theorem toNat_foldl_evaluate_counter {tr : Tracker} {c : Crossing} {ids : List U32} (hc : c ≠ .none)
    (hids : ids.Nodup) (hlim : (tr.counter c).toNat + tr.crossings c ids < 2 ^ 32) :
    ((ids.foldl Tracker.evaluate tr).counter c).toNat =
      (tr.counter c).toNat + tr.crossings c ids := by
  induction ids generalizing tr with
  | nil => rfl
  | cons id ids ih =>
    obtain ⟨hnew, hids⟩ := List.nodup_cons.mp hids
    rw [crossings_cons] at hlim ⊢
    have hone : ((tr.evaluate id).counter c).toNat =
        (tr.counter c).toNat + if firstCrossing (tr.hist.get id) = c then 1 else 0 :=
      toNat_evaluate_counter hc fun hfirst => by rw [if_pos hfirst] at hlim; omega
    rw [List.foldl_cons, ih hids (by rw [crossings_evaluate hnew]; omega), crossings_evaluate hnew]
    omega

theorem evaluateAll_hist (tr : Tracker) : tr.evaluateAll.hist = [] := by
  rw [evaluateAll_hist_eq_filter, List.filter_eq_nil_iff]
  intro e he
  have hlisted : e.1 ∈ tr.hist.ids := List.mem_map_of_mem he
  simpa using hlisted

/-- A window evaluation adds to a counter the histories listed with its crossing (R156). -/
theorem toNat_evaluateAll_counter {tr : Tracker} {c : Crossing} (hc : c ≠ .none) (hw : tr.hist.wf)
    (hlim : (tr.counter c).toNat + (tr.hist.filter fun e => firstCrossing e.2 = c).length < 2 ^ 32) :
    (tr.evaluateAll.counter c).toNat =
      (tr.counter c).toNat + (tr.hist.filter fun e => firstCrossing e.2 = c).length := by
  rw [← crossings_ids hw] at hlim ⊢
  exact toNat_foldl_evaluate_counter hc (nodup_ids hw) hlim

/-- Settles O41: the evaluation runs on the tracker the samples leave. -/
theorem boundaryCommitEvaluatesEveryTarget : Obligations.BoundaryCommitEvaluatesEveryTarget := by
  intro p tr fn tl hw hfn hentered hexited
  have hwf : (tr.sampleAll p tl).hist.wf := sampleAll_hist_wf tl hw
  rw [commit_of_boundary hfn]
  rw [← sampleAll_entered p tr tl] at hentered ⊢
  rw [← sampleAll_exited p tr tl] at hexited ⊢
  exact ⟨fun id => by rw [evaluateAll_hist]; rfl,
    toNat_evaluateAll_counter (c := .negToPos) (by decide) hwf hentered,
    toNat_evaluateAll_counter (c := .posToNeg) (by decide) hwf hexited,
    evaluateAll_trackFault _⟩

/-! ## The tracker in an INGEST -/

/-- A Frame's tracker is that of its record, since only a commit answers a Frame (R159, R174). -/
theorem State.EndsIn.tracker_of_frame {s t : State} {f : FrameRecord} {ov : Bool} {st : Status}
    (h : s.EndsIn t)
    (ho : t.outcome = some { result := .frame f, overflow := ov, status := st }) :
    t.tracker = s.tracker.afterRecords s.params f := by
  cases h with
  | noData | noSync | truncate => simp at ho
  | commit ov' d =>
    rw [commitFrame_outcome, Option.some.injEq, OutcomeRecord.mk.injEq, Result.frame.injEq] at ho
    obtain ⟨rfl, -, -⟩ := ho
    rw [commitFrame_tracker, afterFrame_eq_afterRecords]

/-- Settles O30: the steps before the commit leave the tracker alone. -/
theorem trackerRunsExactlyOnFramesWithTargets :
    Obligations.TrackerRunsExactlyOnFramesWithTargets := by
  intro s t c f ov st h ho
  obtain ⟨-, -, rfl⟩ := execIngest_next h
  obtain ⟨p, hend⟩ := ingest_endsIn c s
  have htracker : (s.ingest c).tracker = s.tracker.afterRecords s.params f :=
    hend.tracker_of_frame ho
  rw [htracker, Tracker.afterRecords]
  exact ⟨fun hnone => by rw [hnone], fun tl hsome => by rw [hsome]⟩

/-- The targets decoded so far lie within the frame (R68, R135). -/
def FrameDecode.TargetsFit (d : FrameDecode) : Prop :=
  ∀ tl, d.targets = some tl → tl.length ≤ d.frameEnd

/-- A record's effect leaves the targets slot, or fills it with no more targets than the payload has
bytes (R135, R140). -/
theorem kindEffect_targets (mem : Memory) (k : TlvKind) (P m : Nat) (d : FrameDecode) :
    (kindEffect mem k P m d).targets = d.targets ∨
      ∃ tl, (kindEffect mem k P m d).targets = some tl ∧ tl.length ≤ m := by
  cases k with
  | targetIndex | unknown => exact .inl rfl
  | pointCloud =>
    simp only [kindEffect, decodePointCloud]
    split <;> exact .inl rfl
  | targetList =>
    simp only [kindEffect, decodeTargetList]
    split
    · exact .inl rfl
    · exact .inr ⟨_, rfl, (Memory.targetsAt_length ..).trans_le (Nat.div_le_self _ _)⟩

theorem recordAtCursor_targetsFit {mem : Memory} {d d' : FrameDecode}
    (h : recordAtCursor mem d = .ok d') (hfit : d.TargetsFit) : d'.TargetsFit := by
  obtain ⟨effect, hslot, hrec, -⟩ := recordAtCursor_ok_cases h
  obtain ⟨hhdr, -, -, -⟩ := record_ok_frame hslot hrec
  obtain ⟨hsub, -, -, -⟩ := record_ok_iff.mp hrec
  rw [recordAtCursor_eq_record hsub] at h
  obtain ⟨-, -, hend, rfl⟩ := record_ok_iff.mp h
  intro tl htl
  rw [FrameDecode.frameEnd, hhdr, ← FrameDecode.frameEnd]
  obtain hkept | ⟨tl', hfilled, hlen⟩ := kindEffect_targets mem (tlvKind (mem.u32At d.cur))
    (d.cur + Config.tlvHdrLen) ((mem.u32At (d.cur + 4)).toNat - Config.tlvHdrLen) d
  · exact hfit tl (hkept.symm.trans htl)
  · obtain rfl : tl' = tl := Option.some.inj (hfilled.symm.trans htl)
    omega

theorem recordLoop_targetsFit {mem : Memory} {n : Nat} {d d' : FrameDecode}
    (h : recordLoop mem n d = .ok d') (hfit : d.TargetsFit) : d'.TargetsFit := by
  induction n generalizing d with
  | zero => obtain rfl := Except.ok.inj h; exact hfit
  | succ n ih =>
    rw [recordLoop] at h
    split at h
    · cases h
    · rename_i d₁ hrec
      exact ih h (recordAtCursor_targetsFit hrec hfit)

/-- Either nothing was written, or one commit of no more targets than the buffer has bytes (R159). -/
def Tracker.KeptOrCommitted (p : Config.Params) (tr tr' : Tracker) : Prop :=
  tr' = tr ∨ ∃ fn tl, tl.length ≤ Config.cap ∧ tr' = tr.commit p fn tl

section keptOrCommitted
variable (ov : Bool) (s : State)

/-- The record loop starts with the targets slot absent, so its targets fit the frame, and the frame the
buffer (R121, R130). -/
theorem decodeFrame_keptOrCommitted {h : Header}
    (hcap : h.totalPacketLength.toNat ≤ Config.cap) :
    s.tracker.KeptOrCommitted s.params (s.decodeFrame ov h).tracker := by
  obtain ⟨r, -, he⟩ | ⟨d, -, -, -, he⟩ | ⟨d, hloop, -, he⟩ := decodeFrame_cases ov h s <;> rw [he]
  · exact .inl rfl
  · exact .inl rfl
  · have hhdr : d.hdr = h := (recordLoop_ok hloop).1
    have hfit : d.TargetsFit := recordLoop_targetsFit hloop fun _ htl => nomatch htl
    cases htargets : d.targets with
    | none => exact .inl (afterFrame_of_targets_none htargets _ _)
    | some tl =>
      have hlen : tl.length ≤ d.hdr.totalPacketLength.toNat := hfit tl htargets
      exact .inr ⟨_, tl, hlen.trans (hhdr ▸ hcap), afterFrame_of_targets_some htargets _ _⟩

theorem decodeAligned_keptOrCommitted :
    s.tracker.KeptOrCommitted s.params (s.decodeAligned ov).tracker := by
  obtain ⟨-, he⟩ | ⟨-, -, he⟩ | ⟨-, -, -, -, he⟩ | ⟨-, -, hcap, -, he⟩ := decodeAligned_cases ov s <;>
    rw [he]
  · exact .inl rfl
  · exact .inl rfl
  · exact .inl rfl
  · exact decodeFrame_keptOrCommitted ov s ((memRead_totalPacketLength _).trans_le hcap)

theorem ingest_keptOrCommitted (c : List Byte) :
    s.tracker.KeptOrCommitted s.params (s.ingest c).tracker := by
  unfold State.ingest
  obtain ⟨-, he⟩ | ⟨p, -, he⟩ := syncAndDecode_cases (s.fb.overflows c) (s.appendChunk c) <;> rw [he]
  · exact .inl rfl
  · exact decodeAligned_keptOrCommitted _ _

end keptOrCommitted

/-- Below the wrap point a commit lowers no counter: a window evaluation adds at most one for each id
held and each target (R161). -/
theorem counters_le_commit {tr : Tracker} {tl : List Target} (hw : tr.hist.wf)
    (hin : tr.entered.toNat + tr.hist.length + tl.length < 2 ^ 32)
    (hout : tr.exited.toNat + tr.hist.length + tl.length < 2 ^ 32) (p : Config.Params) (fn : U32) :
    tr.entered.toNat ≤ (tr.commit p fn tl).entered.toNat ∧
      tr.exited.toNat ≤ (tr.commit p fn tl).exited.toNat := by
  by_cases hfn : fn.toNat % 20 = 0
  · have hheld (c : Crossing) :
        ((tr.sampleAll p tl).hist.filter fun e => firstCrossing e.2 = c).length ≤
          tr.hist.length + tl.length :=
      (List.length_filter_le _ _).trans (sampleAll_hist_length_le tl hw)
    have hup := hheld .negToPos
    have hdown := hheld .posToNeg
    obtain ⟨-, hentered, hexited, -⟩ :=
      boundaryCommitEvaluatesEveryTarget p tr fn tl hw hfn (by omega) (by omega)
    exact ⟨hentered ▸ Nat.le_add_right _ _, hexited ▸ Nat.le_add_right _ _⟩
  · rw [commit_of_not_boundary hfn, sampleAll_entered, sampleAll_exited]
    exact ⟨Nat.le_refl _, Nat.le_refl _⟩

/-- Settles O44: the one commit an INGEST can make adds no more than the ids held and the targets. -/
theorem countersNeverDecreaseInAnIngest : Obligations.CountersNeverDecreaseInAnIngest := by
  intro s t c hwf h hin hout
  obtain ⟨-, -, rfl⟩ := execIngest_next h
  obtain ⟨-, ⟨hw, -⟩, -⟩ := hwf
  obtain hkept | ⟨fn, tl, hlen, hcommit⟩ := ingest_keptOrCommitted s c
  · rw [hkept]
    exact ⟨Nat.le_refl _, Nat.le_refl _⟩
  · rw [hcommit]
    exact counters_le_commit hw (by omega) (by omega) s.params fn

end Sys2Proof.Machine
end

section
/-! PROOFS. RESET and the step (spec/44_ingest.md R171, R176). What a step does at each stage of an INGEST
is said once; from it follow that the instruction run is the one decoded, that no step and no run of a legal
state stops, and that an INGEST is the run of its internal operations. -/

namespace Sys2Proof.Machine

/-! ## RESET -/

/-- Settles O35: what a RESET writes depends on neither its chunk nor what it overwrites. -/
theorem resetReportsDoneAndIgnoresItsChunk : Obligations.ResetReportsDoneAndIgnoresItsChunk := by
  intro s c c' ht
  exact ⟨s.resetS.noData false .resetDone, execReset_eq ht c, execReset_eq ht c', execReset_eq rfl c',
    rfl, rfl, rfl, rfl⟩

/-! ## The instruction a step runs -/

theorem transactionOfBytes_setWidth (op : BitVec 1) (chunk : List Byte) :
    transactionOfBytes (op.setWidth 8) chunk = { op := op, chunk := chunk } := by
  have hop : (op.setWidth 8).extractLsb' 0 1 = op := by
    revert op
    decide
  rw [transactionOfBytes, hop]

/-- A transaction's bytes decode to it (R73; log 7). -/
theorem decode_transaction_bytes (x : Transaction) :
    decode .host x.bytes = .ok (decodeTransaction x) := by
  obtain ⟨op, chunk⟩ := x
  exact congrArg (Except.ok ∘ decodeTransaction) (transactionOfBytes_setWidth op chunk)

theorem fetchDecoded_of_decode {format : Format} {bytes : List Byte} {i : Instr}
    (h : decode format bytes = .ok i) (s : State) : fetchDecoded format bytes s = .run i s := by
  rw [fetchDecoded, h]

section fetchStage
variable {s : State} {ov : Bool} {i : Instr}

theorem fetchMarker_of_trueSync {p : Nat} (hp : s.fb.trueSync = some p)
    (hi : decode .marker (s.fb.cells.readBytes p Config.markerLen) = .ok i) :
    fetchMarker ov s = .run i s := by
  rw [fetchMarker, hp]
  exact fetchDecoded_of_decode hi s

theorem fetchHeader_of_complete (hlen : Config.hdrLen ≤ s.fb.len)
    (hi : decode .header (s.fb.cells.readBytes 0 Config.hdrLen) = .ok i) :
    fetchHeader ov s = .run i s := by
  rw [fetchHeader, if_neg (Nat.not_lt.mpr hlen)]
  exact fetchDecoded_of_decode hi s

theorem fetchRecord_of_subHeader {d : FrameDecode} (hl : d.left ≠ 0)
    (hend : d.cur + Config.tlvHdrLen ≤ d.frameEnd) (hcap : d.cur + Config.tlvHdrLen ≤ Config.cap)
    (hi : decode .record (s.fb.cells.readBytes d.cur Config.tlvHdrLen) = .ok i) :
    fetchRecord ov d s = .run i s := by
  rw [fetchRecord, if_neg hl, if_neg (Nat.not_lt.mpr hend), if_neg (Nat.not_lt.mpr hcap)]
  exact fetchDecoded_of_decode hi s

end fetchStage

/-- Settles O47: each place of the fetch decodes the bytes found there and hands on what they are. -/
theorem stepRunsTheDecodedInstruction : Obligations.StepRunsTheDecodedInstruction := by
  refine ⟨fun s x rest i ht hp hi => ?queue, fun s ov p i ht hc hp hleast hi => ?seek,
    fun s ov i ht hc hlen hi => ?header, fun s ov d i ht hc hl hend hcap hi => ?records⟩
  case queue =>
    obtain rfl : decodeTransaction x = i := Except.ok.inj ((decode_transaction_bytes x).symm.trans hi)
    exact step_of_fetch_run (fetch_of_pending ht hp)
  case seek =>
    have htrue : s.fb.trueSync = some p := trueSync_eq_some_iff_least.mpr ⟨hp, hleast⟩
    exact step_of_fetch_run ((fetch_of_stage ht hc).trans (fetchMarker_of_trueSync htrue hi))
  case header =>
    exact step_of_fetch_run ((fetch_of_stage ht hc).trans (fetchHeader_of_complete hlen hi))
  case records =>
    exact step_of_fetch_run
      ((fetch_of_stage ht hc).trans (fetchRecord_of_subHeader hl hend hcap hi))

/-! ## What a step does at each stage of an INGEST -/

section stage
variable {s : State} {ov : Bool}

/-- At the sync search a step aligns where a marker is held and trims where none is (R104 to R106). -/
theorem step_of_seek (ht : s.txn = some { overflow := ov, stage := .seek })
    (hc : s.fb.len ≤ Config.cap) :
    (s.fb.trueSync = none → step s = .next (s.noSync ov)) ∧
    ∀ p, s.fb.trueSync = some p →
      step s =
        .next { s with
          fb := s.fb.discardBefore p
          txn := some { overflow := ov, stage := .header } } := by
  refine ⟨fun hnone => ?_, fun p hp => ?_⟩
  · refine step_of_fetch_settle ((fetch_of_stage ht hc).trans ?_)
    rw [fetchStage, fetchMarker, hnone]
  · have hmarker := decode_marker_of_syncAt (trueSync_eq_some_iff.mp hp).1
    rw [step_of_fetch_run ((fetch_of_stage ht hc).trans (fetchMarker_of_trueSync hp hmarker))]
    exact (execSyncMarker_eq ht hc).2 p hp

/-- At the header a step ends the INGEST by the check that fails, or starts the record loop with the
header at index 0 (R120 to R122, R107). -/
theorem step_of_header (ht : s.txn = some { overflow := ov, stage := .header })
    (hc : s.fb.len ≤ Config.cap) (hsync : s.fb.syncAt 0 = true) :
    (∀ r, s.fb.headerCheck s.fb.cells.headerAt.totalPacketLength.toNat = some r →
      step s = .next (s.endWith ov r)) ∧
    (s.fb.headerCheck s.fb.cells.headerAt.totalPacketLength.toNat = none →
      step s =
        .next { s with
          txn := some { overflow := ov, stage := .records (.start s.fb.cells.headerAt) } }) := by
  by_cases hlen : s.fb.len < Config.hdrLen
  · rw [headerCheck_of_len_lt hlen]
    refine ⟨fun r hr => ?_, fun h => nomatch h⟩
    obtain rfl := Option.some.inj hr
    exact step_of_fetch_settle ((fetch_of_stage ht hc).trans (if_pos hlen))
  · rw [step_of_fetch_run ((fetch_of_stage ht hc).trans
      (fetchHeader_of_complete (Nat.not_lt.mp hlen) (decode_header_of_syncAt hsync)))]
    exact execFrameHeader_eq ht hc s.fb.cells.headerAt

/-- The record instruction of a type has the effect of the type's kind (R66). -/
theorem exec_recordInstr (type L : U32) (s : State) :
    exec (recordInstr type L) s =
      s.runRecord fun d => d.record L (kindEffect s.fb.cells (tlvKind type)) := by
  unfold recordInstr
  cases tlvKind type with
  | pointCloud => rfl
  | targetList => rfl
  | targetIndex => rfl
  | unknown => rfl

/-- With an iteration left a step runs the record at the cursor, which a frame within the capacity keeps
within it (R130, R27). -/
theorem step_of_records {d : FrameDecode}
    (ht : s.txn = some { overflow := ov, stage := .records d }) (hc : s.fb.len ≤ Config.cap)
    (hl : d.left ≠ 0) (hcap : d.frameEnd ≤ Config.cap) :
    (∀ r, recordAtCursor s.fb.cells d = .error r → step s = .next (s.truncate ov r)) ∧
    ∀ d', recordAtCursor s.fb.cells d = .ok d' →
      step s = .next { s with txn := some { overflow := ov, stage := .records d' } } := by
  by_cases hend : d.cur + Config.tlvHdrLen ≤ d.frameEnd
  · have hfetch := fetchRecord_of_subHeader (ov := ov) hl hend (hend.trans hcap)
      (decode_record_at s.fb.cells d.cur)
    rw [step_of_fetch_run ((fetch_of_stage ht hc).trans hfetch), exec_recordInstr,
      runRecord_eq ht hl hc, recordAtCursor_eq_record hend]
    refine ⟨fun r hr => by rw [hr], fun d' hd' => ?_⟩
    obtain ⟨-, -, hpast, hd⟩ := record_ok_iff.mp hd'
    have hcur : d'.cur ≤ Config.cap := by rw [hd]; exact hpast.trans hcap
    rw [hd']
    exact if_neg (Nat.not_lt.mpr hcur)
  · rw [recordAtCursor_short (Nat.lt_of_not_le hend)]
    refine ⟨fun r hr => ?_, fun d' hd' => nomatch hd'⟩
    obtain rfl := Except.error.inj hr
    refine step_of_fetch_settle ((fetch_of_stage ht hc).trans ?_)
    rw [fetchStage, fetchRecord, if_neg hl, if_pos (Nat.lt_of_not_le hend)]

end stage

/-! ## No step of a legal state stops -/

/-- Between transactions every instruction of the host's completes (R175, R176). -/
theorem exec_decodeTransaction_completes {s : State} (ht : s.txn = none) (hc : s.fb.len ≤ Config.cap)
    (x : Transaction) : ∃ t, exec (decodeTransaction x) s = .next t := by
  unfold decodeTransaction
  split
  · exact ⟨_, execIngest_eq ht hc x.chunk⟩
  · exact ⟨_, execReset_eq ht x.chunk⟩

/-- Settles O51, by cases on the stage: a legal state has the marker at index 0 where a header is read,
and the frame within the buffer where a record is. -/
theorem noStepOfALegalStateStops : Obligations.NoStepOfALegalStateStops := by
  rintro s ⟨⟨-, hc, -⟩, -, hstage⟩
  obtain ht | ⟨⟨ov, stage⟩, ht⟩ := Option.eq_none_or_eq_some s.txn
  · cases hp : s.pending with
    | nil => exact ⟨s, step_of_fetch_settle (fetch_of_idle ht hp)⟩
    | cons x rest =>
      rw [step_of_fetch_run (fetch_of_pending ht hp)]
      exact exec_decodeTransaction_completes (s := { s with pending := rest }) ht hc x
  · have hwf := hstage _ ht
    cases stage with
    | seek =>
      cases hp : s.fb.trueSync with
      | none => exact ⟨_, (step_of_seek ht hc).1 hp⟩
      | some p => exact ⟨_, (step_of_seek ht hc).2 p hp⟩
    | header =>
      cases hcheck : s.fb.headerCheck s.fb.cells.headerAt.totalPacketLength.toNat with
      | none => exact ⟨_, (step_of_header ht hc hwf).2 hcheck⟩
      | some r => exact ⟨_, (step_of_header ht hc hwf).1 r hcheck⟩
    | records d =>
      obtain ⟨-, -, -, -, hT, -⟩ := hwf
      by_cases hl : d.left = 0
      · exact ⟨_, step_of_no_record_left ht hc hl⟩
      · cases hrec : recordAtCursor s.fb.cells d with
        | error r => exact ⟨_, (step_of_records ht hc hl (hT.trans hc)).1 r hrec⟩
        | ok d' => exact ⟨_, (step_of_records ht hc hl (hT.trans hc)).2 d' hrec⟩

/-! ## Runs -/

/-- A step and a run from where it leads are a run. -/
theorem run_succ_of_step {k : Nat} {s t : State} {o : Host.Outcome State Fault Refusal}
    (h : step s = .next t) (hrun : core.run k t = o) : core.run (k + 1) s = o := by
  have hstep : core.step s = .next t := h
  simp only [Host.Core.run, hstep]
  exact hrun

/-- Settles O54, by induction on the steps: each one happens and leaves a legal state. -/
theorem runsOfLegalStatesNeverStop : Obligations.RunsOfLegalStatesNeverStop := by
  intro k
  induction k with
  | zero => exact fun s hwf => ⟨s, rfl, hwf⟩
  | succ k ih =>
    intro s hwf
    obtain ⟨u, hu⟩ := noStepOfALegalStateStops s hwf
    obtain ⟨t, hrun, ht⟩ := ih u (everyStepKeepsLegalStates s u hwf hu)
    exact ⟨t, run_succ_of_step hu hrun, ht⟩

/-! ## An INGEST, one internal operation at a time -/

/-- The record loop from a decode in progress, with its end: steps 4 and 5 of R171 from there on. -/
def State.decodeFrom (ov : Bool) (d : FrameDecode) (s : State) : State :=
  match recordLoop s.fb.cells d.left d with
  | .error r => s.truncate ov r
  | .ok d' => s.closeFrame ov d'

theorem decodeFrom_start (ov : Bool) (h : Header) (s : State) :
    s.decodeFrom ov (.start h) = s.decodeFrame ov h := rfl

section decodeFrom
variable {s : State} {d : FrameDecode}

theorem decodeFrom_of_left_zero (hl : d.left = 0) (ov : Bool) :
    s.decodeFrom ov d = s.closeFrame ov d := by
  rw [State.decodeFrom, hl, recordLoop]

theorem decodeFrom_of_error (hl : d.left ≠ 0) {r : TruncReason}
    (hrec : recordAtCursor s.fb.cells d = .error r) (ov : Bool) :
    s.decodeFrom ov d = s.truncate ov r := by
  obtain ⟨n, hn⟩ := Nat.exists_eq_succ_of_ne_zero hl
  rw [State.decodeFrom, hn, recordLoop, hrec]

theorem decodeFrom_of_ok (hl : d.left ≠ 0) {d' : FrameDecode} (hleft : d'.left = d.left - 1)
    (hrec : recordAtCursor s.fb.cells d = .ok d') (ov : Bool) :
    s.decodeFrom ov d = s.decodeFrom ov d' := by
  obtain ⟨n, hn⟩ := Nat.exists_eq_succ_of_ne_zero hl
  have hleft' : d'.left = n := by omega
  rw [State.decodeFrom, hn, recordLoop, hrec, State.decodeFrom, hleft']

end decodeFrom

section operations
variable (ov : Bool) {s : State}

/-- The record steps run the record loop, by induction on the iterations left (R130). -/
theorem exists_run_records (hc : s.fb.len ≤ Config.cap) {n : Nat} {d : FrameDecode}
    (hn : d.left = n) (hcap : d.frameEnd ≤ Config.cap) :
    ∃ k, core.run k { s with txn := some { overflow := ov, stage := .records d } } =
      .next (s.decodeFrom ov d) := by
  induction n generalizing d with
  | zero =>
    rw [decodeFrom_of_left_zero hn]
    exact ⟨1, run_succ_of_step (step_of_no_record_left rfl hc hn) rfl⟩
  | succ n ih =>
    have hl : d.left ≠ 0 := by omega
    obtain ⟨herror, hok⟩ := step_of_records
      (s := { s with txn := some { overflow := ov, stage := .records d } }) rfl hc hl hcap
    cases hrec : recordAtCursor s.fb.cells d with
    | error r =>
      rw [decodeFrom_of_error hl hrec]
      exact ⟨1, run_succ_of_step (herror r hrec) rfl⟩
    | ok d' =>
      obtain ⟨effect, hslot, hr, -⟩ := recordAtCursor_ok_cases hrec
      obtain ⟨hhdr, -, hleft, -⟩ := record_ok_frame hslot hr
      have hcap' : d'.frameEnd ≤ Config.cap := by rwa [FrameDecode.frameEnd, hhdr]
      obtain ⟨k, hk⟩ := ih (d := d') (by omega) hcap'
      rw [decodeFrom_of_ok hl hleft hrec]
      exact ⟨k + 1, run_succ_of_step (hok d' hrec) hk⟩

theorem exists_run_header (hc : s.fb.len ≤ Config.cap) (hsync : s.fb.syncAt 0 = true) :
    ∃ k, core.run k { s with txn := some { overflow := ov, stage := .header } } =
      .next (s.decodeAligned ov) := by
  obtain ⟨hends, hstarts⟩ := step_of_header
    (s := { s with txn := some { overflow := ov, stage := .header } }) rfl hc hsync
  rw [State.decodeAligned, ← memRead_totalPacketLength]
  cases hcheck : s.fb.headerCheck s.fb.cells.headerAt.totalPacketLength.toNat with
  | some r =>
    have hsame : State.endWith ov r { s with txn := some { overflow := ov, stage := .header } } =
        s.endWith ov r := by cases r <;> rfl
    exact ⟨1, run_succ_of_step (hends r hcheck) (congrArg _ hsame)⟩
  | none =>
    obtain ⟨-, -, hcap, -⟩ := headerCheck_eq_none_iff.mp hcheck
    obtain ⟨k, hk⟩ := exists_run_records ov hc (d := .start s.fb.cells.headerAt) rfl hcap
    rw [decodeFrom_start] at hk
    exact ⟨k + 1, run_succ_of_step (hstarts hcheck) hk⟩

theorem exists_run_seek (hc : s.fb.len ≤ Config.cap) :
    ∃ k, core.run k { s with txn := some { overflow := ov, stage := .seek } } =
      .next (s.syncAndDecode ov) := by
  obtain ⟨htrims, haligns⟩ := step_of_seek
    (s := { s with txn := some { overflow := ov, stage := .seek } }) rfl hc
  obtain ⟨hp, he⟩ | ⟨p, hp, he⟩ := syncAndDecode_cases ov s <;> rw [he]
  · exact ⟨1, run_succ_of_step (htrims hp) rfl⟩
  · obtain ⟨k, hk⟩ := exists_run_header (s := { s with fb := s.fb.discardBefore p }) ov
      ((Nat.sub_le _ _).trans hc) (syncAt_zero_of_trueSync hp)
    exact ⟨k + 1, run_succ_of_step (haligns p hp) hk⟩

end operations

/-- Settles O33: the run of the internal operations, stage after stage. -/
theorem ingestIsItsInternalOperationsInOrder : Obligations.IngestIsItsInternalOperationsInOrder := by
  intro s t c _ _ h
  obtain ⟨-, hc, rfl⟩ := execIngest_next h
  exact exists_run_seek (s := s.appendChunk c) (s.fb.overflows c) (append_len_le hc c)

end Sys2Proof.Machine
end

section
/-! PROOFS. INGEST (spec/44_ingest.md R171 to R179): how its sequence ends, and that what it answers depends
on the bytes held and not on how they came there. `FrameBuffer.Holds` says which bytes a buffer holds and
determines it, so the overflow, garbage and fragmentation rules compare byte sequences only. -/

namespace Sys2Proof.Machine

/-! ## How an INGEST ends -/

/-- From the header on an INGEST ends as one of two NoData outcomes, as Truncated or as Frame (R171). -/
theorem decodeAligned_end_cases (ov : Bool) (s : State) :
    (∃ r, r ≠ .noSync ∧ r ≠ .resetDone ∧ s.decodeAligned ov = s.noData ov r) ∨
    (∃ r, s.decodeAligned ov = s.truncate ov r) ∨
    ∃ d, s.decodeAligned ov = s.commitFrame ov d := by
  obtain ⟨-, he⟩ | ⟨-, -, he⟩ | ⟨-, -, -, -, he⟩ | ⟨-, -, -, -, he⟩ :=
    decodeAligned_cases ov s
  · exact .inl ⟨.incompleteHeader, by decide, by decide, he⟩
  · exact .inr (.inl ⟨_, he⟩)
  · exact .inl ⟨.incompleteFrame, by decide, by decide, he⟩
  · obtain ⟨r, -, hr⟩ | ⟨d, -, -, -, hd⟩ | ⟨d, -, -, hd⟩ :=
      decodeFrame_cases ov s.fb.cells.headerAt s
    · exact .inr (.inl ⟨r, he.trans hr⟩)
    · exact .inr (.inl ⟨_, he.trans hd⟩)
    · exact .inr (.inr ⟨d, he.trans hd⟩)

/-- The outcome record of an INGEST carries its flag and no reason of a RESET (R171). -/
theorem syncAndDecode_outcome (ov : Bool) (s : State) :
    ∃ o, (s.syncAndDecode ov).outcome = some o ∧ o.overflow = ov ∧ o.result ≠ .noData .resetDone := by
  obtain ⟨-, he⟩ | ⟨p, -, he⟩ := syncAndDecode_cases ov s <;> rw [he]
  · exact ⟨_, rfl, rfl, (nomatch ·)⟩
  · obtain ⟨r, -, hr, he⟩ | ⟨r, he⟩ | ⟨d, he⟩ :=
      decodeAligned_end_cases ov { s with fb := s.fb.discardBefore p } <;> rw [he]
    · exact ⟨_, rfl, rfl, fun h => hr (Result.noData.inj h)⟩
    · exact ⟨_, rfl, rfl, (nomatch ·)⟩
    · exact ⟨_, rfl, rfl, (nomatch ·)⟩

/-- Settles O22: every end of the sequence writes one record and leaves no transient value. -/
theorem ingestCompletesWithOneOutcome : Obligations.IngestCompletesWithOneOutcome := by
  intro s c ht hc
  have hexec := execIngest_eq ht hc c
  obtain ⟨p, hend⟩ := ingest_endsIn c s
  obtain ⟨o, ho, hov, hresult⟩ := syncAndDecode_outcome (s.fb.overflows c) (s.appendChunk c)
  obtain ⟨o', ho', hstatus⟩ := hend.outcome
  obtain rfl : o = o' := Option.some.inj (ho.symm.trans ho')
  exact ⟨s.ingest c, o, hexec, hend.txn, ho, by rw [hov, overflows_iff], hresult, hstatus,
    exec_len_le hexec hc, hend.params, hend.pending⟩

/-- Settles O27: a NoData is a trim or an alignment of the bytes held and the chunk, so one discard. -/
theorem noDataOnlyAppendsAndAligns : Obligations.NoDataOnlyAppendsAndAligns := by
  intro s t c r ov st hwf h ho
  obtain ⟨-, -, rfl⟩ := execIngest_next h
  have happ := append_wf hwf c
  unfold State.ingest at ho ⊢
  obtain ⟨-, he⟩ | ⟨p, hp, he⟩ := syncAndDecode_cases (s.fb.overflows c) (s.appendChunk c) <;>
    rw [he] at ho ⊢
  · obtain ⟨rfl, -, -⟩ : NoDataReason.noSync = r ∧ _ := by simpa using ho
    have hk := Nat.sub_le (s.fb.append c).len Config.trimKeep
    obtain ⟨hmoved, -, -, hlen⟩ := compactionMovesDownAndZeroFills (s.fb.append c) _ hk
    rw [← trim_eq_discardBefore] at hmoved hlen
    rw [← hlen] at hmoved
    exact ⟨rfl, trim_wf happ, _, hk, hlen, hmoved,
      fun _ => (trim_len _).trans_le (Nat.min_le_right _ _), fun hne => absurd rfl hne⟩
  · obtain ⟨r', hne, -, he⟩ | ⟨r', he⟩ | ⟨d, he⟩ := decodeAligned_end_cases (s.fb.overflows c)
      { s.appendChunk c with fb := (s.fb.append c).discardBefore p } <;>
      rw [appendChunk_fb, he] at ho ⊢
    · obtain ⟨rfl, -, -⟩ : r' = r ∧ _ := by simpa using ho
      have hk : p ≤ (s.fb.append c).len := Nat.le_of_add_right_le (trueSync_le hp)
      obtain ⟨hmoved, -, -, hlen⟩ := compactionMovesDownAndZeroFills (s.fb.append c) p hk
      have hmarker := (syncAt_iff_read.mp (syncAt_zero_of_trueSync hp)).2
      simp only [Nat.zero_add] at hmarker
      exact ⟨rfl, wf_discardBefore happ p, p, hk, hlen, hmoved, fun hno => absurd hno hne,
        fun _ => hmarker⟩
    · simp at ho
    · simp [commitFrame_outcome] at ho

/-! ## The overflow flag -/

/-- The same state, its last record with this overflow flag. -/
def State.withOverflow (ov : Bool) (s : State) : State :=
  { s with outcome := s.outcome.map fun o => o.withOverflow ov }

section withOverflow
variable (ov ov' : Bool) (s : State)

theorem closeFrame_withOverflow (d : FrameDecode) :
    (s.closeFrame ov d).withOverflow ov' = s.closeFrame ov' d := by
  unfold State.closeFrame
  split
  · rfl
  · rfl

theorem decodeFrame_withOverflow (h : Header) :
    (s.decodeFrame ov h).withOverflow ov' = s.decodeFrame ov' h := by
  unfold State.decodeFrame
  cases recordLoop s.fb.cells h.numTlvs.toNat (.start h) with
  | error r => rfl
  | ok d => exact closeFrame_withOverflow ov ov' s d

theorem decodeAligned_withOverflow :
    (s.decodeAligned ov).withOverflow ov' = s.decodeAligned ov' := by
  unfold State.decodeAligned
  cases s.fb.headerCheck (s.fb.cells.memRead 20 4) with
  | none => exact decodeFrame_withOverflow ov ov' s _
  | some r => cases r <;> rfl

/-- The sequence after the append passes its flag to the record and uses it nowhere else (R171). -/
theorem syncAndDecode_withOverflow :
    (s.syncAndDecode ov).withOverflow ov' = s.syncAndDecode ov' := by
  unfold State.syncAndDecode
  cases s.fb.trueSync with
  | none => rfl
  | some p => exact decodeAligned_withOverflow ov ov' _

end withOverflow

/-! ## The bytes a buffer holds -/

/-- A legal buffer with these bytes and no other. -/
structure FrameBuffer.Holds (fb : FrameBuffer) (bs : List Byte) : Prop where
  wf : fb.wf
  len_eq : fb.len = bs.length
  read_eq : ∀ i, fb.cells.read i = bs.getD i 0

/-- A legal buffer is determined by its bytes (R23). -/
theorem FrameBuffer.Holds.unique {fb fb' : FrameBuffer} {bs : List Byte} (h : fb.Holds bs)
    (h' : fb'.Holds bs) : fb = fb' := by
  have hcells : fb.cells = fb'.cells :=
    Memory.ext_of_read h.wf.1 h'.wf.1 fun i => (h.read_eq i).trans (h'.read_eq i).symm
  have hlen : fb.len = fb'.len := h.len_eq.trans h'.len_eq.symm
  cases fb
  cases fb'
  congr

theorem holds_nil {fb : FrameBuffer} (h : fb.wf) (hl : fb.len = 0) : fb.Holds [] :=
  ⟨h, hl, fun _ => read_of_len_le h (hl.trans_le (Nat.zero_le _))⟩

theorem holds_readBytes {fb : FrameBuffer} (h : fb.wf) :
    fb.Holds (fb.cells.readBytes 0 fb.len) := by
  refine ⟨h, by simp, fun i => ?_⟩
  by_cases hi : i < fb.len
  · have hi' : i < (fb.cells.readBytes 0 fb.len).length := by simpa using hi
    rw [List.getD_eq_getElem _ _ hi', Memory.getElem_readBytes, Nat.zero_add]
  · rw [read_of_len_le h (Nat.not_lt.mp hi), List.getD_eq_default _ _ (by simpa using hi)]

section holds
variable {fb : FrameBuffer} {bs : List Byte}

theorem FrameBuffer.Holds.overflows_eq_false (h : fb.Holds bs) {c : List Byte}
    (hc : (bs ++ c).length ≤ Config.cap) : fb.overflows c = false :=
  overflows_eq_false_iff.mpr (by rwa [h.len_eq, ← List.length_append])

/-- A chunk that fits goes behind the bytes held (R100). -/
theorem FrameBuffer.Holds.append (h : fb.Holds bs) {c : List Byte}
    (hc : (bs ++ c).length ≤ Config.cap) : (fb.append c).Holds (bs ++ c) := by
  have hlen := h.len_eq
  have hfits := h.overflows_eq_false hc
  refine ⟨append_wf h.wf c, ?_, fun i => ?_⟩
  · rw [append_of_fits hfits, List.length_append, hlen]
  · rw [append_of_fits hfits, Memory.read_writeBytes, hlen, h.read_eq]
    by_cases hi : i < bs.length
    · rw [if_neg (by omega), List.getD_append _ _ _ _ hi]
    · rw [List.getD_append_right _ _ _ _ (Nat.not_lt.mp hi), unlistedByte]
      split
      · rfl
      · rw [List.getD_eq_default _ _ (Nat.not_lt.mp hi), List.getD_eq_default _ _ (by omega)]

/-- A discard of the first bytes leaves the others (R103). -/
theorem FrameBuffer.Holds.discardBefore {g f : List Byte} (h : fb.Holds (g ++ f)) :
    (fb.discardBefore g.length).Holds f := by
  have hlen := h.len_eq
  rw [List.length_append] at hlen
  refine ⟨wf_discardBefore h.wf _, by rw [discardBefore_len]; omega, fun i => ?_⟩
  by_cases hi : i < f.length
  · rw [discardBefore_read (by omega), if_pos (by omega), h.read_eq,
      List.getD_append_right _ _ _ _ (Nat.le_add_left _ _), Nat.add_sub_cancel]
  · rw [List.getD_eq_default _ _ (Nat.not_lt.mp hi)]
    exact read_of_len_le (wf_discardBefore h.wf _) (by rw [discardBefore_len]; omega)

/-- A block of the buffer is that part of the bytes held (R12). -/
theorem FrameBuffer.Holds.readBytes (h : fb.Holds bs) {a n : Nat} (han : a + n ≤ bs.length) :
    fb.cells.readBytes a n = slice bs a n := by
  refine List.ext_getElem (by rw [Memory.readBytes_length, slice_length han]) fun k hk _ => ?_
  rw [Memory.readBytes_length] at hk
  rw [Memory.getElem_readBytes, h.read_eq, List.getD_eq_getElem _ _ (by omega)]
  simp [slice]

/-- The valid sync offsets of the bytes held (R104). -/
theorem FrameBuffer.Holds.syncAt_iff (h : fb.Holds bs) {p : Nat} :
    fb.syncAt p = true ↔ slice bs p 8 = Config.marker := by
  rw [Machine.syncAt_iff, h.len_eq]
  constructor
  · rintro ⟨hp, hm⟩
    rwa [h.readBytes hp] at hm
  · intro hm
    have hp : p + Config.markerLen ≤ bs.length := by
      have hlen := congrArg List.length hm
      simp only [slice, List.length_take, List.length_drop, Config.marker, List.length_cons,
        List.length_nil] at hlen
      rw [Config.markerLen]
      omega
    exact ⟨hp, (h.readBytes hp).trans hm⟩

end holds

/-- Settles O26: both append nothing, and the flag goes into the record only. -/
theorem overflowingIngestIsAnEmptyIngest : Obligations.OverflowingIngestIsAnEmptyIngest := by
  intro s t c hwf hover h
  obtain ⟨ht, hc, rfl⟩ := execIngest_next h
  have hov : s.fb.overflows c = true := overflows_iff.mpr hover
  have hnil : s.fb.append [] = s.fb := by
    have hheld := holds_readBytes hwf
    refine FrameBuffer.Holds.unique ?_ hheld
    simpa using hheld.append (c := []) (by simpa using hc)
  have hempty : s.ingest [] = s.syncAndDecode (s.fb.overflows []) := by
    rw [State.ingest, State.appendChunk, hnil]
  have hfull : s.ingest c = s.syncAndDecode true := by
    rw [State.ingest, State.appendChunk, append_of_overflows hov, hov]
  rw [execIngest_eq ht hc, hfull, hempty]
  exact congrArg _ (syncAndDecode_withOverflow _ true s).symm

/-! ## Garbage in front of a frame -/

/-- With the whole garbage in front dropped, what is decoded is what stands behind it (R106). -/
theorem syncAndDecode_of_garbage {s : State} {fb : FrameBuffer} {g f : List Byte}
    (hgf : s.fb.Holds (g ++ f)) (hf : fb.Holds f) (hm : f.take 8 = Config.marker)
    (hg : ∀ p < g.length, slice (g ++ f) p 8 ≠ Config.marker) (ov : Bool) :
    s.syncAndDecode ov = State.decodeAligned ov { s with fb := fb } := by
  have hfirst : slice (g ++ f) g.length 8 = Config.marker := by simpa [slice] using hm
  have htrue : s.fb.trueSync = some g.length :=
    trueSync_eq_some_iff.mpr ⟨hgf.syncAt_iff.mpr hfirst, fun q hq =>
      Bool.eq_false_iff.mpr (hg q hq ∘ hgf.syncAt_iff.mp)⟩
  rw [State.syncAndDecode, htrue, hf.unique hgf.discardBefore]

/-- Settles O25: with garbage in front or without, the frame alone is aligned to index 0. -/
theorem garbageBeforeAFrameIsDropped : Obligations.GarbageBeforeAFrameIsDropped := by
  rintro s t g f ⟨hwf, -, -⟩ _ hl hm _ hfit _ hg h _
  obtain ⟨ht, hc, rfl⟩ := execIngest_next h
  have hempty := holds_nil hwf hl
  have hfit' : f.length ≤ Config.cap := by
    rw [List.length_append] at hfit
    omega
  have hf : (s.fb.append f).Holds f := hempty.append hfit'
  have hgf : (s.fb.append (g ++ f)).Holds (g ++ f) := hempty.append hfit
  rw [execIngest_eq ht hc, State.ingest, State.ingest, hempty.overflows_eq_false hfit',
    hempty.overflows_eq_false (c := g ++ f) hfit,
    syncAndDecode_of_garbage (s := s.appendChunk (g ++ f)) hgf hf hm hg,
    syncAndDecode_of_garbage (s := s.appendChunk f) (g := []) hf hf hm (by simp)]
  rfl

/-! ## A frame in chunks -/

/-- A byte sequence that begins with the marker and is as long as its declared length says (R177). -/
structure WholeFrame (f : List Byte) : Prop where
  marker : f.take 8 = Config.marker
  complete : Config.hdrLen ≤ f.length
  fits : f.length ≤ Config.cap
  declared : leNat (slice f 20 4) = f.length

/-- The first bytes of a whole frame, with at least one byte still to come. -/
def FramePart (g : List Byte) : Prop := ∃ tail, tail ≠ [] ∧ WholeFrame (g ++ tail)

theorem FramePart.of_append {g c : List Byte} (h : FramePart (g ++ c)) : FramePart g := by
  obtain ⟨tail, hne, hf⟩ := h
  exact ⟨c ++ tail, by simp [hne], by rwa [← List.append_assoc]⟩

theorem FramePart.length_le {g : List Byte} (h : FramePart g) : g.length ≤ Config.cap := by
  obtain ⟨tail, -, hf⟩ := h
  have hfits := hf.fits
  rw [List.length_append] at hfits
  omega

theorem slice_append_left {g : List Byte} {o n : Nat} (h : o + n ≤ g.length) (tail : List Byte) :
    slice (g ++ tail) o n = slice g o n := by
  rw [slice, slice, List.drop_append_of_le_length (by omega),
    List.take_append_of_le_length (by rw [List.length_drop]; omega)]

/-- Fewer bytes than a marker hold no valid sync offset and are not trimmed (R104, R105). -/
theorem syncAndDecode_of_short {s : State} (h : s.fb.len < 8) (ov : Bool) :
    s.syncAndDecode ov = s.noData ov .noSync := by
  have hnone : s.fb.trueSync = none := trueSync_eq_none_iff.mpr fun p =>
    Bool.eq_false_iff.mpr fun hp => by have := (syncAt_iff_read.mp hp).1; omega
  have htrim : s.fb.trim = s.fb := if_neg (Nat.not_lt.mpr (Nat.le_of_lt_succ h))
  rw [State.syncAndDecode, hnone, State.noSync, htrim]

/-- A part of a frame ends the INGEST as NoData and loses no byte: without a whole marker nothing is
found, and from the marker on the header or the frame is incomplete (R105, R107, R122). -/
theorem syncAndDecode_of_framePart {s : State} {g : List Byte} (hg : s.fb.Holds g)
    (hpart : FramePart g) (ov : Bool) : ∃ r, s.syncAndDecode ov = s.noData ov r := by
  obtain ⟨tail, hne, hf⟩ := hpart
  have hlen := hg.len_eq
  by_cases hshort : s.fb.len < 8
  · exact ⟨_, syncAndDecode_of_short hshort ov⟩
  · have hmarker : slice g 0 8 = Config.marker := by
      rw [← slice_append_left (by omega) tail, slice_zero, hf.marker]
    rw [syncAndDecode_of_syncAt_zero (hg.syncAt_iff.mpr hmarker)]
    have hT : Config.hdrLen ≤ s.fb.len → s.fb.cells.memRead 20 4 = (g ++ tail).length := by
      intro hhdr
      rw [Config.hdrLen] at hhdr
      rw [Memory.memRead, hg.readBytes (by omega), ← slice_append_left (by omega) tail, hf.declared]
    have hmore : g.length < (g ++ tail).length := by
      rw [List.length_append]
      exact Nat.lt_add_of_pos_right (List.length_pos_of_ne_nil hne)
    have hmin := hf.complete
    have hmax := hf.fits
    obtain ⟨-, he⟩ | ⟨hhdr, hillegal, -⟩ | ⟨-, -, -, -, he⟩ | ⟨hhdr, -, -, hready, -⟩ :=
      decodeAligned_cases ov s
    · exact ⟨_, he⟩
    · rw [hT hhdr] at hillegal
      omega
    · exact ⟨_, he⟩
    · rw [hT hhdr] at hready
      omega

theorem presentChunks_singleton (c : List Byte) (s : State) :
    presentChunks [c] s = exec (.ingest c) s := by
  unfold presentChunks
  cases exec (.ingest c) s <;> rfl

/-- The chunk after a run of chunks is an INGEST in the state they lead to. -/
theorem presentChunks_concat {cs : List (List Byte)} {s u : State}
    (h : presentChunks cs s = .next u) (c : List Byte) :
    presentChunks (cs ++ [c]) s = exec (.ingest c) u := by
  induction cs generalizing s with
  | nil =>
    obtain rfl : s = u := Host.Outcome.next.inj h
    exact presentChunks_singleton c s
  | cons d cs ih =>
    cases hd : exec (.ingest d) s with
    | next t =>
      simp only [List.cons_append, presentChunks, hd] at h ⊢
      exact ih h
    | fault r => simp [presentChunks, hd] at h
    | refused r => simp [presentChunks, hd] at h

/-- The sequence after the append reads neither the last record nor what a transaction before left in
progress (R31). -/
theorem syncAndDecode_transient (ov : Bool) (s : State) (x : Option Txn) (o : Option OutcomeRecord) :
    State.syncAndDecode ov { s with txn := x, outcome := o } = s.syncAndDecode ov := rfl

section chunks
variable {s : State} (ht : s.txn = none) (hempty : s.fb.Holds [])
include ht hempty

/-- The part of a frame as the first chunk is kept whole (R173). -/
theorem exec_ingest_framePart {g : List Byte} (hpart : FramePart g) :
    ∃ r, exec (.ingest g) s = .next ((s.appendChunk g).noData false r) := by
  have hg : (s.fb.append g).Holds g := hempty.append hpart.length_le
  obtain ⟨r, hr⟩ := syncAndDecode_of_framePart (s := s.appendChunk g) hg hpart false
  refine ⟨r, ?_⟩
  rw [execIngest_eq ht hempty.wf.2.1, State.ingest, hempty.overflows_eq_false hpart.length_le, hr]

/-- An INGEST sees the bytes held and not the chunks they came in: after a NoData that kept `g`, a chunk
does what `g` and the chunk do together. -/
theorem exec_ingest_after_kept {g c : List Byte} (hfit : (g ++ c).length ≤ Config.cap)
    (r : NoDataReason) :
    exec (.ingest c) ((s.appendChunk g).noData false r) = exec (.ingest (g ++ c)) s := by
  have hfit' : g.length ≤ Config.cap := by
    rw [List.length_append] at hfit
    omega
  have hg : (s.fb.append g).Holds g := hempty.append hfit'
  have hbuf : (s.fb.append g).append c = s.fb.append (g ++ c) :=
    (hg.append hfit).unique (hempty.append hfit)
  rw [execIngest_eq rfl hg.wf.2.1, execIngest_eq ht hempty.wf.2.1, State.ingest, State.ingest,
    noData_fb, appendChunk_fb, hg.overflows_eq_false hfit,
    hempty.overflows_eq_false (c := g ++ c) hfit, State.appendChunk, noData_fb, appendChunk_fb, hbuf]
  exact congrArg _ (syncAndDecode_transient false (s.appendChunk (g ++ c)) none _)

/-- Chunks whose bytes but the last's are part of a frame do what their bytes do as one chunk. -/
theorem presentChunks_eq_ingest {cs : List (List Byte)} (hpart : FramePart cs.flatten) {c : List Byte}
    (hfit : (cs.flatten ++ c).length ≤ Config.cap) :
    presentChunks (cs ++ [c]) s = exec (.ingest (cs.flatten ++ c)) s := by
  induction cs using List.reverseRecOn generalizing c with
  | nil => exact presentChunks_singleton c s
  | append_singleton ds d ih =>
    have hflat : (ds ++ [d]).flatten = ds.flatten ++ d := by simp
    rw [hflat] at hpart hfit ⊢
    obtain ⟨r, hr⟩ := exec_ingest_framePart ht hempty hpart
    have hds := ih hpart.of_append hpart.length_le
    rw [presentChunks_concat (hds.trans hr), exec_ingest_after_kept ht hempty hfit]

/-- So chunks that are themselves part of a frame end as NoData and are kept whole. -/
theorem presentChunks_framePart {cs : List (List Byte)} (hpart : FramePart cs.flatten)
    (hne : cs ≠ []) :
    ∃ r, presentChunks cs s = .next ((s.appendChunk cs.flatten).noData false r) := by
  obtain ⟨ds, d, hd⟩ := (List.eq_nil_or_concat cs).resolve_left hne
  obtain rfl : cs = ds ++ [d] := by rw [hd, List.concat_eq_append]
  have hflat : (ds ++ [d]).flatten = ds.flatten ++ d := by simp
  rw [hflat] at hpart ⊢
  rw [presentChunks_eq_ingest ht hempty hpart.of_append hpart.length_le]
  exact exec_ingest_framePart ht hempty hpart

end chunks

/-- Settles O24: the chunks before the last are part of the frame, so each ends as NoData and keeps all
bytes, and the last one completes it. -/
theorem fragmentationDoesNotChangeTheFrame : Obligations.FragmentationDoesNotChangeTheFrame := by
  rintro s t f cs last ⟨hwf, -, -⟩ ht hl hm hlen hfit hT h _ rfl hne
  have hempty := holds_nil hwf hl
  have hpart : FramePart cs.flatten := ⟨last, hne, hm, hlen, hfit, hT⟩
  refine ⟨(presentChunks_eq_ingest ht hempty hpart hfit).trans h, fun k hk hkl => ?_⟩
  have hpartk : FramePart (cs.take k).flatten := by
    rw [← List.take_append_drop k cs, List.flatten_append] at hpart
    exact hpart.of_append
  have hne : cs.take k ≠ [] := by
    rw [← List.length_pos_iff, List.length_take]
    omega
  obtain ⟨r, hr⟩ := presentChunks_framePart ht hempty hpartk hne
  exact ⟨_, hr, r, _, rfl⟩

end Sys2Proof.Machine
end

section
/-! PROOFS. What FSYNC has in place of exceptions (spec/60_exceptions.md): the recovery of an INGEST that ends
as Truncated (R206), and the idle step (R218). -/

namespace Sys2Proof.Machine

/-! ## Recovery -/

/-- Only a raise answers Truncated, and it answers with its own flag and reason (R13, R206). -/
theorem State.EndsIn.eq_truncate {s t : State} {r : TruncReason} {ov : Bool} {st : Status}
    (h : s.EndsIn t)
    (ho : t.outcome = some { result := .truncated r, overflow := ov, status := st }) :
    t = s.truncate ov r := by
  cases h with
  | noData | noSync => simp at ho
  | commit => simp [commitFrame_outcome] at ho
  | truncate ov' r' =>
    obtain ⟨rfl, rfl, -⟩ : r' = r ∧ ov' = ov ∧ _ := by simpa using ho
    rfl

/-- Settles O28: the sequence appends and aligns, which keeps the buffer legal and the tracker as it was,
and then recovers; a legal buffer is empty after recovery. -/
theorem truncatedDropsTheBufferAndKeepsTheTracker :
    Obligations.TruncatedDropsTheBufferAndKeepsTheTracker := by
  intro s t c r ov st hwf h ho
  obtain ⟨-, -, rfl⟩ := execIngest_next h
  obtain ⟨p, hend⟩ := ingest_endsIn c s
  have haligned : ((s.fb.append c).discardBefore p).wf := wf_discardBefore (append_wf hwf c) p
  have ht := hend.eq_truncate ho
  rw [ht, truncate_eq] at ho
  obtain ⟨-, -, rfl⟩ := OutcomeRecord.mk.inj (Option.some.inj ho)
  rw [ht]
  exact ⟨recover_of_wf haligned, truncate_tracker .., rfl⟩

/-! ## The idle step -/

/-- Settles O48: with nothing pending the fetch settles in the state it finds. -/
theorem idleStepKeepsTheState : Obligations.IdleStepKeepsTheState :=
  fun _ ht hp => step_of_fetch_settle (fetch_of_idle ht hp)

end Sys2Proof.Machine
end

section
/-! PROOFS. The host's duties and the hazards (spec/70_reset_and_hazards.md): overlapping transactions
(R240), draining (R242) and the capacity wedge (R243). Draining rests on one notion, a state in which the
sequence after the append finds nothing to do (`State.Drained`): it ends as NoData and writes the record
only. -/

namespace Sys2Proof.Machine

/-! ## Overlapping transactions -/

/-- Settles O55: both transactions look at the one in progress before anything else. -/
theorem overlappingTransactionsAreRefused : Obligations.OverlappingTransactionsAreRefused := by
  intro s x c ht
  constructor
  · change execIngest c s = _
    rw [execIngest, ht]
  · change execReset c s = _
    rw [execReset, ht]

/-! ## Drained states -/

/-- The sequence after the append ends as NoData and changes nothing but the record, whatever its flag:
there is no frame left to take out and no byte to drop. -/
def State.Drained (s : State) : Prop :=
  ∃ r, ∀ ov, s.syncAndDecode ov = s.noData ov r

/-- Either flag shows that a state is drained, as the sequence passes its flag to the record only (R171). -/
theorem drained_of_syncAndDecode {s : State} {ov : Bool} {r : NoDataReason}
    (h : s.syncAndDecode ov = s.noData ov r) : s.Drained := by
  refine ⟨r, fun ov' => ?_⟩
  rw [← syncAndDecode_withOverflow ov ov' s, h]
  rfl

/-- The end of a transaction as NoData leaves a drained state drained (R31). -/
theorem State.Drained.noData {s : State} (h : s.Drained) (ov : Bool) (r : NoDataReason) :
    (s.noData ov r).Drained := by
  obtain ⟨r', hr⟩ := h
  exact ⟨r', fun ov' => (syncAndDecode_transient ov' s none _).trans (hr ov')⟩

/-- Fewer bytes than a marker are a drained buffer (R104, R105). -/
theorem drained_of_short {s : State} (h : s.fb.len < 8) : s.Drained :=
  ⟨.noSync, syncAndDecode_of_short h⟩

/-- With the marker at index 0 the state is drained when the header's part of the sequence is (R106). -/
theorem drained_of_decodeAligned {s : State} {ov : Bool} {r : NoDataReason}
    (hsync : s.fb.syncAt 0 = true) (h : s.decodeAligned ov = s.noData ov r) : s.Drained :=
  drained_of_syncAndDecode ((syncAndDecode_of_syncAt_zero hsync ov).trans h)

/-- An end that is not a Frame leaves a drained state: the trim and the recovery leave less than a marker,
and an incomplete header or frame stays aligned and incomplete (R105, R107, R122, R206). -/
theorem drained_of_not_frame {s : State} {ov : Bool}
    (h : (s.syncAndDecode ov).outcome.any (fun o => o.result.isFrame) = false) :
    (s.syncAndDecode ov).Drained := by
  obtain ⟨-, he⟩ | ⟨p, hp, he⟩ := syncAndDecode_cases ov s
  · rw [he]
    have htrim : s.fb.trim.len ≤ 7 := (trim_len s.fb).trans_le (Nat.min_le_right _ _)
    exact drained_of_short (Nat.lt_succ_of_le htrim)
  · rw [he] at h ⊢
    obtain ⟨r, -, -, he⟩ | ⟨r, he⟩ | ⟨d, he⟩ :=
      decodeAligned_end_cases ov { s with fb := s.fb.discardBefore p }
    · rw [he]
      exact (drained_of_decodeAligned (syncAt_zero_of_trueSync hp) he).noData ov r
    · rw [he]
      refine drained_of_short ?_
      rw [truncate_fb, recover_len]
      decide
    · rw [he, commitFrame_outcome] at h
      cases h

/-! ## Draining -/

/-- The empty chunk adds nothing to a legal buffer (R100). -/
theorem append_nil_of_wf {fb : FrameBuffer} (h : fb.wf) : fb.append [] = fb := by
  have hheld := holds_readBytes h
  have happended := hheld.append (c := []) (by simpa using h.2.1)
  rw [List.append_nil] at happended
  exact happended.unique hheld

/-- An INGEST of the empty chunk in a drained state returns NoData and keeps everything else (R242). -/
theorem State.Drained.ingest_nil {s : State} (h : s.Drained) (hwf : s.fb.wf) :
    ∃ r, s.ingest [] = s.noData (s.fb.overflows []) r := by
  obtain ⟨r, hr⟩ := h
  refine ⟨r, ?_⟩
  rw [State.ingest, State.appendChunk, append_nil_of_wf hwf]
  exact hr _

/-- Settles O31: an INGEST that is not a Frame leaves a drained state. -/
theorem drainingStopsAtTheFirstNonFrame : Obligations.DrainingStopsAtTheFirstNonFrame := by
  intro s t u c hwf ht hframe hu
  have hlegal : t.wf := exec_wf ht hwf (by simp)
  obtain ⟨-, -, rfl⟩ := execIngest_next ht
  obtain ⟨-, -, rfl⟩ := execIngest_next hu
  have hdrained : (s.ingest c).Drained := drained_of_not_frame hframe
  obtain ⟨r, he⟩ := hdrained.ingest_nil hlegal.1
  rw [he]
  exact ⟨rfl, rfl, rfl⟩

/-! ## The capacity wedge -/

/-- An aligned frame of a legal length that is not all there ends as INCOMPLETE_FRAME and stays (R107). -/
theorem syncAndDecode_of_incomplete {s : State} (hsync : s.fb.syncAt 0 = true)
    (hheld : Config.hdrLen ≤ s.fb.len) (hmin : Config.hdrLen ≤ s.fb.cells.memRead 20 4)
    (hmax : s.fb.cells.memRead 20 4 ≤ Config.cap) (hpart : s.fb.len < s.fb.cells.memRead 20 4)
    (ov : Bool) : s.syncAndDecode ov = s.noData ov .incompleteFrame := by
  rw [syncAndDecode_of_syncAt_zero hsync, State.decodeAligned,
    headerCheck_of_len_lt_total hheld hmin hmax hpart]
  rfl

/-- An INGEST whose chunk does not fit synchronises and decodes what was there before, with the flag set
(R101). -/
theorem ingest_of_overflows {s : State} {c : List Byte} (h : s.fb.overflows c = true) :
    s.ingest c = s.syncAndDecode true := by
  rw [State.ingest, State.appendChunk, append_of_overflows h, h]

/-- Settles O32: the chunk is dropped, and what is held stays incomplete. -/
theorem capacityWedgeDoesNotMove : Obligations.CapacityWedgeDoesNotMove := by
  intro s c ht hc hsync hheld hmin hmax hpart hlong
  have hover : s.fb.overflows c = true := overflows_iff.mpr (by omega)
  rw [execIngest_eq ht hc, ingest_of_overflows hover,
    syncAndDecode_of_incomplete (mem_findSync_iff.mp hsync) hheld hmin hmax hpart, State.noData,
    State.finish, ht]

end Sys2Proof.Machine
end
